-- ==== Sys2Proof/Word.lean ====
section
/-! DEFINITION. The word, address and symbol types of CFCE. -/

namespace Sys2Proof

/-- A word of the host port: 32 bits, unsigned (00_scope.md R11, 20_memory.md R63). -/
abbrev Word := BitVec 32

/-- A word address of the host port: 16 bits, taken mod 2^16 (20_memory.md R61, R63). -/
abbrev Addr := BitVec 16

/-- A symbol: an integer in [0,25], A = 0 up to Z = 25 (00_scope.md R10). -/
abbrev Sym := Fin 26

/-- `zext_32(v)` of 00_scope.md R11: a natural number as a word. -/
abbrev word (n : Nat) : Word := BitVec.ofNat 32 n

end Sys2Proof
end

