-- ==== Sys2Proof/Config.lean ====
section
/-! DEFINITION. What an implementation of CFCE fixes: the shape of the parameter record of 00_scope.md R7, and
the values that the spec leaves open, as constants with no body. -/

namespace Sys2Proof

/-- A rotor or reflector wiring: entry `j` is the symbol that symbol `j` is wired to (45_enigma_rotor_path.md
R222, R223). -/
abbrev Wiring := Vector Sym 26

/-- The CATALOG parameter (00_scope.md R7, 45_enigma_rotor_path.md R222). Index 0 is identifier 1. -/
structure Catalog where
  /-- ROTOR_WIRING[1..5]. -/
  rotorWiring : Vector Wiring 5
  /-- ROTOR_NOTCH[1..5]. -/
  rotorNotch : Vector Sym 5
  /-- REFL_WIRING[1..2]. -/
  reflWiring : Vector Wiring 2
deriving DecidableEq, Repr

/-- Which PF_CLEANUP an implementation has (00_scope.md R7): the default of 43_playfair.md R176, or some other
total function on symbol lists, named by a number. -/
inductive Cleanup where
  | standard
  | custom (id : Nat)
deriving DecidableEq, Repr

/-- The parameters of 00_scope.md R7. OUT_MAX and TRACE_MAX are computed from them
(Machine/Parameters.lean). -/
structure Params where
  /-- TEXT_MAX: cells in the TEXT buffer. -/
  textMax : Nat
  /-- KEY_MAX: cells in the KEY buffer. -/
  keyMax : Nat
  /-- CATALOG: rotor wirings and notches, reflector wirings. -/
  catalog : Catalog
  /-- EMPTY_TEXT_IS_ERROR (60_exceptions.md R276). -/
  emptyTextIsError : Bool
  /-- PF_EMPTY_KEY_IS_ERROR (43_playfair.md R163). -/
  pfEmptyKeyIsError : Bool
  /-- PF_CLEANUP (43_playfair.md R176). -/
  cleanup : Cleanup
deriving DecidableEq, Repr

/-- FREE VALUE (log entry 1). What a buffer cell reads as that nothing has written since reset: "an arbitrary
32-bit value" that stays fixed until the cell is written (10_state.md R48, 93_implementation_defined.md U1). The
first argument counts the resets so far, the second is the cell's word address. -/
opaque Config.unwrittenCell : Nat → Nat → Word

/-- FREE VALUE (log entry 3). The PF_CLEANUP of an implementation that does not use the default: any total function
(00_scope.md R7, 93_implementation_defined.md U4). -/
opaque Config.customCleanup : Nat → List Sym → List Sym

/-- FREE VALUE (log entry 18). What OUT_LEN takes from a result of so many symbols that the number does not fit 32
bits; only a PF_CLEANUP other than the default could give one. -/
opaque Config.overlongLength : Nat → Word

end Sys2Proof
end

