-- ==== Sys2Proof/Syntax.lean ====
section
/-! DEFINITION. The commands of CFCE: one constructor per row of spec/opcode_table.json (30_encoding.md R83). -/

namespace Sys2Proof

/-- A command. Only VIG.TAB has an operand in its command word (30_encoding.md R80, R82): every other operand
is read from the registers and buffers. -/
inductive Instr where
  /-- NOP (46_control_ops.md R261). -/
  | nop
  /-- CLR (46_control_ops.md R262). -/
  | clr
  /-- VIG.ENC (41_vigenere.md R123). -/
  | vigEnc
  /-- VIG.DEC (41_vigenere.md R125). -/
  | vigDec
  /-- VIG.TAB with the count N = ARG (41_vigenere.md R127). -/
  | vigTab (n : Nat)
  /-- AFF.ENC (42_affine.md R143). -/
  | affEnc
  /-- AFF.DEC (42_affine.md R145). -/
  | affDec
  /-- AFF.INV (42_affine.md R146). -/
  | affInv
  /-- PF.ENC (43_playfair.md R171). -/
  | pfEnc
  /-- PF.DEC (43_playfair.md R175). -/
  | pfDec
  /-- PF.MAT (43_playfair.md R177). -/
  | pfMat
  /-- HILL.ENC (44_hill_matrix_inverse.md R199). -/
  | hillEnc
  /-- HILL.DEC (44_hill_matrix_inverse.md R201). -/
  | hillDec
  /-- HILL.INV (44_hill_matrix_inverse.md R202). -/
  | hillInv
  /-- ENIG.RUN (45_enigma_rotor_path.md R232). -/
  | enigRun
deriving DecidableEq, Repr

end Sys2Proof
end

