-- ==== Sys2Proof/WellFormed.lean ====
section
/-! DEFINITION. Which terms of `Instr` a command word can encode. -/

namespace Sys2Proof

/-- An instruction is well formed when its operand fits its field: N of VIG.TAB is an unsigned count in 0..255
(30_encoding.md R80, R82). The other fourteen commands have no operand. -/
def Instr.wf : Instr → Bool
  | .vigTab n => n < 256
  | .nop | .clr | .vigEnc | .vigDec | .affEnc | .affDec | .affInv | .pfEnc | .pfDec | .pfMat
  | .hillEnc | .hillDec | .hillInv | .enigRun => true

end Sys2Proof
end

