-- ==== Sys2Proof/Decode.lean ====
section
/-! DEFINITION. The command word: its fields, the opcode table, the decoder and, after it, the encoder
(30_encoding.md R80 to R85). -/

namespace Sys2Proof

/-- Why a command word encodes no operation (30_encoding.md R84). The engine answers each with
IllegalCommand. -/
inductive DecodeError where
  /-- w[31:16] is not 0. -/
  | reservedBits
  /-- OPC is none of the fifteen values of R83. -/
  | illegalOpcode
  /-- The row's format is Z and w[15:8] is not 0. -/
  | argNotZero
deriving DecidableEq, Repr

/-- RSV = w[31:16]. -/
def rsvField (w : Word) : BitVec 16 := w.extractLsb' 16 16

/-- ARG = w[15:8]. -/
def argField (w : Word) : BitVec 8 := w.extractLsb' 8 8

/-- OPC = w[7:0], UNIT and FUNC taken together. -/
def opcField (w : Word) : BitVec 8 := w.extractLsb' 0 8

/-- One row of the opcode map of 30_encoding.md R83: a word `w` selects the row when `w AND mask = bits`. `make`
builds the instruction from the count `N = zext_32(ARG)` of R82. -/
structure OpcodeRow where
  bits : Word
  mask : Word
  make : Nat → Instr

/-- The complete opcode map, in the order of 30_encoding.md R83. -/
def opcodeMap : List OpcodeRow :=
  [ ⟨0x00000000#32, 0xFFFFFFFF#32, fun _ => .nop⟩,
    ⟨0x00000001#32, 0xFFFFFFFF#32, fun _ => .clr⟩,
    ⟨0x00000010#32, 0xFFFFFFFF#32, fun _ => .vigEnc⟩,
    ⟨0x00000011#32, 0xFFFFFFFF#32, fun _ => .vigDec⟩,
    ⟨0x00000012#32, 0xFFFF00FF#32, .vigTab⟩,
    ⟨0x00000020#32, 0xFFFFFFFF#32, fun _ => .affEnc⟩,
    ⟨0x00000021#32, 0xFFFFFFFF#32, fun _ => .affDec⟩,
    ⟨0x00000022#32, 0xFFFFFFFF#32, fun _ => .affInv⟩,
    ⟨0x00000030#32, 0xFFFFFFFF#32, fun _ => .pfEnc⟩,
    ⟨0x00000031#32, 0xFFFFFFFF#32, fun _ => .pfDec⟩,
    ⟨0x00000032#32, 0xFFFFFFFF#32, fun _ => .pfMat⟩,
    ⟨0x00000040#32, 0xFFFFFFFF#32, fun _ => .hillEnc⟩,
    ⟨0x00000041#32, 0xFFFFFFFF#32, fun _ => .hillDec⟩,
    ⟨0x00000042#32, 0xFFFFFFFF#32, fun _ => .hillInv⟩,
    ⟨0x00000050#32, 0xFFFFFFFF#32, fun _ => .enigRun⟩ ]

/-- Whether a word selects a row of the opcode map (30_encoding.md R83). -/
def OpcodeRow.selects (row : OpcodeRow) (w : Word) : Bool := w &&& row.mask == row.bits

/-- The name of what is wrong with a word that selects no row (30_encoding.md R84). -/
def decodeError (w : Word) : DecodeError :=
  if rsvField w ≠ 0 then .reservedBits
  else if opcodeMap.any (fun row => opcField row.bits == opcField w) then .argNotZero
  else .illegalOpcode

/-- The decoder: total on every word, rejecting by name (30_encoding.md R83 to R85). -/
def decode (w : Word) : Except DecodeError Instr :=
  match opcodeMap.find? (·.selects w) with
  | some row => .ok (row.make (argField w).toNat)
  | none => .error (decodeError w)

/-- The command word of an instruction (30_encoding.md R83, and R87 for VIG.TAB: `0x00000012 + 256·N`). -/
def encode : Instr → Word
  | .nop => 0x00000000#32
  | .clr => 0x00000001#32
  | .vigEnc => 0x00000010#32
  | .vigDec => 0x00000011#32
  | .vigTab n => 0x00000012#32 + 256#32 * word n
  | .affEnc => 0x00000020#32
  | .affDec => 0x00000021#32
  | .affInv => 0x00000022#32
  | .pfEnc => 0x00000030#32
  | .pfDec => 0x00000031#32
  | .pfMat => 0x00000032#32
  | .hillEnc => 0x00000040#32
  | .hillDec => 0x00000041#32
  | .hillInv => 0x00000042#32
  | .enigRun => 0x00000050#32

/-- The instruction the decoder reads from an instruction whose low `nbits` bits are `w`. A command is one
32-bit word (30_encoding.md R80), so a number that does not fit one is refused (log entry 15). -/
def decodeTableWord (nbits w : Nat) : Option Instr :=
  let v := w % 2 ^ nbits
  if v < 2 ^ 32 then (decode (word v)).toOption else none

end Sys2Proof
end

