-- ==== Sys2Proof/Machine/Parameters.lean ====
section
/-! DEFINITION. The parameters of 00_scope.md R7: the derived capacities, the constraints, the default values and
the default CATALOG. -/

namespace Sys2Proof.Machine

/-- Rotor I of the default CATALOG, EKMFLGDQVZNTOWYHXUSPAIBRCJ (45_enigma_rotor_path.md R223). -/
def rotorI : Wiring :=
  #v[4, 10, 12, 5, 11, 6, 3, 16, 21, 25, 13, 19, 14, 22, 24, 7, 23, 20, 18, 15, 0, 8, 1, 17, 2, 9]

/-- Rotor II of the default CATALOG, AJDKSIRUXBLHWTMCQGZNPYFVOE (45_enigma_rotor_path.md R223). -/
def rotorII : Wiring :=
  #v[0, 9, 3, 10, 18, 8, 17, 20, 23, 1, 11, 7, 22, 19, 12, 2, 16, 6, 25, 13, 15, 24, 5, 21, 14, 4]

/-- Rotor III of the default CATALOG, BDFHJLCPRTXVZNYEIWGAKMUSQO (45_enigma_rotor_path.md R223). -/
def rotorIII : Wiring :=
  #v[1, 3, 5, 7, 9, 11, 2, 15, 17, 19, 23, 21, 25, 13, 24, 4, 8, 22, 6, 0, 10, 12, 20, 18, 16, 14]

/-- Rotor IV of the default CATALOG, ESOVPZJAYQUIRHXLNFTGKDCMWB (45_enigma_rotor_path.md R223). -/
def rotorIV : Wiring :=
  #v[4, 18, 14, 21, 15, 25, 9, 0, 24, 16, 20, 8, 17, 7, 23, 11, 13, 5, 19, 6, 10, 3, 2, 12, 22, 1]

/-- Rotor V of the default CATALOG, VZBRGITYUPSDNHLXAWMJQOFECK (45_enigma_rotor_path.md R223). -/
def rotorV : Wiring :=
  #v[21, 25, 1, 17, 6, 8, 19, 24, 20, 15, 18, 3, 13, 7, 11, 23, 0, 22, 12, 9, 16, 14, 5, 4, 2, 10]

/-- Reflector B of the default CATALOG, YRUHQSLDPXNGOKMIEBFZCWVJAT (45_enigma_rotor_path.md R223). -/
def reflectorB : Wiring :=
  #v[24, 17, 20, 7, 16, 18, 11, 3, 15, 23, 13, 6, 14, 10, 12, 8, 4, 1, 5, 25, 2, 22, 21, 9, 0, 19]

/-- Reflector C of the default CATALOG, FVPJIAOYEDRZXWGCTKUQSBNMHL (45_enigma_rotor_path.md R223). -/
def reflectorC : Wiring :=
  #v[5, 21, 15, 9, 8, 0, 14, 24, 4, 3, 17, 25, 23, 22, 6, 2, 19, 10, 20, 16, 18, 1, 13, 12, 7, 11]

/-- The default CATALOG: rotors I to V with notches Q, E, V, J, Z and reflectors B and C
(45_enigma_rotor_path.md R223). -/
def historicalCatalog : Catalog where
  rotorWiring := #v[rotorI, rotorII, rotorIII, rotorIV, rotorV]
  rotorNotch := #v[16, 4, 21, 9, 25]
  reflWiring := #v[reflectorB, reflectorC]

/-- The defaults of 00_scope.md R7. -/
def defaultParams : Params where
  textMax := 2048
  keyMax := 256
  catalog := historicalCatalog
  emptyTextIsError := true
  pfEmptyKeyIsError := true
  cleanup := .standard

/-- OUT_MAX = max(2·TEXT_MAX + 4, 26·KEY_MAX) (00_scope.md R7). -/
def outMax (p : Params) : Nat := max (2 * p.textMax + 4) (26 * p.keyMax)

/-- TRACE_MAX = TEXT_MAX (00_scope.md R7). -/
def traceMax (p : Params) : Nat := p.textMax

/-- A wiring is a permutation of 0..25 (45_enigma_rotor_path.md R222 (a)). -/
abbrev wiringIsPermutation (w : Wiring) : Prop := w.toList.Nodup

/-- A reflector wiring is an involution with no fixed point (45_enigma_rotor_path.md R222 (c)). -/
abbrev wiringIsReflector (w : Wiring) : Prop := ∀ j : Sym, w[w[j]] = j ∧ w[j] ≠ j

/-- The constraints on CATALOG (45_enigma_rotor_path.md R222): (a) permutations, (c) fixed-point-free
involutions, (d) the notches of II and III are E and V. That a wiring has 26 symbols, and (b) that a notch is one
symbol, is in the types. -/
abbrev catalogWf (c : Catalog) : Prop :=
  (∀ id : Fin 5, wiringIsPermutation c.rotorWiring[id]) ∧
  (∀ id : Fin 2, wiringIsReflector c.reflWiring[id]) ∧
  c.rotorNotch[1] = 4 ∧ c.rotorNotch[2] = 21

/-- The constraints on the parameters (00_scope.md R7). -/
abbrev paramsWf (p : Params) : Prop :=
  1 ≤ p.textMax ∧ p.textMax ≤ 2048 ∧ 1 ≤ p.keyMax ∧ p.keyMax ≤ 256 ∧ catalogWf p.catalog

end Sys2Proof.Machine
end

