-- ==== Sys2Proof/Machine/State.lean ====
section
/-! DEFINITION. The state of one CFCE instance together with the one host that drives it, the state after reset,
and the two (empty-handed) ways a step could stop. -/

namespace Sys2Proof.Machine

/-- What can happen at the host port: a single read or a single write of one location (20_memory.md R61, R62),
or a reset (70_reset_and_hazards.md R300: "the only event other than a host write that changes state"). -/
inductive PortEvent where
  | read (a : Addr)
  | write (a : Addr) (w : Word)
  | reset
deriving DecidableEq, Repr

/-- The buffer cells written since reset, as (word address, word) pairs with strictly rising addresses. A cell
that is not listed has not been written (10_state.md R48; log entry 6). -/
abbrev Memory := List (Nat × Word)

/-- The state of the machine. The registers are those of the table of 10_state.md R20; the cells of TEXT, KEY, OUT
and TRACE are in `mem` under their word addresses. ROM is no state: it is read from `params.catalog` (R20 (c)). -/
structure State where
  /-- The model's own: the parameters of 00_scope.md R7, which no step changes (log entry 2). -/
  params : Params
  /-- The model's own: what the host will do at the port, next event first (log entry 4). -/
  pending : List PortEvent
  /-- The model's own: the words that the host's reads returned, oldest first (log entry 4). -/
  replies : List Word
  /-- The model's own: how many resets came in since the start; it selects the free values of unwritten cells
  (log entry 1). -/
  resets : Nat
  /-- CMD (R21). -/
  cmd : Word
  /-- STATUS (R22): bit 0 DONE, bit 1 ERRF. -/
  status : Word
  /-- ERR (R23). -/
  err : Word
  /-- TEXT_LEN (R24). -/
  textLen : Word
  /-- KEY_LEN (R25). -/
  keyLen : Word
  /-- OUT_LEN (R26). -/
  outLen : Word
  /-- TRACE_CNT (R27). -/
  traceCnt : Word
  /-- AFF_A (R28). -/
  affA : Word
  /-- AFF_B (R28). -/
  affB : Word
  /-- AFF_AINV (R29). -/
  affAinv : Word
  /-- HILL_N (R30). -/
  hillN : Word
  /-- HILL_M[r][c] at index 5r + c (R31). -/
  hillM : Vector Word 25
  /-- HILL_INV[r][c] at index 5r + c (R32). -/
  hillInv : Vector Word 25
  /-- PF_MAT[k] (R33). -/
  pfMat : Vector Word 25
  /-- ENG_ROTOR[s] (R34). -/
  engRotor : Vector Word 3
  /-- ENG_REFL (R34). -/
  engRefl : Word
  /-- ENG_POS[s] (R35). -/
  engPos : Vector Word 3
  /-- ENG_RING[s] (R35). -/
  engRing : Vector Word 3
  /-- ENG_PLUG_CNT (R36). -/
  engPlugCnt : Word
  /-- ENG_PLUG_A[k] (R36). -/
  engPlugA : Vector Word 13
  /-- ENG_PLUG_B[k] (R36). -/
  engPlugB : Vector Word 13
  /-- The cells of TEXT, KEY, OUT and TRACE written since reset (R37, R38). -/
  mem : Memory
deriving DecidableEq, Repr

/-- Faults. There is none: "Every operation is a total function from the architectural state to the architectural
state" (00_scope.md R14) and "Host accesses themselves never raise anything" (60_exceptions.md R283). An error of
the source's taxonomy is no fault: it is reported in ERR by a next state (60_exceptions.md R281; log entry 8). -/
inductive Fault where
deriving DecidableEq, Repr

/-- Refusals. -/
inductive Refusal where
  /-- Raised by `exec` for an instruction that has no meaning yet; safe. No arm of `exec` raises it: all fifteen
  commands have their meaning. -/
  | notModelled (mnemonic : String)
deriving DecidableEq, Repr

/-- The machine right after reset (10_state.md R47, R48; 70_reset_and_hazards.md R300): every register 0, no cell
written. The parameters are the defaults of 00_scope.md R7 and the host has nothing pending. -/
def State.reset : State where
  params := defaultParams
  pending := []
  replies := []
  resets := 0
  cmd := 0
  status := 0
  err := 0
  textLen := 0
  keyLen := 0
  outLen := 0
  traceCnt := 0
  affA := 0
  affB := 0
  affAinv := 0
  hillN := 0
  hillM := Vector.replicate 25 0
  hillInv := Vector.replicate 25 0
  pfMat := Vector.replicate 25 0
  engRotor := Vector.replicate 3 0
  engRefl := 0
  engPos := Vector.replicate 3 0
  engRing := Vector.replicate 3 0
  engPlugCnt := 0
  engPlugA := Vector.replicate 13 0
  engPlugB := Vector.replicate 13 0
  mem := []

end Sys2Proof.Machine
end

