-- ==== Sys2Proof/Machine/Flags.lean ====
section
/-! DEFINITION. The status flags. CFCE has no condition codes (10_state.md R42); the only flags are STATUS.DONE
and STATUS.ERRF (R22). -/

namespace Sys2Proof.Machine

/-- A STATUS word: bit 0 DONE, bit 1 ERRF, bits 31:2 zero (10_state.md R22). -/
def statusWord (done errf : Bool) : Word :=
  (if done then 1#32 else 0#32) ||| (if errf then 2#32 else 0#32)

/-- ERRF is "1 exactly when ERR ≠ 0" (10_state.md R22; log entry 10). -/
def errFlag (err : Word) : Bool := err ≠ 0

/-- STATUS.DONE (10_state.md R22). -/
def State.done (s : State) : Bool := s.status.getLsbD 0

/-- STATUS.ERRF (10_state.md R22). -/
def State.errf (s : State) : Bool := s.status.getLsbD 1

end Sys2Proof.Machine
end

