-- ==== Sys2Proof/Machine/Ops.lean ====
section
/-! DEFINITION. The operations that every command shares: buffer cells, the start of a command, the commit of its
results, and the abort (the one way this hardware takes an exception). -/

namespace Sys2Proof.Machine

/-! ### Buffer cells -/

/-- The word written last to an address since reset, if any. -/
def Memory.read? (m : Memory) (a : Nat) : Option Word := m.lookup a

/-- `ws` written to the consecutive addresses from `base` on. -/
def Memory.writeBlock (m : Memory) (base : Nat) (ws : List Word) : Memory :=
  m.filter (fun c => c.1 < base) ++ ws.mapIdx (fun i w => (base + i, w)) ++
    m.filter (fun c => base + ws.length ≤ c.1)

/-- One word written to one address. -/
def Memory.write (m : Memory) (a : Nat) (w : Word) : Memory := m.writeBlock a [w]

/-- The canonical form of a memory: addresses strictly rising. An unlisted address has no value, so no entry can
equal what an unlisted address reads as. -/
abbrev Memory.wf (m : Memory) : Prop := m.Pairwise (fun c d => c.1 < d.1)

/-- TEXT[i] is at 0x1000 + i (10_state.md R37). -/
def textBase : Nat := 0x1000

/-- KEY[i] is at 0x2000 + i (10_state.md R37). -/
def keyBase : Nat := 0x2000

/-- OUT[i] is at 0x4000 + i (10_state.md R37). -/
def outBase : Nat := 0x4000

/-- TRACE[k][f] is at 0x8000 + 16k + f (10_state.md R38). -/
def traceBase : Nat := 0x8000

/-- What the buffer cell at a word address holds: the word written last, or, where nothing was written since reset,
a free value that stays the same until the cell is written (10_state.md R48). -/
def State.cell (s : State) (a : Nat) : Word :=
  (s.mem.read? a).getD (Config.unwrittenCell s.resets a)

/-! ### Results of an operation -/

/-- One trace record of 16 words (10_state.md R38). -/
abbrev Record := Vector Word 16

/-- A trace record from its first fields, "unused fields as 0" (10_state.md R38). -/
def record (fields : List Word) : Record := Vector.ofFn fun f => fields.getD f.val 0

/-- The error codes' names (60_exceptions.md R270). -/
inductive ErrorCode where
  | emptyInput
  | invalidKey
  | invalidSelection
  | invalidPosition
  | invalidRing
  | invalidPlugboard
  | noInverse
  | singularMatrix
  | oddLength
  | illegalCommand
deriving DecidableEq, Repr

/-- The value ERR takes (60_exceptions.md R270). -/
def errorWord : ErrorCode → Word
  | .emptyInput => 1
  | .invalidKey => 2
  | .invalidSelection => 3
  | .invalidPosition => 4
  | .invalidRing => 5
  | .invalidPlugboard => 6
  | .noInverse => 7
  | .singularMatrix => 8
  | .oddLength => 9
  | .illegalCommand => 10

/-- What an operation that ends without `raise` writes, buffered (46_control_ops.md R260): the OUT symbols, the
trace records, and the output register of its own unit where its rule writes it. -/
structure Result where
  out : List Sym
  trace : List Record
  affAinv : Option Word
  hillInv : Option (Vector Word 25)
  pfMat : Option (Vector Word 25)
deriving DecidableEq, Repr

/-- `chr(s)`: the upper-case character code of a symbol (40_alphabet_utilities.md R102). -/
def chr (x : Sym) : Word := word (0x41 + x.val)

/-! ### The course of a command -/

/-- The first line of 46_control_ops.md R260: CMD takes the word written. -/
def State.storeCmd (s : State) (w : Word) : State := { s with cmd := w }

/-- "fresh result": OUT_LEN, TRACE_CNT and ERR are cleared before an operation runs (46_control_ops.md R260). -/
def State.freshResult (s : State) : State := { s with outLen := 0, traceCnt := 0, err := 0 }

/-- The last line of 46_control_ops.md R260: DONE is set and ERRF says whether ERR is not 0. -/
def State.finish (s : State) : State := { s with status := statusWord true (errFlag s.err) }

/-- The words an operation's result writes to OUT from OUT[0] on: the letters' codes, as far as OUT has cells. Only a
PF_CLEANUP that lengthens its argument gives more than OUT_MAX letters (10_state.md R37; log entry 18). -/
def outCells (p : Params) (out : List Sym) : List Word := (out.map chr).take (outMax p)

/-- `OUT_LEN <- len(out)`: the length as a word; a free value where it does not fit one (log entry 18). -/
def outLength (out : List Sym) : Word :=
  if out.length < 2 ^ 32 then word out.length else Config.overlongLength out.length

/-- The commit of an operation's buffered writes: OUT[0..OUT_LEN−1], the records 0..TRACE_CNT−1, their counts, and
the unit's output register where the operation writes it (46_control_ops.md R260; 10_state.md R37, R38, R43). -/
def State.commit (s : State) (r : Result) : State :=
  { s with
    outLen := outLength r.out
    traceCnt := word r.trace.length
    affAinv := r.affAinv.getD s.affAinv
    hillInv := r.hillInv.getD s.hillInv
    pfMat := r.pfMat.getD s.pfMat
    mem := (s.mem.writeBlock outBase (outCells s.params r.out)).writeBlock traceBase
      (r.trace.flatMap Vector.toList) }

/-- `raise E` (60_exceptions.md R281), the one exception mechanism of this hardware: ERR takes the code, OUT_LEN and
TRACE_CNT become 0, DONE and ERRF are set, and nothing else changes. No state is saved and control goes nowhere, so
there is no return from it either: the next write to CMD starts a fresh operation (R282). -/
def State.raise (s : State) (e : ErrorCode) : State :=
  { s with err := errorWord e, outLen := 0, traceCnt := 0, status := statusWord true true }

/-- The course of every operation other than NOP and CLR (46_control_ops.md R260): a fresh result, the operation's
own body, then the commit or the abort. -/
def runOperation (body : State → Except ErrorCode Result) (s : State) : State :=
  match body s.freshResult with
  | .ok r => (s.freshResult.commit r).finish
  | .error e => s.freshResult.raise e

/-- CLR's effect (46_control_ops.md R262): every output returns to its reset value. -/
def State.clearOutputs (s : State) : State :=
  { s with
    outLen := 0
    traceCnt := 0
    err := 0
    affAinv := 0
    hillInv := Vector.replicate 25 0
    pfMat := Vector.replicate 25 0
    status := 0 }

/-- An illegal command word (46_control_ops.md R263): IllegalCommand, and no unit runs. -/
def illegalCommand (s : State) : State := s.raise .illegalCommand

/-- Reset (70_reset_and_hazards.md R300): every register 0 and every buffer cell unspecified anew. The parameters
are no state of the device, and the host's own queue and the replies it holds stay (log entry 5). -/
def State.resetDevice (s : State) : State :=
  { State.reset with
    params := s.params
    pending := s.pending
    replies := s.replies
    resets := s.resets + 1 }

end Sys2Proof.Machine
end

