-- ==== Sys2Proof/Machine/Alphabet.lean ====
section
/-! DEFINITION. Alphabet Utilities (40_alphabet_utilities.md): character codes, cleaning, and arithmetic mod 26. -/

namespace Sys2Proof.Machine

/-- The symbol J = 9. -/
def symJ : Sym := 9

/-- The symbol I = 8. -/
def symI : Sym := 8

/-- The symbol X = 23: the Playfair filler and the Hill padding. -/
def symX : Sym := 23

/-- The symbols 0..25 in order. -/
def allSyms : List Sym := [0, 1, 2, 3, 4, 5, 6, 7, 8, 9, 10, 11, 12, 13, 14, 15, 16, 17, 18, 19, 20, 21, 22, 23, 24, 25]

/-- The symbol a character code stands for, if it is a letter (40_alphabet_utilities.md R100). -/
def symOf (c : Word) : Option Sym :=
  if h : 0x41 ≤ c.toNat ∧ c.toNat ≤ 0x5A then some ⟨c.toNat - 0x41, by omega⟩
  else if h : 0x61 ≤ c.toNat ∧ c.toNat ≤ 0x7A then some ⟨c.toNat - 0x61, by omega⟩
  else none

/-- `isLetter(c)` (40_alphabet_utilities.md R100). -/
def isLetter (c : Word) : Bool := (symOf c).isSome

/-- `clean(cells)`: the CleanText of a list of cells (40_alphabet_utilities.md R101). -/
def clean (cells : List Word) : List Sym := cells.filterMap symOf

/-- `mod(n, m)`: the non-negative remainder (40_alphabet_utilities.md R103). -/
def mod (n m : Int) : Int := n % m

/-- `mod(n, 26)` as a symbol (40_alphabet_utilities.md R103, R107). -/
def mod26 (n : Int) : Sym := ⟨(mod n 26).toNat, by unfold mod; omega⟩

/-- `modInv(a)`: the modular inverse mod 26, by ascending search over 1..25 (40_alphabet_utilities.md R104). -/
def modInv (a : Nat) : Option Nat := (List.range' 1 25).find? fun x => mod (a * x) 26 == 1

/-- `isUnit(v)` (40_alphabet_utilities.md R105). -/
def isUnit (v : Nat) : Bool := (modInv v).isSome

end Sys2Proof.Machine
end

