-- ==== Sys2Proof/Machine/Operands.lean ====
section
/-! DEFINITION. The operands of the operations, as each unit's rule reads them from the registers and buffers. -/

namespace Sys2Proof.Machine

/-- `TEXT[0..TEXT_LEN−1]` (10_state.md R24). -/
def State.textCells (s : State) : List Word :=
  (List.range s.textLen.toNat).map fun i => s.cell (textBase + i)

/-- `KEY[0..KEY_LEN−1]` (10_state.md R25). -/
def State.keyCells (s : State) : List Word :=
  (List.range s.keyLen.toNat).map fun i => s.cell (keyBase + i)

/-- `clean(TEXT[0..TEXT_LEN−1])`. -/
def State.cleanText (s : State) : List Sym := clean s.textCells

/-- `clean(KEY[0..KEY_LEN−1])`. -/
def State.cleanKey (s : State) : List Sym := clean s.keyCells

/-- Element (r, c) of a 5×5 register array, stored row-major with stride 5 (10_state.md R31, R32). -/
def element (v : Vector Word 25) (r c : Nat) : Word := v.toList.getD (5 * r + c) 0

/-- `x[HILL_M[r][c]]` (10_state.md R31). -/
def State.hillEntry (s : State) (r c : Nat) : Word := element s.hillM r c

/-- The plugboard pairs `(ENG_PLUG_A[k], ENG_PLUG_B[k])` for k = 0 .. ENG_PLUG_CNT − 1 (10_state.md R36). There are
13 pairs of registers; a larger count is refused before this list is used (45_enigma_rotor_path.md R226). -/
def State.plugPairs (s : State) : List (Word × Word) :=
  (s.engPlugA.toList.zip s.engPlugB.toList).take s.engPlugCnt.toNat

end Sys2Proof.Machine
end

