-- ==== Sys2Proof/Machine/Affine.lean ====
section
/-! DEFINITION. The Affine operations (42_affine.md). -/

namespace Sys2Proof.Machine

/-- The twelve valid multipliers, in the order of ROM AFF_VALID_A (10_state.md R39). -/
def validMultipliers : List Nat := [1, 3, 5, 7, 9, 11, 15, 17, 19, 21, 23, 25]

/-- `affValidate(a, b)` passes: set membership of a, and b at most 25 (42_affine.md R141). -/
def affKeyValid (a b : Word) : Bool := validMultipliers.contains a.toNat && b.toNat ≤ 25

/-- The trace record of AFF.ENC and AFF.DEC (42_affine.md R144): index, input, multiplier used, offset, result, key
multiplier. -/
def affRecord (i : Nat) (t : Sym) (used : Nat) (b : Word) (y : Sym) (a : Word) : Record :=
  record [word i, word t.val, word used, b, word y.val, a]

/-- `mod(a · T[i] + b, 26)` (42_affine.md R143). -/
def affEncLetter (a b : Nat) (t : Sym) : Sym := mod26 (a * t.val + b)

/-- `mod(aInv · (T[i] − b), 26)` (42_affine.md R145). -/
def affDecLetter (aInv b : Nat) (t : Sym) : Sym := mod26 (aInv * (t.val - b))

/-- An empty cleaned text is an error unless the parameter says otherwise (42_affine.md R142; 60_exceptions.md
R276). -/
def State.emptyTextRaises (s : State) (text : List Sym) : Bool := text.isEmpty && s.params.emptyTextIsError

/-- The body of AFF.ENC (42_affine.md R143). -/
def affEncBody (s : State) : Except ErrorCode Result :=
  if affKeyValid s.affA s.affB then
    if s.emptyTextRaises s.cleanText then .error .emptyInput
    else
      let y := affEncLetter s.affA.toNat s.affB.toNat
      .ok { out := s.cleanText.map y
            trace := s.cleanText.mapIdx fun i t => affRecord i t s.affA.toNat s.affB (y t) s.affA
            affAinv := none, hillInv := none, pfMat := none }
  else .error .invalidKey

/-- The body of AFF.DEC (42_affine.md R145). -/
def affDecBody (s : State) : Except ErrorCode Result :=
  if affKeyValid s.affA s.affB then
    match modInv s.affA.toNat with
    | none => .error .noInverse
    | some aInv =>
      if s.emptyTextRaises s.cleanText then .error .emptyInput
      else
        let y := affDecLetter aInv s.affB.toNat
        .ok { out := s.cleanText.map y
              trace := s.cleanText.mapIdx fun i t => affRecord i t aInv s.affB (y t) s.affA
              affAinv := some (word aInv), hillInv := none, pfMat := none }
  else .error .invalidKey

/-- The body of AFF.INV (42_affine.md R146). -/
def affInvBody (s : State) : Except ErrorCode Result :=
  match modInv s.affA.toNat with
  | none => .error .noInverse
  | some v => .ok { out := [], trace := [], affAinv := some (word v), hillInv := none, pfMat := none }

/-- AFF.ENC (42_affine.md R143). -/
def execAffEnc (s : State) : Host.Outcome State Fault Refusal := .next (runOperation affEncBody s)

/-- AFF.DEC (42_affine.md R145). -/
def execAffDec (s : State) : Host.Outcome State Fault Refusal := .next (runOperation affDecBody s)

/-- AFF.INV (42_affine.md R146). -/
def execAffInv (s : State) : Host.Outcome State Fault Refusal := .next (runOperation affInvBody s)

end Sys2Proof.Machine
end

