-- ==== Sys2Proof/Machine/Control.lean ====
section
/-! DEFINITION. The control operations NOP and CLR (46_control_ops.md). -/

namespace Sys2Proof.Machine

/-- NOP (46_control_ops.md R261): `x[CMD] <- 0` and nothing else. CMD has been written when the command is
dispatched (R260; log entry 7), so nothing remains to be done. -/
def execNop (s : State) : Host.Outcome State Fault Refusal := .next s

/-- CLR (46_control_ops.md R262). -/
def execClr (s : State) : Host.Outcome State Fault Refusal := .next s.clearOutputs

end Sys2Proof.Machine
end

