-- ==== Sys2Proof/Machine/Enigma.lean ====
section
/-! DEFINITION. The Enigma operation: configuration checks, stepping, signal path (45_enigma_rotor_path.md). -/

namespace Sys2Proof.Machine

/-- RotorState: the positions of the left, middle and right rotor (10_state.md R45). -/
structure Positions where
  left : Sym
  middle : Sym
  right : Sym
deriving DecidableEq, Repr

/-- The plugboard map: entry x is the symbol that x is plugged to, or x itself (45_enigma_rotor_path.md R226). -/
abbrev Plugboard := Vector Sym 26

/-- A validated EnigmaConfig (45_enigma_rotor_path.md R221): the wirings of the three slots, the notches of the
middle and the right rotor, the rings, the reflector wiring, the plugboard map, the start positions. -/
structure EnigmaConfig where
  wiringL : Wiring
  wiringM : Wiring
  wiringR : Wiring
  notchM : Sym
  notchR : Sym
  ringL : Sym
  ringM : Sym
  ringR : Sym
  reflector : Wiring
  plug : Plugboard
  start : Positions
deriving DecidableEq, Repr

/-- The identity map on 0..25. -/
def noPlugs : Plugboard := Vector.ofFn id

/-- The loop of `enigPlug()`: pair by pair, with the letters used so far (45_enigma_rotor_path.md R226). -/
def plugLoop : List (Word × Word) → List Nat → Plugboard → Except ErrorCode Plugboard
  | [], _, plug => .ok plug
  | (a, b) :: pairs, used, plug =>
    if 25 < a.toNat ∨ 25 < b.toNat then .error .invalidPlugboard
    else if a = b then .error .invalidPlugboard
    else if a.toNat ∈ used ∨ b.toNat ∈ used then .error .invalidPlugboard
    else plugLoop pairs (a.toNat :: b.toNat :: used)
      ((plug.setIfInBounds a.toNat (mod26 b.toNat)).setIfInBounds b.toNat (mod26 a.toNat))

/-- `enigPlug()` (45_enigma_rotor_path.md R226). -/
def enigPlug (s : State) : Except ErrorCode Plugboard :=
  if 13 < s.engPlugCnt.toNat then .error .invalidPlugboard else plugLoop s.plugPairs [] noPlugs

/-- The first failing test of `enigValidateScalars()`, if any (45_enigma_rotor_path.md R225). -/
def enigScalarError (s : State) : Option ErrorCode :=
  if s.engRotor.toList.any (fun r => ¬ (1 ≤ r.toNat ∧ r.toNat ≤ 5)) then some .invalidSelection
  else if ¬ (1 ≤ s.engRefl.toNat ∧ s.engRefl.toNat ≤ 2) then some .invalidSelection
  else if s.engPos.toList.any (fun p => 25 < p.toNat) then some .invalidPosition
  else if s.engRing.toList.any (fun g => 25 < g.toNat) then some .invalidRing
  else none

/-- The rotor of an identifier 1..5 as an index of the catalog. -/
def rotorIndex (id : Word) : Fin 5 := ⟨(id.toNat - 1) % 5, by omega⟩

/-- The reflector of an identifier 1..2 as an index of the catalog. -/
def reflIndex (id : Word) : Fin 2 := ⟨(id.toNat - 1) % 2, by omega⟩

/-- The configuration that the ENG_ registers describe, once they are validated (45_enigma_rotor_path.md R220,
R231, R232). -/
def enigConfig (s : State) (plug : Plugboard) : EnigmaConfig where
  wiringL := s.params.catalog.rotorWiring[rotorIndex s.engRotor[0]]
  wiringM := s.params.catalog.rotorWiring[rotorIndex s.engRotor[1]]
  wiringR := s.params.catalog.rotorWiring[rotorIndex s.engRotor[2]]
  notchM := s.params.catalog.rotorNotch[rotorIndex s.engRotor[1]]
  notchR := s.params.catalog.rotorNotch[rotorIndex s.engRotor[2]]
  ringL := mod26 s.engRing[0].toNat
  ringM := mod26 s.engRing[1].toNat
  ringR := mod26 s.engRing[2].toNat
  reflector := s.params.catalog.reflWiring[reflIndex s.engRefl]
  plug := plug
  start := ⟨mod26 s.engPos[0].toNat, mod26 s.engPos[1].toNat, mod26 s.engPos[2].toNat⟩

/-- The ring-adjusted notch test `position = mod(notch − ring, 26)` (45_enigma_rotor_path.md R228, R237). -/
def atNotch (notch ring pos : Sym) : Bool := pos = mod26 (notch.val - ring.val)

/-- One rotor advanced: +1 mod 26. -/
def advance (pos : Sym) : Sym := mod26 (pos.val + 1)

/-- `enigStep(L, M, R)`: stepping, both tests made before any rotor moves (45_enigma_rotor_path.md R228). -/
def enigStep (c : EnigmaConfig) (p : Positions) : Positions :=
  let midAtNotch := atNotch c.notchM c.ringM p.middle
  let rightAtNotch := atNotch c.notchR c.ringR p.right
  { left := if midAtNotch then advance p.left else p.left
    middle := if rightAtNotch || midAtNotch then advance p.middle else p.middle
    right := advance p.right }

/-- `enigFwd(wiring, pos, ring, n)` (45_enigma_rotor_path.md R229). -/
def enigFwd (w : Wiring) (pos ring n : Sym) : Sym :=
  mod26 (w[mod26 (n.val + pos.val - ring.val)].val - pos.val + ring.val)

/-- `enigBwd(wiring, pos, ring, n)` (45_enigma_rotor_path.md R230). -/
def enigBwd (w : Wiring) (pos ring n : Sym) : Sym :=
  let j := w.toList.idxOf (mod26 (n.val + pos.val - ring.val))
  mod26 (j - pos.val + ring.val)

/-- `enigPath(x, L, M, R)`: plugboard, three rotors forward, reflector, three rotors back, plugboard
(45_enigma_rotor_path.md R231). -/
def enigPath (c : EnigmaConfig) (p : Positions) (x : Sym) : Sym :=
  let n := c.plug[x]
  let n := enigFwd c.wiringR p.right c.ringR n
  let n := enigFwd c.wiringM p.middle c.ringM n
  let n := enigFwd c.wiringL p.left c.ringL n
  let n := c.reflector[n]
  let n := enigBwd c.wiringL p.left c.ringL n
  let n := enigBwd c.wiringM p.middle c.ringM n
  let n := enigBwd c.wiringR p.right c.ringR n
  c.plug[n]

/-- One letter's work: input symbol, stepped positions, output symbol. -/
structure EnigmaStep where
  input : Sym
  positions : Positions
  output : Sym
deriving DecidableEq, Repr

/-- The letters one after another, the RotorState threaded through them (45_enigma_rotor_path.md R232). -/
def enigLetters (c : EnigmaConfig) : Positions → List Sym → List EnigmaStep
  | _, [] => []
  | p, x :: xs =>
    let q := enigStep c p
    { input := x, positions := q, output := enigPath c q x } :: enigLetters c q xs

/-- The trace record of ENIG.RUN (45_enigma_rotor_path.md R233). -/
def enigRecord (s : State) (i : Nat) (e : EnigmaStep) : Record :=
  record [word i, word e.input.val, word e.positions.left.val, word e.positions.middle.val,
    word e.positions.right.val, s.engRing[0], s.engRing[1], s.engRing[2], s.engRefl, word e.output.val,
    s.engRotor[0], s.engRotor[1], s.engRotor[2]]

/-- The body of ENIG.RUN, in the order of checks of 45_enigma_rotor_path.md R224 (R232). -/
def enigBody (s : State) : Except ErrorCode Result :=
  match enigScalarError s with
  | some e => .error e
  | none =>
    match enigPlug s with
    | .error e => .error e
    | .ok plug =>
      if s.cleanText.isEmpty && s.params.emptyTextIsError then .error .emptyInput
      else
        let c := enigConfig s plug
        let steps := enigLetters c c.start s.cleanText
        .ok { out := steps.map EnigmaStep.output, trace := steps.mapIdx (enigRecord s)
              affAinv := none, hillInv := none, pfMat := none }

/-- ENIG.RUN (45_enigma_rotor_path.md R232). -/
def execEnigRun (s : State) : Host.Outcome State Fault Refusal := .next (runOperation enigBody s)

end Sys2Proof.Machine
end

