-- ==== Sys2Proof/Machine/Hill.lean ====
section
/-! DEFINITION. The Hill operations and the mod-26 matrix inverse engine (44_hill_matrix_inverse.md). -/

namespace Sys2Proof.Machine

/-- A matrix of symbols as a list of rows. -/
abbrev SymMatrix := List (List Sym)

/-- Element (r, c) of a matrix. -/
def entry (m : SymMatrix) (r c : Nat) : Sym := (m.getD r []).getD c 0

/-- `hillValidate()` passes: n is 2, 3, 4 or 5, and every element of the n×n corner is at most 25
(44_hill_matrix_inverse.md R191). -/
def State.hillKeyValid (s : State) : Bool :=
  let n := s.hillN.toNat
  [2, 3, 4, 5].contains n &&
    (List.range n).all fun r => (List.range n).all fun c => (s.hillEntry r c).toNat ≤ 25

/-- The n×n key matrix (44_hill_matrix_inverse.md R190). -/
def State.hillKey (s : State) : SymMatrix :=
  let n := s.hillN.toNat
  (List.range n).map fun r => (List.range n).map fun c => mod26 (s.hillEntry r c).toNat

/-- The n×2n augmented matrix [M | I] (44_hill_matrix_inverse.md R192). -/
def hillAugment (n : Nat) (m : SymMatrix) : SymMatrix :=
  (List.range n).map fun r =>
    ((List.range n).map fun c => entry m r c) ++ (List.range n).map fun c => if r = c then 1 else 0

/-- The first row r in col .. n−1 with a unit in column col (44_hill_matrix_inverse.md R192). -/
def hillPivot (n : Nat) (a : SymMatrix) (col : Nat) : Option Nat :=
  (List.range' col (n - col)).find? fun r => isUnit (entry a r col).val

/-- Rows i and j swapped (44_hill_matrix_inverse.md R192). -/
def swapRows (a : SymMatrix) (i j : Nat) : SymMatrix :=
  (a.set i (a.getD j [])).set j (a.getD i [])

/-- A row scaled by s: `mod(s · A[col][k], 26)` for every k (44_hill_matrix_inverse.md R192). -/
def scaleRow (s : Nat) (row : List Sym) : List Sym := row.map fun x => mod26 (s * x.val)

/-- A row less f times the pivot row: `mod(A[r][k] − f · A[col][k], 26)` for every k
(44_hill_matrix_inverse.md R192). -/
def eliminateRow (f : Sym) (pivotRow row : List Sym) : List Sym :=
  List.zipWith (fun x p => mod26 (x.val - f.val * p.val)) row pivotRow

/-- The work of one pivot column: pivot search, swap, scaling, elimination from every other row
(44_hill_matrix_inverse.md R192). -/
def hillColumn (n : Nat) (a : SymMatrix) (col : Nat) : Option SymMatrix :=
  match hillPivot n a col with
  | none => none
  | some p =>
    let b := swapRows a col p
    match modInv (entry b col col).val with
    | none => none
    | some s =>
      let pivotRow := scaleRow s (b.getD col [])
      some (b.mapIdx fun r row =>
        if r = col then pivotRow else eliminateRow (entry b r col) pivotRow row)

/-- The columns one after another, until one of them has no unit pivot. -/
def hillEliminate (n : Nat) : SymMatrix → List Nat → Option SymMatrix
  | a, [] => some a
  | a, col :: cols =>
    match hillColumn n a col with
    | none => none
    | some b => hillEliminate n b cols

/-- `hillInverse(M, n)`: Gauss-Jordan elimination over Z/26Z; `none` is SingularMatrix
(44_hill_matrix_inverse.md R192). -/
def hillInverse (n : Nat) (m : SymMatrix) : Option SymMatrix :=
  (hillEliminate n (hillAugment n m) (List.range n)).map fun a => a.map (List.drop n)

/-- `hillPad(T, n)`: X appended up to a multiple of n (44_hill_matrix_inverse.md R195). -/
def hillPad (n : Nat) (text : List Sym) : List Sym :=
  text ++ List.replicate ((n - text.length % n) % n) symX

/-- `hillBlock(W, n, v)`: the matrix-vector product mod 26 (44_hill_matrix_inverse.md R196). -/
def hillBlock (w : SymMatrix) (n : Nat) (v : List Sym) : List Sym :=
  (List.range n).map fun i =>
    mod26 (((List.range n).map fun j => ((entry w i j).val * (v.getD j 0).val : Int)).sum)

/-- The n-letter blocks of a padded text: block k is `T[n·k .. n·k+n)`. -/
def hillBlocks (n : Nat) (text : List Sym) : List (List Sym) :=
  (List.range (text.length / n)).map fun k => (text.drop (n * k)).take n

/-- The trace record of a block; `used` is 0 for the key matrix and 1 for the inverse
(44_hill_matrix_inverse.md R200). -/
def hillRecord (k n : Nat) (v w : List Sym) (used : Word) : Record :=
  let pad5 := fun (l : List Sym) => (List.range 5).map fun i => if i < n then word (l.getD i 0).val else 0
  record ([word k, word n] ++ pad5 v ++ pad5 w ++ [used])

/-- The inverse as the registers HILL_INV, 0 outside the n×n corner (10_state.md R32). -/
def hillInvWords (n : Nat) (inv : SymMatrix) : Vector Word 25 :=
  Vector.ofFn fun k => if k.val / 5 < n ∧ k.val % 5 < n then word (entry inv (k.val / 5) (k.val % 5)).val else 0

/-- The common body of HILL.ENC and HILL.DEC, in the order of checks of 44_hill_matrix_inverse.md R197. `used`
says which matrix multiplies: 0 the key matrix (R199), 1 its inverse (R201). -/
def hillBody (used : Word) (s : State) : Except ErrorCode Result :=
  let n := s.hillN.toNat
  if s.hillKeyValid then
    match hillInverse n s.hillKey with
    | none => .error .singularMatrix
    | some inv =>
      if s.cleanText.isEmpty && s.params.emptyTextIsError then .error .emptyInput
      else
        let w := if used = 0 then s.hillKey else inv
        let blocks := hillBlocks n (hillPad n s.cleanText)
        .ok { out := blocks.flatMap (hillBlock w n)
              trace := blocks.mapIdx fun k v => hillRecord k n v (hillBlock w n v) used
              affAinv := none, hillInv := some (hillInvWords n inv), pfMat := none }
  else .error .invalidKey

/-- The body of HILL.INV (44_hill_matrix_inverse.md R202). -/
def hillInvBody (s : State) : Except ErrorCode Result :=
  let n := s.hillN.toNat
  if s.hillKeyValid then
    match hillInverse n s.hillKey with
    | none => .error .singularMatrix
    | some inv => .ok { out := [], trace := [], affAinv := none, hillInv := some (hillInvWords n inv), pfMat := none }
  else .error .invalidKey

/-- HILL.ENC (44_hill_matrix_inverse.md R199). -/
def execHillEnc (s : State) : Host.Outcome State Fault Refusal := .next (runOperation (hillBody 0) s)

/-- HILL.DEC (44_hill_matrix_inverse.md R201). -/
def execHillDec (s : State) : Host.Outcome State Fault Refusal := .next (runOperation (hillBody 1) s)

/-- HILL.INV (44_hill_matrix_inverse.md R202). -/
def execHillInv (s : State) : Host.Outcome State Fault Refusal := .next (runOperation hillInvBody s)

end Sys2Proof.Machine
end

