-- ==== Sys2Proof/Machine/Playfair.lean ====
section
/-! DEFINITION. The Playfair operations (43_playfair.md). -/

namespace Sys2Proof.Machine

/-- J is read as I (43_playfair.md R161, R164). -/
def mergeJ (x : Sym) : Sym := if x = symJ then symI else x

/-- `pfPrep(text)`: the preprocessing of both directions (43_playfair.md R164, R173). -/
def pfPrep (cells : List Word) : List Sym := (clean cells).map mergeJ

/-- Appends a symbol that the sequence does not hold yet (43_playfair.md R161). -/
def appendNew (seq : List Sym) (x : Sym) : List Sym := if x ∈ seq then seq else seq ++ [x]

/-- `pfMatrix(keyword)` from the cleaned keyword (43_playfair.md R161). -/
def pfMatrix (key : List Sym) : List Sym :=
  (allSyms.filter (· ≠ symJ)).foldl appendNew ((key.map mergeJ).foldl appendNew [])

/-- `pfPos(seq, s)`: row and column of a symbol (43_playfair.md R162). -/
def pfPos (seq : List Sym) (x : Sym) : Nat × Nat := (seq.idxOf x / 5, seq.idxOf x % 5)

/-- `pfAt(seq, row, col)` (43_playfair.md R162). -/
def pfAt (seq : List Sym) (row col : Nat) : Sym := seq.getD (5 * row + col) 0

/-- `mod(x + d, 5)` for a row or column x and a direction d (43_playfair.md R166). -/
def shift5 (x : Nat) (d : Int) : Nat := (mod (x + d) 5).toNat

/-- `pfRule(seq, a, b, d)`: the two output symbols and the number of the rule applied (43_playfair.md R166). -/
def pfRule (seq : List Sym) (a b : Sym) (d : Int) : Sym × Sym × Nat :=
  let (ra, ca) := pfPos seq a
  let (rb, cb) := pfPos seq b
  if ra = rb then (pfAt seq ra (shift5 ca d), pfAt seq rb (shift5 cb d), 1)
  else if ca = cb then (pfAt seq (shift5 ra d) ca, pfAt seq (shift5 rb d) cb, 2)
  else (pfAt seq ra cb, pfAt seq rb ca, 3)

/-- `pfPairs(T)`: the digraphs of an encryption, with the filler X after the first of two equal letters and at an
odd end (43_playfair.md R165). -/
def pfPairs : List Sym → List (Sym × Sym)
  | [] => []
  | [a] => [(a, symX)]
  | a :: b :: rest => if b = a then (a, symX) :: pfPairs (b :: rest) else (a, b) :: pfPairs rest

/-- The digraphs of a decryption: (T[0], T[1]), (T[2], T[3]), ... (43_playfair.md R173). -/
def pfDigraphs : List Sym → List (Sym × Sym)
  | a :: b :: rest => (a, b) :: pfDigraphs rest
  | _ => []

/-- The trace record of a digraph (43_playfair.md R172). -/
def pfRecord (seq : List Sym) (d : Int) (k : Nat) (ab : Sym × Sym) : Record :=
  let (a2, b2, rule) := pfRule seq ab.1 ab.2 d
  let (ra, ca) := pfPos seq ab.1
  let (rb, cb) := pfPos seq ab.2
  record [word k, word ab.1.val, word ab.2.val, word rule, word a2.val, word b2.val,
    word ra, word ca, word rb, word cb]

/-- The output symbols of a list of digraphs, in order (43_playfair.md R171, R175). -/
def pfApply (seq : List Sym) (d : Int) (pairs : List (Sym × Sym)) : List Sym :=
  pairs.flatMap fun ab => let (a2, b2, _) := pfRule seq ab.1 ab.2 d; [a2, b2]

/-- The X at index i stands between two equal letters of the raw list (43_playfair.md R176). -/
def pfSandwiched (raw : List Sym) (i : Nat) : Bool :=
  raw[i]? = some symX ∧ 0 < i ∧ i + 1 < raw.length ∧ raw[i - 1]? = raw[i + 1]?

/-- Trims one trailing X (43_playfair.md R176). -/
def trimX (l : List Sym) : List Sym := if l.getLast? = some symX then l.dropLast else l

/-- `pfCleanup(R)`, the default PF_CLEANUP (43_playfair.md R176). -/
def pfCleanup (raw : List Sym) : List Sym :=
  trimX ((List.range raw.length).filterMap fun i => if pfSandwiched raw i then none else raw[i]?)

/-- PF_CLEANUP of an implementation: the default, or any other total function (00_scope.md R7; log entry 3). -/
def applyCleanup (c : Cleanup) (raw : List Sym) : List Sym :=
  match c with
  | .standard => pfCleanup raw
  | .custom id => Config.customCleanup id raw

/-- The letters of PF.DEC from its raw list: PF_CLEANUP of it, but for an empty text no letters, whatever PF_CLEANUP
makes of the empty list: "an empty text gives OUT_LEN = 0" (43_playfair.md R163, R175; 60_exceptions.md R276; log entry
19). -/
def pfDecLetters (c : Cleanup) (raw : List Sym) : List Sym := if raw.isEmpty then [] else applyCleanup c raw

/-- The matrix as the registers PF_MAT[0..24] (10_state.md R33). -/
def pfMatWords (seq : List Sym) : Vector Word 25 := Vector.ofFn fun k => word (seq.getD k.val 0).val

/-- The keyword test (43_playfair.md R163 (1)). -/
def State.emptyKeywordRaises (s : State) : Bool := s.cleanKey.isEmpty && s.params.pfEmptyKeyIsError

/-- The text test (43_playfair.md R163 (2)). -/
def State.emptyPrepRaises (s : State) : Bool := (pfPrep s.textCells).isEmpty && s.params.emptyTextIsError

/-- The body of PF.ENC (43_playfair.md R171). -/
def pfEncBody (s : State) : Except ErrorCode Result :=
  if s.emptyKeywordRaises then .error .emptyInput
  else if s.emptyPrepRaises then .error .emptyInput
  else
    let seq := pfMatrix s.cleanKey
    let pairs := pfPairs (pfPrep s.textCells)
    .ok { out := pfApply seq 1 pairs, trace := pairs.mapIdx (pfRecord seq 1)
          affAinv := none, hillInv := none, pfMat := some (pfMatWords seq) }

/-- The body of PF.DEC (43_playfair.md R175). -/
def pfDecBody (s : State) : Except ErrorCode Result :=
  if s.emptyKeywordRaises then .error .emptyInput
  else if s.emptyPrepRaises then .error .emptyInput
  else if (pfPrep s.textCells).length % 2 = 1 then .error .oddLength
  else
    let seq := pfMatrix s.cleanKey
    let pairs := pfDigraphs (pfPrep s.textCells)
    .ok { out := pfDecLetters s.params.cleanup (pfApply seq (-1) pairs), trace := pairs.mapIdx (pfRecord seq (-1))
          affAinv := none, hillInv := none, pfMat := some (pfMatWords seq) }

/-- The body of PF.MAT (43_playfair.md R177). -/
def pfMatBody (s : State) : Except ErrorCode Result :=
  if s.emptyKeywordRaises then .error .emptyInput
  else .ok { out := [], trace := [], affAinv := none, hillInv := none,
             pfMat := some (pfMatWords (pfMatrix s.cleanKey)) }

/-- PF.ENC (43_playfair.md R171). -/
def execPfEnc (s : State) : Host.Outcome State Fault Refusal := .next (runOperation pfEncBody s)

/-- PF.DEC (43_playfair.md R175). -/
def execPfDec (s : State) : Host.Outcome State Fault Refusal := .next (runOperation pfDecBody s)

/-- PF.MAT (43_playfair.md R177). -/
def execPfMat (s : State) : Host.Outcome State Fault Refusal := .next (runOperation pfMatBody s)

end Sys2Proof.Machine
end

