-- ==== Sys2Proof/Machine/Vigenere.lean ====
section
/-! DEFINITION. The Vigenère operations (41_vigenere.md). -/

namespace Sys2Proof.Machine

/-- One letter's work: index, input symbol, key position, key shift, result symbol. -/
structure VigStep where
  index : Nat
  input : Sym
  keyIndex : Nat
  shift : Sym
  output : Sym
deriving DecidableEq, Repr

/-- The trace record of VIG.ENC and VIG.DEC (41_vigenere.md R124). -/
def vigRecord (v : VigStep) : Record :=
  record [word v.index, word v.input.val, word v.keyIndex, word v.shift.val, word v.output.val]

/-- `mod(T[i] + K[j], 26)` (41_vigenere.md R123). -/
def vigEncLetter (t k : Sym) : Sym := mod26 (t.val + k.val)

/-- `mod(T[i] − K[j], 26)` (41_vigenere.md R125). -/
def vigDecLetter (t k : Sym) : Sym := mod26 (t.val - k.val)

/-- The letters of the cleaned text one after another, each with the key letter at `i rem len(K)`
(41_vigenere.md R123, R125). -/
def vigSteps (letter : Sym → Sym → Sym) (text key : List Sym) : List VigStep :=
  text.mapIdx fun i t =>
    let j := i % key.length
    let k := key.getD j 0
    { index := i, input := t, keyIndex := j, shift := k, output := letter t k }

/-- The common body of VIG.ENC and VIG.DEC (41_vigenere.md R121 to R125). -/
def vigBody (letter : Sym → Sym → Sym) (s : State) : Except ErrorCode Result :=
  if s.cleanText = [] ∨ s.cleanKey = [] then .error .emptyInput
  else
    let steps := vigSteps letter s.cleanText s.cleanKey
    .ok { out := steps.map VigStep.output, trace := steps.map vigRecord,
          affAinv := none, hillInv := none, pfMat := none }

/-- A tableau row: the alphabet shifted cyclically so that it starts at the key letter (41_vigenere.md R127). -/
def tableauRow (k : Sym) : List Sym := allSyms.map fun c => mod26 (c.val + k.val)

/-- The body of VIG.TAB (41_vigenere.md R127). -/
def vigTabBody (n : Nat) (s : State) : Except ErrorCode Result :=
  if s.cleanKey = [] then .error .emptyInput
  else
    let rows := min n s.cleanKey.length
    .ok { out := (s.cleanKey.take rows).flatMap tableauRow, trace := [],
          affAinv := none, hillInv := none, pfMat := none }

/-- VIG.ENC (41_vigenere.md R123). -/
def execVigEnc (s : State) : Host.Outcome State Fault Refusal := .next (runOperation (vigBody vigEncLetter) s)

/-- VIG.DEC (41_vigenere.md R125). -/
def execVigDec (s : State) : Host.Outcome State Fault Refusal := .next (runOperation (vigBody vigDecLetter) s)

/-- VIG.TAB (41_vigenere.md R127). -/
def execVigTab (n : Nat) (s : State) : Host.Outcome State Fault Refusal := .next (runOperation (vigTabBody n) s)

end Sys2Proof.Machine
end

