-- ==== Sys2Proof/Machine/Dispatch.lean ====
section
/-! DEFINITION. The meaning of every command: what the engine does once CMD holds the command word
(46_control_ops.md R260). -/

namespace Sys2Proof.Machine

def exec (i : Instr) (s : State) : Host.Outcome State Fault Refusal :=
  match i with
  | .nop => Sys2Proof.Machine.execNop s
  | .clr => Sys2Proof.Machine.execClr s
  | .vigEnc => Sys2Proof.Machine.execVigEnc s
  | .vigDec => Sys2Proof.Machine.execVigDec s
  | .vigTab n => Sys2Proof.Machine.execVigTab n s
  | .affEnc => Sys2Proof.Machine.execAffEnc s
  | .affDec => Sys2Proof.Machine.execAffDec s
  | .affInv => Sys2Proof.Machine.execAffInv s
  | .pfEnc => Sys2Proof.Machine.execPfEnc s
  | .pfDec => Sys2Proof.Machine.execPfDec s
  | .pfMat => Sys2Proof.Machine.execPfMat s
  | .hillEnc => Sys2Proof.Machine.execHillEnc s
  | .hillDec => Sys2Proof.Machine.execHillDec s
  | .hillInv => Sys2Proof.Machine.execHillInv s
  | .enigRun => Sys2Proof.Machine.execEnigRun s

end Sys2Proof.Machine
end

