-- ==== Sys2Proof/Machine/Locations.lean ====
section
/-! DEFINITION. The address map: which location a word address names, its access, how it is read and written
(10_state.md R20, 20_memory.md R62 to R64). -/

namespace Sys2Proof.Machine

/-- A location of the address map (10_state.md R20). The catalog's index 0 is identifier 1. -/
inductive Loc where
  | cmd | status | err | textLen | keyLen | outLen | traceCnt | affA | affB | affAinv | hillN
  | hillM (k : Fin 25) | hillInv (k : Fin 25) | pfMat (k : Fin 25)
  | engRotor (s : Fin 3) | engRefl | engPos (s : Fin 3) | engRing (s : Fin 3)
  | engPlugCnt | engPlugA (k : Fin 13) | engPlugB (k : Fin 13)
  | affValidA (j : Fin 12) | rotorWiring (id : Fin 5) (j : Sym) | rotorNotch (id : Fin 5)
  | reflWiring (id : Fin 2) (j : Sym) | reflName (id : Fin 2)
  | text (i : Nat) | key (i : Nat) | out (i : Nat) | trace (k : Nat) (f : Fin 16)
deriving DecidableEq, Repr

/-- Host access of a location (10_state.md R20). -/
inductive Access where
  | readWrite
  | readOnly
deriving DecidableEq, Repr

/-- The register region 0000-0099 (10_state.md R20, 20_memory.md R63). -/
def locateRegister (n : Nat) : Option Loc :=
  if n = 0x00 then some .cmd
  else if n = 0x01 then some .status
  else if n = 0x02 then some .err
  else if n = 0x03 then some .textLen
  else if n = 0x04 then some .keyLen
  else if n = 0x05 then some .outLen
  else if n = 0x06 then some .traceCnt
  else if n = 0x08 then some .affA
  else if n = 0x09 then some .affB
  else if n = 0x0A then some .affAinv
  else if n = 0x0C then some .hillN
  else if h : 0x10 ≤ n ∧ n < 0x29 then some (.hillM ⟨n - 0x10, by omega⟩)
  else if h : 0x30 ≤ n ∧ n < 0x49 then some (.hillInv ⟨n - 0x30, by omega⟩)
  else if h : 0x50 ≤ n ∧ n < 0x69 then some (.pfMat ⟨n - 0x50, by omega⟩)
  else if h : 0x70 ≤ n ∧ n < 0x73 then some (.engRotor ⟨n - 0x70, by omega⟩)
  else if n = 0x73 then some .engRefl
  else if h : 0x74 ≤ n ∧ n < 0x77 then some (.engPos ⟨n - 0x74, by omega⟩)
  else if h : 0x78 ≤ n ∧ n < 0x7B then some (.engRing ⟨n - 0x78, by omega⟩)
  else if n = 0x7B then some .engPlugCnt
  else if h : 0x80 ≤ n ∧ n < 0x9A then
    if n % 2 = 0 then some (.engPlugA ⟨(n - 0x80) / 2, by omega⟩)
    else some (.engPlugB ⟨(n - 0x80) / 2, by omega⟩)
  else none

/-- The ROM region 0800-08FF: groups of 32 words, of which 26 are a wiring and word 26 is a notch or a name; the
offsets 27..31 hold nothing and read 0 like an unmapped address (10_state.md R39, R40). -/
def locateRom (n : Nat) : Option Loc :=
  if h : 0x800 ≤ n ∧ n < 0x80C then some (.affValidA ⟨n - 0x800, by omega⟩)
  else if h : 0x820 ≤ n ∧ n < 0x8C0 then
    if hj : (n - 0x820) % 32 < 26 then
      some (.rotorWiring ⟨(n - 0x820) / 32, by omega⟩ ⟨(n - 0x820) % 32, hj⟩)
    else if (n - 0x820) % 32 = 26 then some (.rotorNotch ⟨(n - 0x820) / 32, by omega⟩)
    else none
  else if h : 0x8C0 ≤ n ∧ n < 0x900 then
    if hj : (n - 0x8C0) % 32 < 26 then
      some (.reflWiring ⟨(n - 0x8C0) / 32, by omega⟩ ⟨(n - 0x8C0) % 32, hj⟩)
    else if (n - 0x8C0) % 32 = 26 then some (.reflName ⟨(n - 0x8C0) / 32, by omega⟩)
    else none
  else none

/-- The buffer regions, whose sizes the parameters give (20_memory.md R63). -/
def locateBuffer (p : Params) (n : Nat) : Option Loc :=
  if textBase ≤ n ∧ n < textBase + p.textMax then some (.text (n - textBase))
  else if keyBase ≤ n ∧ n < keyBase + p.keyMax then some (.key (n - keyBase))
  else if outBase ≤ n ∧ n < outBase + outMax p then some (.out (n - outBase))
  else if traceBase ≤ n ∧ n < traceBase + 16 * traceMax p then
    some (.trace ((n - traceBase) / 16) ⟨(n - traceBase) % 16, Nat.mod_lt _ (by decide)⟩)
  else none

/-- The location a word address names; `none` is an unmapped address (20_memory.md R63). -/
def locate (p : Params) (a : Addr) : Option Loc :=
  if a.toNat < 0x100 then locateRegister a.toNat
  else if a.toNat < 0x1000 then locateRom a.toNat
  else locateBuffer p a.toNat

/-- The word address of a location (10_state.md R20). -/
def Loc.addr : Loc → Nat
  | .cmd => 0x00 | .status => 0x01 | .err => 0x02 | .textLen => 0x03 | .keyLen => 0x04 | .outLen => 0x05
  | .traceCnt => 0x06 | .affA => 0x08 | .affB => 0x09 | .affAinv => 0x0A | .hillN => 0x0C
  | .hillM k => 0x10 + k | .hillInv k => 0x30 + k | .pfMat k => 0x50 + k
  | .engRotor s => 0x70 + s | .engRefl => 0x73 | .engPos s => 0x74 + s | .engRing s => 0x78 + s
  | .engPlugCnt => 0x7B | .engPlugA k => 0x80 + 2 * k | .engPlugB k => 0x81 + 2 * k
  | .affValidA j => 0x800 + j | .rotorWiring id j => 0x820 + 32 * id + j | .rotorNotch id => 0x820 + 32 * id + 26
  | .reflWiring id j => 0x8C0 + 32 * id + j | .reflName id => 0x8C0 + 32 * id + 26
  | .text i => textBase + i | .key i => keyBase + i | .out i => outBase + i
  | .trace k f => traceBase + 16 * k + f

/-- The location exists for these parameters: a buffer index is below the buffer's capacity (00_scope.md R7). -/
def Loc.inRange (p : Params) : Loc → Bool
  | .text i => i < p.textMax
  | .key i => i < p.keyMax
  | .out i => i < outMax p
  | .trace k _ => k < traceMax p
  | .cmd | .status | .err | .textLen | .keyLen | .outLen | .traceCnt | .affA | .affB | .affAinv | .hillN
  | .hillM _ | .hillInv _ | .pfMat _ | .engRotor _ | .engRefl | .engPos _ | .engRing _ | .engPlugCnt
  | .engPlugA _ | .engPlugB _ | .affValidA _ | .rotorWiring _ _ | .rotorNotch _ | .reflWiring _ _
  | .reflName _ => true

/-- The access column of 10_state.md R20. -/
def Loc.access : Loc → Access
  | .cmd | .textLen | .keyLen | .affA | .affB | .hillN | .hillM _ | .engRotor _ | .engRefl | .engPos _
  | .engRing _ | .engPlugCnt | .engPlugA _ | .engPlugB _ | .text _ | .key _ => .readWrite
  | .status | .err | .outLen | .traceCnt | .affAinv | .hillInv _ | .pfMat _ | .affValidA _ | .rotorWiring _ _
  | .rotorNotch _ | .reflWiring _ _ | .reflName _ | .out _ | .trace _ _ => .readOnly

/-- What a location holds (10_state.md R21 to R40). -/
def State.readLoc (s : State) : Loc → Word
  | .cmd => s.cmd
  | .status => s.status
  | .err => s.err
  | .textLen => s.textLen
  | .keyLen => s.keyLen
  | .outLen => s.outLen
  | .traceCnt => s.traceCnt
  | .affA => s.affA
  | .affB => s.affB
  | .affAinv => s.affAinv
  | .hillN => s.hillN
  | .hillM k => s.hillM[k]
  | .hillInv k => s.hillInv[k]
  | .pfMat k => s.pfMat[k]
  | .engRotor i => s.engRotor[i]
  | .engRefl => s.engRefl
  | .engPos i => s.engPos[i]
  | .engRing i => s.engRing[i]
  | .engPlugCnt => s.engPlugCnt
  | .engPlugA k => s.engPlugA[k]
  | .engPlugB k => s.engPlugB[k]
  | .affValidA j => word (validMultipliers.getD j.val 0)
  | .rotorWiring id j => word (s.params.catalog.rotorWiring[id])[j].val
  | .rotorNotch id => word s.params.catalog.rotorNotch[id].val
  | .reflWiring id j => word (s.params.catalog.reflWiring[id])[j].val
  | .reflName id => word (0x42 + id.val)
  | .text i => s.cell (textBase + i)
  | .key i => s.cell (keyBase + i)
  | .out i => s.cell (outBase + i)
  | .trace k f => s.cell (traceBase + 16 * k + f.val)

/-- A host write of a word to a location: a read-write location takes the word (TEXT_LEN and KEY_LEN the clamped
one, 10_state.md R24, R25), a read-only one keeps what it holds (20_memory.md R62, R64). For CMD this is only the
storing of the word; the operation it starts is `runCommand` (Machine/Port.lean). -/
def State.writeLoc (s : State) (l : Loc) (w : Word) : State :=
  match l with
  | .cmd => s.storeCmd w
  | .textLen => { s with textLen := word (min w.toNat s.params.textMax) }
  | .keyLen => { s with keyLen := word (min w.toNat s.params.keyMax) }
  | .affA => { s with affA := w }
  | .affB => { s with affB := w }
  | .hillN => { s with hillN := w }
  | .hillM k => { s with hillM := s.hillM.set k w }
  | .engRotor i => { s with engRotor := s.engRotor.set i w }
  | .engRefl => { s with engRefl := w }
  | .engPos i => { s with engPos := s.engPos.set i w }
  | .engRing i => { s with engRing := s.engRing.set i w }
  | .engPlugCnt => { s with engPlugCnt := w }
  | .engPlugA k => { s with engPlugA := s.engPlugA.set k w }
  | .engPlugB k => { s with engPlugB := s.engPlugB.set k w }
  | .text i => { s with mem := s.mem.write (textBase + i) w }
  | .key i => { s with mem := s.mem.write (keyBase + i) w }
  | .status | .err | .outLen | .traceCnt | .affAinv | .hillInv _ | .pfMat _ | .affValidA _ | .rotorWiring _ _
  | .rotorNotch _ | .reflWiring _ _ | .reflName _ | .out _ | .trace _ _ => s

/-- A single host read: the location's word, 0 at an unmapped address (20_memory.md R61, R64). -/
def State.hostRead (s : State) (a : Addr) : Word :=
  match locate s.params a with
  | some l => s.readLoc l
  | none => 0

/-- A single host write to a location other than CMD, or the storing part of one to CMD; at an unmapped address
nothing changes (20_memory.md R62, R64). -/
def State.hostStore (s : State) (a : Addr) (w : Word) : State :=
  match locate s.params a with
  | some l => s.writeLoc l w
  | none => s

/-- `MemRead(addr, n)`: n single reads in ascending address order, addresses mod 2^16 (20_memory.md R61). -/
def State.memRead (s : State) (a : Addr) (n : Nat) : List Word :=
  (List.range n).map fun k => s.hostRead (a + BitVec.ofNat 16 k)

/-- `MemRead(addr, n)` as port events (20_memory.md R61). -/
def memReadEvents (a : Addr) (n : Nat) : List PortEvent :=
  (List.range n).map fun k => .read (a + BitVec.ofNat 16 k)

/-- `MemWrite(addr, n, v)` as port events: n single writes in ascending address order (20_memory.md R62). -/
def memWriteEvents (a : Addr) (v : List Word) : List PortEvent :=
  v.mapIdx fun k w => .write (a + BitVec.ofNat 16 k) w

end Sys2Proof.Machine
end

