-- ==== Sys2Proof/Machine/Port.lean ====
section
/-! DEFINITION. The host port: one read, one write (at CMD with the whole operation it starts), one reset. -/

namespace Sys2Proof.Machine

/-- The address of CMD (10_state.md R20). -/
def cmdAddr : Addr := 0x0000

/-- What a host write of `w` to CMD does, as one atomic step (46_control_ops.md R260, 20_memory.md R66): CMD takes
`w`, then the operation that `w` encodes runs, or the body of R263 where `w` is illegal (30_encoding.md R84). -/
def runCommand (w : Word) (s : State) : Host.Outcome State Fault Refusal :=
  match decode w with
  | .ok i => exec i (s.storeCmd w)
  | .error _ => .next (illegalCommand (s.storeCmd w))

/-- One event at the port. A read has no effect but the word the host receives (20_memory.md R61, R68); a write
acts as 20_memory.md R62 says; a reset as 70_reset_and_hazards.md R300 says. -/
def portEvent (e : PortEvent) (s : State) : Host.Outcome State Fault Refusal :=
  match e with
  | .read a => .next { s with replies := s.replies ++ [s.hostRead a] }
  | .write a w => if a = cmdAddr then runCommand w s else .next (s.hostStore a w)
  | .reset => .next s.resetDevice

end Sys2Proof.Machine
end

