-- ==== Sys2Proof/Machine/Step.lean ====
section
/-! DEFINITION. One step of the machine: the next event at the host port (20_memory.md R60, R66, R69). -/

namespace Sys2Proof.Machine

/-- The host's accesses "take effect one at a time in the order the host issues them" (20_memory.md R69), and the
engine "acts only in response to a host write to CMD" (R60). Where the host has nothing pending, "the block is idle
and holds its state" (60_exceptions.md R295). -/
def step (s : State) : Host.Outcome State Fault Refusal :=
  match s.pending with
  | [] => .next s
  | e :: rest => portEvent e { s with pending := rest }

/-- The host's next access is the write of the command word `w` (its low `nbits` bits) to CMD, so that the next step
dispatches exactly it (10_state.md R46: there is no fetch; log entry 4). -/
def State.withFetchWord (s : State) (nbits w : Nat) : State :=
  { s with pending := .write cmdAddr (word (w % 2 ^ nbits)) :: s.pending }

end Sys2Proof.Machine
end

