-- ==== Sys2Proof/Machine/Script.lean ====
section
/-! DEFINITION. The host script notation as lists of port events: the lines of 30_encoding.md R87 and the
pseudo-instructions of R88 that are accesses (log entry 14). -/

namespace Sys2Proof.Machine

/-- `WR <loc>, <value>` (30_encoding.md R87). -/
def scriptWr (l : Loc) (v : Word) : PortEvent := .write (BitVec.ofNat 16 l.addr) v

/-- `RD <loc>` (30_encoding.md R87). -/
def scriptRd (l : Loc) : PortEvent := .read (BitVec.ofNat 16 l.addr)

/-- `CMD <mnemonic>` and `CMD VIG.TAB, <N>` (30_encoding.md R87). -/
def scriptCmd (i : Instr) : PortEvent := scriptWr .cmd (encode i)

/-- The character codes of a quoted string, one per cell (40_alphabet_utilities.md R100). -/
def charCodes (cs : List Char) : List Word := cs.map fun c => word c.toNat

/-- `TEXT "c0c1...c(m−1)"` (30_encoding.md R88). -/
def scriptText (cs : List Char) : List PortEvent :=
  (charCodes cs).mapIdx (fun i w => scriptWr (.text i) w) ++ [scriptWr .textLen (word cs.length)]

/-- `KEY "c0...c(m−1)"` (30_encoding.md R88). -/
def scriptKey (cs : List Char) : List PortEvent :=
  (charCodes cs).mapIdx (fun i w => scriptWr (.key i) w) ++ [scriptWr .keyLen (word cs.length)]

/-- `AFFKEY a, b` (30_encoding.md R88). -/
def scriptAffKey (a b : Word) : List PortEvent := [scriptWr .affA a, scriptWr .affB b]

/-- `HILLKEY n, [[m00, ...], ...]`: HILL_N, then the n×n elements in row-major order (30_encoding.md R88). -/
def scriptHillKey (n : Fin 6) (m : List (List Nat)) : List PortEvent :=
  scriptWr .hillN (word n.val) ::
    (List.finRange 5).flatMap fun r => (List.finRange 5).filterMap fun c =>
      if r.val < n.val ∧ c.val < n.val then
        some (scriptWr (.hillM ⟨5 * r.val + c.val, by omega⟩) (word ((m.getD r.val []).getD c.val 0)))
      else none

/-- `ROTORS l, m, r` with I..V written as 1..5 (30_encoding.md R88). -/
def scriptRotors (l m r : Nat) : List PortEvent :=
  [scriptWr (.engRotor 0) (word l), scriptWr (.engRotor 1) (word m), scriptWr (.engRotor 2) (word r)]

/-- `REFL B` and `REFL C`, as 1 and 2 (30_encoding.md R88). -/
def scriptRefl (id : Nat) : List PortEvent := [scriptWr .engRefl (word id)]

/-- `POS X, Y, Z` with letters as their indices (30_encoding.md R88). -/
def scriptPos (x y z : Sym) : List PortEvent :=
  [scriptWr (.engPos 0) (word x.val), scriptWr (.engPos 1) (word y.val), scriptWr (.engPos 2) (word z.val)]

/-- `RINGS X, Y, Z` (30_encoding.md R88). -/
def scriptRings (x y z : Sym) : List PortEvent :=
  [scriptWr (.engRing 0) (word x.val), scriptWr (.engRing 1) (word y.val), scriptWr (.engRing 2) (word z.val)]

/-- `PLUGS XY, ..., UV`: the pairs, then their count (30_encoding.md R88). Of more than 13 pairs only the first 13
have registers. -/
def scriptPlugs (pairs : List (Sym × Sym)) : List PortEvent :=
  ((List.finRange 13).zip pairs).flatMap (fun kp =>
    [scriptWr (.engPlugA kp.1) (word kp.2.1.val), scriptWr (.engPlugB kp.1) (word kp.2.2.val)]) ++
  [scriptWr .engPlugCnt (word pairs.length)]

/-- The check `RESULT "s"`: OUT_LEN, every OUT cell, and ERR = 0 (30_encoding.md R88). -/
def checkResult (s : State) (cs : List Char) : Bool :=
  s.readLoc .outLen = word cs.length &&
    ((charCodes cs).mapIdx fun i w => decide (s.readLoc (.out i) = w)).all id && s.readLoc .err = 0

/-- The check `FAILS <ErrorName>` (30_encoding.md R88). -/
def checkFails (s : State) (e : ErrorCode) : Bool :=
  s.readLoc .err = errorWord e && s.readLoc .outLen = 0 && s.readLoc .traceCnt = 0

end Sys2Proof.Machine
end

