-- ==== Sys2Proof/Safety.lean ====
section
/-! DEFINITION. What a good state of the machine is, what a run of it is, and what it means that an operation
leaves something unchanged. -/

namespace Sys2Proof.Machine

/-- STATUS is consistent (10_state.md R22): DONE is any bit, ERRF says exactly whether ERR is not 0, the other bits
are 0, and an error is only there once a command has completed. -/
abbrev State.statusOk (s : State) : Prop :=
  s.status = statusWord s.done (errFlag s.err) ∧ (s.err ≠ 0 → s.done = true)

/-- ERR holds a code of the list (60_exceptions.md R270), and an error leaves no result (10_state.md R26, R27). -/
abbrev State.errOk (s : State) : Prop :=
  s.err.toNat ≤ 10 ∧ (s.err ≠ 0 → s.outLen = 0 ∧ s.traceCnt = 0)

/-- No length exceeds its buffer (10_state.md R24, R25, R37, R38). For OUT_LEN this is said of the default PF_CLEANUP
only: another one may give any number of letters (00_scope.md R7; log entry 18). -/
abbrev State.lengthsOk (s : State) : Prop :=
  s.textLen.toNat ≤ s.params.textMax ∧ s.keyLen.toNat ≤ s.params.keyMax ∧
  (s.params.cleanup = .standard → s.outLen.toNat ≤ outMax s.params) ∧ s.traceCnt.toNat ≤ traceMax s.params

/-- The output registers hold their reset value or what an operation leaves in them: AFF_AINV an inverse (10_state.md
R29), HILL_INV elements in [0,25] (R32), PF_MAT 25 distinct symbols other than J (R33). -/
abbrev State.outputsOk (s : State) : Prop :=
  (s.affAinv = 0 ∨ s.affAinv.toNat ∈ validMultipliers) ∧
  (∀ k : Fin 25, s.hillInv[k].toNat ≤ 25) ∧
  (s.pfMat = Vector.replicate 25 0 ∨
    (s.pfMat.toList.Nodup ∧ ∀ k : Fin 25, s.pfMat[k].toNat ≤ 25 ∧ s.pfMat[k].toNat ≠ 9))

/-- The memory has its canonical form and lists buffer cells only (10_state.md R37, R38; 20_memory.md R63). -/
abbrev State.memOk (s : State) : Prop :=
  s.mem.wf ∧ ∀ c ∈ s.mem, (locateBuffer s.params c.1).isSome = true

/-- A good state: the parameters keep their constraints and everything the device holds is what its rules allow. -/
abbrev State.Inv (s : State) : Prop :=
  paramsWf s.params ∧ s.statusOk ∧ s.errOk ∧ s.lengthsOk ∧ s.outputsOk ∧ s.memOk

/-- `n` steps of the machine. -/
def run : Nat → State → Host.Outcome State Fault Refusal
  | 0, s => .next s
  | n + 1, s =>
    match step s with
    | .next t => run n t
    | .fault f => .fault f
    | .refused r => .refused r

/-- What no operation ever writes (10_state.md R43): CMD, the length registers, the operand registers, and the
model's own fields. The cells of TEXT and KEY are in `cellsKept`. -/
def State.inputsKept (s t : State) : Prop :=
  t.params = s.params ∧ t.pending = s.pending ∧ t.replies = s.replies ∧ t.resets = s.resets ∧ t.cmd = s.cmd ∧
  t.textLen = s.textLen ∧ t.keyLen = s.keyLen ∧ t.affA = s.affA ∧ t.affB = s.affB ∧ t.hillN = s.hillN ∧
  t.hillM = s.hillM ∧ t.engRotor = s.engRotor ∧ t.engRefl = s.engRefl ∧ t.engPos = s.engPos ∧
  t.engRing = s.engRing ∧ t.engPlugCnt = s.engPlugCnt ∧ t.engPlugA = s.engPlugA ∧ t.engPlugB = s.engPlugB

/-- Every buffer cell reads as before except OUT[0..nOut−1] and the trace records 0..nTrace−1 (10_state.md R37, R38);
with 0 and 0, every cell. -/
def State.cellsKept (s t : State) (nOut nTrace : Nat) : Prop :=
  ∀ a, (a < outBase ∨ outBase + nOut ≤ a) → (a < traceBase ∨ traceBase + 16 * nTrace ≤ a) → t.cell a = s.cell a

/-- The three output registers AFF_AINV, HILL_INV and PF_MAT are unchanged. -/
def State.outputsKept (s t : State) : Prop :=
  t.affAinv = s.affAinv ∧ t.hillInv = s.hillInv ∧ t.pfMat = s.pfMat

/-- An operation from `s` ended without `raise` in `t`, writing `nOut` cells of OUT and `nTrace` records: ERR = 0,
DONE = 1, ERRF = 0, TRACE_CNT, and everything unchanged that such an operation may not touch, but for OUT_LEN and the
output registers AFF_AINV, HILL_INV and PF_MAT. -/
def State.completed (s t : State) (nOut nTrace : Nat) : Prop :=
  t.err = 0 ∧ t.status = 1 ∧ t.traceCnt = word nTrace ∧ s.inputsKept t ∧ s.cellsKept t nOut nTrace

/-- An operation from `s` completed in `t` with a result of `nOut` letters, as OUT_LEN says, and `nTrace` records. -/
def State.succeeded (s t : State) (nOut nTrace : Nat) : Prop :=
  s.completed t nOut nTrace ∧ t.outLen = word nOut

/-- The whole effect of `raise` with a code (60_exceptions.md R281): what an aborted command leaves. -/
def State.aborted (s : State) (code : Word) : State :=
  { s with err := code, outLen := 0, traceCnt := 0, status := 3 }

/-- The host has copied the result of `t` into the text of `u`: TEXT_LEN is the old OUT_LEN and TEXT[i] is the old
OUT[i]. -/
def State.copiedToText (t u : State) : Prop :=
  u.textLen = t.outLen ∧ ∀ i, i < t.outLen.toNat → u.readLoc (.text i) = t.readLoc (.out i)

/-- OUT holds exactly the letters of a list of symbols. -/
def State.outIs (t : State) (letters : List Sym) : Prop :=
  t.outLen = word letters.length ∧
  ∀ (i : Nat) (h : i < letters.length), t.readLoc (.out i) = word (0x41 + letters[i].val)

/-- OUT holds a list of symbols as far as OUT has cells, and OUT_LEN is its length where a word can hold it. -/
def State.outTakes (t : State) (letters : List Sym) : Prop :=
  (letters.length < 2 ^ 32 → t.outLen = word letters.length) ∧
  ∀ (i : Nat) (h : i < letters.length), i < outMax t.params → t.readLoc (.out i) = word (0x41 + letters[i].val)

/-- Word `f` of trace record `k` is field `f` of the list, 0 beyond its end. -/
def State.recordIs (t : State) (k : Nat) (fields : List Word) : Prop :=
  ∀ f : Fin 16, t.readLoc (.trace k f) = fields.getD f.val 0

end Sys2Proof.Machine
end

