-- ==== Sys2Proof/Certificates/Slice0/Obligations.lean ====
section
/-! DEFINITION. The statements for the provers. -/

open Sys2Proof Sys2Proof.Machine

/-! ### The command word -/

/-- 30_encoding.md R83: decoding the word of a well-formed command gives the command back. -/
def Obligations.DecodeOfEncode : Prop :=
  ∀ i : Instr, i.wf = true → decode (encode i) = .ok i

/-- 30_encoding.md R83, R84: each legal word stands for one command, and is that command's word bit for bit. -/
def Obligations.EncodeOfDecode : Prop :=
  ∀ (w : Word) (i : Instr), decode w = .ok i → i.wf = true ∧ encode i = w

/-- 30_encoding.md R84: which words are illegal, that the OPC ranges it lists are, and what an illegal word does. -/
def Obligations.IllegalWordsExactly : Prop :=
  (∀ w : Word, (∃ e, decode w = .error e) ↔
    (w.extractLsb' 16 16 ≠ 0 ∨
     w.extractLsb' 0 8 ∉ [0x00#8, 0x01#8, 0x10#8, 0x11#8, 0x12#8, 0x20#8, 0x21#8, 0x22#8, 0x30#8, 0x31#8, 0x32#8,
       0x40#8, 0x41#8, 0x42#8, 0x50#8] ∨
     (w.extractLsb' 0 8 ≠ 0x12#8 ∧ w.extractLsb' 8 8 ≠ 0))) ∧
  (∀ (w : Word) (opc : Nat), (w.extractLsb' 0 8).toNat = opc →
    (0x02 ≤ opc ∧ opc ≤ 0x0F ∨ 0x13 ≤ opc ∧ opc ≤ 0x1F ∨ 0x23 ≤ opc ∧ opc ≤ 0x2F ∨ 0x33 ≤ opc ∧ opc ≤ 0x3F ∨
      0x43 ≤ opc ∧ opc ≤ 0x4F ∨ 0x51 ≤ opc) → ∃ e, decode w = .error e) ∧
  (∀ (s : State) (w : Word) (e : DecodeError), decode w = .error e →
    portEvent (.write cmdAddr w) s = .next { s with cmd := w, outLen := 0, traceCnt := 0, err := 10, status := 3 })

/-- A few words written out from the opcode map of 30_encoding.md R83, and what they decode to. -/
def Obligations.TabledWordsDecode : Prop :=
  decode 0x00000001#32 = .ok .clr ∧ decode 0x00000011#32 = .ok .vigDec ∧ decode 0x00000212#32 = .ok (.vigTab 2) ∧
  decode 0x00000022#32 = .ok .affInv ∧ decode 0x00000031#32 = .ok .pfDec ∧ decode 0x00000040#32 = .ok .hillEnc ∧
  decode 0x00000050#32 = .ok .enigRun ∧ decode 0x00000111#32 = .error .argNotZero ∧
  decode 0x00000060#32 = .error .illegalOpcode ∧ decode 0x00010010#32 = .error .reservedBits

/-! ### The step and the host port -/

/-- 46_control_ops.md R260: when the host's next access writes a word to CMD that decodes to an instruction, the step
takes the access off the host's queue, stores the word in CMD, and is `exec` of that instruction. -/
def Obligations.StepRunsCommand : Prop :=
  ∀ (s : State) (w : Word) (i : Instr) (rest : List PortEvent),
    s.pending = .write cmdAddr w :: rest → decode w = .ok i → step s = exec i { s with pending := rest, cmd := w }

/-- 46_control_ops.md R263: an illegal command word clears the result, sets ERR = 10, DONE and ERRF; "No unit runs, no
output register changes, CMD holds w." -/
def Obligations.IllegalCommandEffect : Prop :=
  ∀ (s : State) (w : Word) (e : DecodeError) (rest : List PortEvent),
    s.pending = .write cmdAddr w :: rest → decode w = .error e →
    step s = .next { s with pending := rest, cmd := w, outLen := 0, traceCnt := 0, err := 10, status := 3 }

/-- 20_memory.md R61: `MemRead(addr, n)` is n single reads in ascending address order, taken mod 2^16; it returns the
words at those addresses and changes nothing else. -/
def Obligations.ReadsReturnInOrder : Prop :=
  ∀ (n : Nat) (s : State) (a : Addr) (rest : List PortEvent), s.pending = memReadEvents a n ++ rest →
    run n s = .next { s with pending := rest, replies := s.replies ++ s.memRead a n } ∧
    (s.memRead a n).length = n ∧
    ∀ k, k < n → (s.memRead a n)[k]? = some (s.hostRead (a + BitVec.ofNat 16 k))

/-- 20_memory.md R62, 10_state.md R24 and R25: a single write to a read-write location other than CMD makes that
location, and no other location, take the word; the two length registers take it clamped to their capacity. -/
def Obligations.WriteSetsOneLocation : Prop :=
  ∀ (s : State) (l : Loc) (w : Word) (rest : List PortEvent),
    paramsWf s.params → l.inRange s.params = true → l.access = .readWrite → l ≠ .cmd →
    s.pending = .write (BitVec.ofNat 16 l.addr) w :: rest →
    ∃ t, step s = .next t ∧
      t.readLoc l = (if l = .textLen then word (min w.toNat s.params.textMax)
        else if l = .keyLen then word (min w.toNat s.params.keyMax) else w) ∧
      (∀ l' : Loc, l' ≠ l → l'.inRange s.params = true → t.readLoc l' = s.readLoc l') ∧
      t.pending = rest ∧ t.params = s.params ∧ t.replies = s.replies ∧ t.resets = s.resets

/-- 20_memory.md R64: reads of unmapped addresses return 0, and a write to an unmapped or read-only location changes
nothing. -/
def Obligations.UnmappedAndReadOnly : Prop :=
  (∀ (s : State) (a : Addr), locate s.params a = none → s.hostRead a = 0) ∧
  (∀ (s : State) (a : Addr) (w : Word) (rest : List PortEvent), s.pending = .write a w :: rest →
    (locate s.params a = none ∨ ∃ l, locate s.params a = some l ∧ l.access = .readOnly) →
    step s = .next { s with pending := rest })

/-- 10_state.md R20, 20_memory.md R63: the address map and the locations' addresses agree in both directions, so that
no address names two locations and no location is out of reach. -/
def Obligations.AddressMapAgrees : Prop :=
  ∀ p : Params, paramsWf p →
    (∀ l : Loc, l.inRange p = true → l.addr < 2 ^ 16 ∧ locate p (BitVec.ofNat 16 l.addr) = some l) ∧
    (∀ (a : Addr) (l : Loc), locate p a = some l → l.inRange p = true ∧ l.addr = a.toNat)

/-- 10_state.md R39, R40: what a host reads in the ROM regions. -/
def Obligations.RomHoldsCatalog : Prop :=
  ∀ s : State,
    (∀ j : Fin 12, s.hostRead (BitVec.ofNat 16 (0x800 + j.val)) =
      word ([1, 3, 5, 7, 9, 11, 15, 17, 19, 21, 23, 25].getD j.val 0)) ∧
    (∀ (id : Fin 5) (j : Fin 26), s.hostRead (BitVec.ofNat 16 (0x820 + 32 * id.val + j.val)) =
      word (s.params.catalog.rotorWiring[id])[j].val) ∧
    (∀ id : Fin 5, s.hostRead (BitVec.ofNat 16 (0x820 + 32 * id.val + 26)) =
      word s.params.catalog.rotorNotch[id].val) ∧
    (∀ (id : Fin 2) (j : Fin 26), s.hostRead (BitVec.ofNat 16 (0x8C0 + 32 * id.val + j.val)) =
      word (s.params.catalog.reflWiring[id])[j].val) ∧
    s.hostRead 0x08DA = 0x42 ∧ s.hostRead 0x08FA = 0x43 ∧
    (∀ (id : Fin 7) (x : Fin 5), s.hostRead (BitVec.ofNat 16 (0x820 + 32 * id.val + 27 + x.val)) = 0)

/-- 00_scope.md R14, 60_exceptions.md R283, R295: every operation and every host access completes, and with nothing
pending at the port the block holds its state; the machine never stops. -/
def Obligations.NothingEverStops : Prop :=
  (∀ (i : Instr) (s : State), ∃ t, exec i s = .next t) ∧ (∀ s : State, ∃ t, step s = .next t) ∧
  (∀ s : State, s.pending = [] → step s = .next s)

/-! ### Reset -/

/-- 10_state.md R47: after reset every register of the register region reads 0, and ROM keeps its constants; so it is
in `State.reset` and after a reset that comes in at any time. -/
def Obligations.ResetClearsRegisters : Prop :=
  (∀ l : Loc, l.addr < 0x9A → State.reset.readLoc l = 0) ∧
  (∀ (s : State) (rest : List PortEvent), s.pending = .reset :: rest →
    ∃ t, step s = .next t ∧ (∀ l : Loc, l.addr < 0x9A → t.readLoc l = 0) ∧
      (∀ l : Loc, 0x800 ≤ l.addr → l.addr < 0x900 → t.readLoc l = s.readLoc l))

/-- The model's form of 10_state.md R48 (log entries 1 and 5): a reset leaves every buffer cell at a free value of that
reset and keeps the parameters, the host's queue and the words it has read; and no command changes a cell outside the
result it writes: OUT[0..OUT_LEN−1] and the records 0..TRACE_CNT−1. Of PF.DEC with a PF_CLEANUP other than the default
it says OUT[0..OUT_MAX−1] (log entry 18). -/
def Obligations.CellsKeepTheirValue : Prop :=
  (∀ (s : State) (rest : List PortEvent), s.pending = .reset :: rest →
    ∃ t, step s = .next t ∧ (∀ a, t.cell a = Config.unwrittenCell (s.resets + 1) a) ∧
      t.params = s.params ∧ t.pending = rest ∧ t.replies = s.replies) ∧
  (∀ (i : Instr) (s t : State), s.Inv → exec i s = .next t →
    s.cellsKept t (outMax s.params) t.traceCnt.toNat ∧
    ((i ≠ .pfDec ∨ s.params.cleanup = .standard) → s.cellsKept t t.outLen.toNat t.traceCnt.toNat))

/-- 70_reset_and_hazards.md R303: what the operations do straight after a reset, with no operand written, under the
default PF_EMPTY_KEY_IS_ERROR. None of the results depends on a buffer cell. -/
def Obligations.OperationsAfterReset : Prop :=
  ∀ s t : State, t = s.resetDevice → s.params.pfEmptyKeyIsError = true →
    exec .vigEnc t = .next (t.aborted 1) ∧ exec .vigDec t = .next (t.aborted 1) ∧
    (∀ n, n < 256 → exec (.vigTab n) t = .next (t.aborted 1)) ∧
    exec .affEnc t = .next (t.aborted 2) ∧ exec .affDec t = .next (t.aborted 2) ∧
    exec .affInv t = .next (t.aborted 7) ∧
    exec .pfEnc t = .next (t.aborted 1) ∧ exec .pfDec t = .next (t.aborted 1) ∧ exec .pfMat t = .next (t.aborted 1) ∧
    exec .hillEnc t = .next (t.aborted 2) ∧ exec .hillDec t = .next (t.aborted 2) ∧
    exec .hillInv t = .next (t.aborted 2) ∧ exec .enigRun t = .next (t.aborted 3)

/-! ### Alphabet Utilities -/

/-- 40_alphabet_utilities.md R100 to R102: cleaning goes cell by cell, in order; the codes of upper and lower case
letters give their symbol, every other value is dropped; and cleaning undoes `chr`. -/
def Obligations.CleanKeepsLetters : Prop :=
  clean [] = [] ∧
  (∀ (c : Word) (cs : List Word) (x : Sym),
    (c.toNat = 0x41 + x.val ∨ c.toNat = 0x61 + x.val) → clean (c :: cs) = x :: clean cs) ∧
  (∀ (c : Word) (cs : List Word),
    ¬ (0x41 ≤ c.toNat ∧ c.toNat ≤ 0x5A) → ¬ (0x61 ≤ c.toNat ∧ c.toNat ≤ 0x7A) → clean (c :: cs) = clean cs) ∧
  (∀ l : List Sym, clean (l.map fun x => word (0x41 + x.val)) = l)

/-- 40_alphabet_utilities.md R103: `mod(n, m)` is the unique r with 0 ≤ r < m and m dividing n − r. -/
def Obligations.ModIsRemainder : Prop :=
  ∀ n m : Int, 0 < m → 0 ≤ mod n m ∧ mod n m < m ∧ m ∣ n - mod n m ∧
    ∀ r : Int, 0 ≤ r → r < m → m ∣ n - r → r = mod n m

/-- 40_alphabet_utilities.md R104, R105: `modInv` finds the inverse in 1..25, which is unique; it finds one exactly
when the argument is coprime with 26; the units in 0..25 are the twelve listed. -/
def Obligations.ModularInverseRule : Prop :=
  (∀ a x : Nat, modInv a = some x ↔ 1 ≤ x ∧ x ≤ 25 ∧ a * x % 26 = 1) ∧
  (∀ v : Nat, isUnit v = true ↔ Nat.gcd v 26 = 1) ∧
  (∀ v : Nat, v ≤ 25 → (isUnit v = true ↔ v ∈ [1, 3, 5, 7, 9, 11, 15, 17, 19, 21, 23, 25]))

/-! ### Control operations -/

/-- 46_control_ops.md R261: NOP writes CMD and nothing else. -/
def Obligations.NopWritesOnlyCmd : Prop :=
  (∀ s : State, exec .nop s = .next s) ∧
  (∀ (s : State) (rest : List PortEvent), s.pending = .write cmdAddr 0x00000000#32 :: rest →
    step s = .next { s with pending := rest, cmd := 0 })

/-- 46_control_ops.md R262: CLR returns every output to its reset value and touches nothing else. -/
def Obligations.ClrClearsOutputs : Prop :=
  ∀ s : State, ∃ t, exec .clr s = .next t ∧
    t = { s with outLen := 0, traceCnt := 0, err := 0, affAinv := 0, hillInv := t.hillInv, pfMat := t.pfMat,
                 status := 0 } ∧
    (∀ k : Fin 25, t.hillInv[k] = 0) ∧ (∀ k : Fin 25, t.pfMat[k] = 0)

/-! ### Vigenère -/

/-- 41_vigenere.md R123, R124: VIG.ENC, its error and its frame. -/
def Obligations.VigEncResult : Prop :=
  decode 0x00000010#32 = .ok .vigEnc ∧
  ∀ s : State, s.Inv →
    (s.cleanText = [] ∨ s.cleanKey = [] → exec .vigEnc s = .next (s.aborted 1)) ∧
    (s.cleanText ≠ [] → s.cleanKey ≠ [] → ∃ t, exec .vigEnc s = .next t ∧
      s.succeeded t s.cleanText.length s.cleanText.length ∧ s.outputsKept t ∧
      ∀ (i : Nat) (x k : Sym) (y : Nat), s.cleanText[i]? = some x →
        s.cleanKey[i % s.cleanKey.length]? = some k → y = (x.val + k.val) % 26 →
        t.readLoc (.out i) = word (0x41 + y) ∧
        t.recordIs i [word i, word x.val, word (i % s.cleanKey.length), word k.val, word y])

/-- 41_vigenere.md R125: VIG.DEC, its error and its frame. -/
def Obligations.VigDecResult : Prop :=
  decode 0x00000011#32 = .ok .vigDec ∧
  ∀ s : State, s.Inv →
    (s.cleanText = [] ∨ s.cleanKey = [] → exec .vigDec s = .next (s.aborted 1)) ∧
    (s.cleanText ≠ [] → s.cleanKey ≠ [] → ∃ t, exec .vigDec s = .next t ∧
      s.succeeded t s.cleanText.length s.cleanText.length ∧ s.outputsKept t ∧
      ∀ (i : Nat) (x k : Sym) (y : Nat), s.cleanText[i]? = some x →
        s.cleanKey[i % s.cleanKey.length]? = some k → (y : Int) = ((x.val : Int) - k.val) % 26 →
        t.readLoc (.out i) = word (0x41 + y) ∧
        t.recordIs i [word i, word x.val, word (i % s.cleanKey.length), word k.val, word y])

/-- 41_vigenere.md R127: VIG.TAB, its error and its frame. -/
def Obligations.VigTabResult : Prop :=
  (∀ n : Nat, n < 256 → decode (word (0x12 + 256 * n)) = .ok (.vigTab n)) ∧
  ∀ (s : State) (n : Nat), s.Inv → n < 256 →
    (s.cleanKey = [] → exec (.vigTab n) s = .next (s.aborted 1)) ∧
    (s.cleanKey ≠ [] → ∃ t, exec (.vigTab n) s = .next t ∧
      s.succeeded t (26 * min n s.cleanKey.length) 0 ∧ s.outputsKept t ∧
      ∀ (j c : Nat) (k : Sym), j < min n s.cleanKey.length → s.cleanKey[j]? = some k → c < 26 →
        t.readLoc (.out (26 * j + c)) = word (0x41 + (c + k.val) % 26))

/-- 41_vigenere.md R126: VIG.DEC undoes VIG.ENC with the same key, and VIG.ENC undoes VIG.DEC. -/
def Obligations.VigRoundTrip : Prop :=
  ∀ s t u : State, s.Inv → u.Inv → s.cleanText ≠ [] → s.cleanKey ≠ [] → u.cleanKey = s.cleanKey →
    t.copiedToText u →
    (exec .vigEnc s = .next t → ∃ v, exec .vigDec u = .next v ∧ v.err = 0 ∧ v.outIs s.cleanText) ∧
    (exec .vigDec s = .next t → ∃ v, exec .vigEnc u = .next v ∧ v.err = 0 ∧ v.outIs s.cleanText)

/-! ### Affine -/

/-- The key passes 42_affine.md R141: membership in the set of twelve, b at most 25. -/
def Sys2Proof.Machine.State.affKeyOk (s : State) : Prop :=
  s.affA.toNat ∈ [1, 3, 5, 7, 9, 11, 15, 17, 19, 21, 23, 25] ∧ s.affB.toNat ≤ 25

/-- 42_affine.md R143, R144: AFF.ENC, its errors in their order, and its frame. -/
def Obligations.AffEncResult : Prop :=
  decode 0x00000020#32 = .ok .affEnc ∧
  ∀ s : State, s.Inv →
    (¬ s.affKeyOk → exec .affEnc s = .next (s.aborted 2)) ∧
    (s.affKeyOk → s.cleanText = [] → s.params.emptyTextIsError = true → exec .affEnc s = .next (s.aborted 1)) ∧
    (s.affKeyOk → (s.cleanText ≠ [] ∨ s.params.emptyTextIsError = false) → ∃ t, exec .affEnc s = .next t ∧
      s.succeeded t s.cleanText.length s.cleanText.length ∧ s.outputsKept t ∧
      ∀ (i : Nat) (x : Sym) (y : Nat), s.cleanText[i]? = some x →
        y = (s.affA.toNat * x.val + s.affB.toNat) % 26 →
        t.readLoc (.out i) = word (0x41 + y) ∧
        t.recordIs i [word i, word x.val, s.affA, s.affB, word y, s.affA])

/-- 42_affine.md R145: AFF.DEC, its errors in their order (NoInverse never), and its frame. -/
def Obligations.AffDecResult : Prop :=
  decode 0x00000021#32 = .ok .affDec ∧
  ∀ s : State, s.Inv →
    (¬ s.affKeyOk → exec .affDec s = .next (s.aborted 2)) ∧
    (s.affKeyOk → s.cleanText = [] → s.params.emptyTextIsError = true → exec .affDec s = .next (s.aborted 1)) ∧
    (s.affKeyOk → (s.cleanText ≠ [] ∨ s.params.emptyTextIsError = false) →
      ∃ (t : State) (aInv : Nat), exec .affDec s = .next t ∧
      1 ≤ aInv ∧ aInv ≤ 25 ∧ s.affA.toNat * aInv % 26 = 1 ∧ t.affAinv = word aInv ∧
      s.succeeded t s.cleanText.length s.cleanText.length ∧ t.hillInv = s.hillInv ∧ t.pfMat = s.pfMat ∧
      ∀ (i : Nat) (x : Sym) (y : Nat), s.cleanText[i]? = some x →
        (y : Int) = (aInv * ((x.val : Int) - s.affB.toNat)) % 26 →
        t.readLoc (.out i) = word (0x41 + y) ∧
        t.recordIs i [word i, word x.val, word aInv, s.affB, word y, s.affA])

/-- 42_affine.md R146: AFF.INV accepts every 32-bit value and reports NoInverse exactly when it is not coprime with
26. -/
def Obligations.AffInvResult : Prop :=
  decode 0x00000022#32 = .ok .affInv ∧
  ∀ s : State,
    (Nat.gcd s.affA.toNat 26 ≠ 1 → exec .affInv s = .next (s.aborted 7)) ∧
    (Nat.gcd s.affA.toNat 26 = 1 → ∃ (t : State) (v : Nat), exec .affInv s = .next t ∧
      1 ≤ v ∧ v ≤ 25 ∧ s.affA.toNat * v % 26 = 1 ∧ t.affAinv = word v ∧
      s.succeeded t 0 0 ∧ t.hillInv = s.hillInv ∧ t.pfMat = s.pfMat)

/-- 42_affine.md R147 (a): AFF.DEC undoes AFF.ENC under the same key. -/
def Obligations.AffRoundTrip : Prop :=
  ∀ s t u : State, s.Inv → u.Inv → s.affKeyOk → s.cleanText ≠ [] → u.affA = s.affA → u.affB = s.affB →
    exec .affEnc s = .next t → t.copiedToText u →
    ∃ v, exec .affDec u = .next v ∧ v.err = 0 ∧ v.outIs s.cleanText

/-! ### Playfair -/

/-- 43_playfair.md R161: the matrix is the keyword's letters with J read as I, each once and in order of first
appearance, then the letters not used yet in A to Z order without J; it holds 25 distinct symbols. -/
def Obligations.PfMatrixRule : Prop :=
  ∀ key : List Sym,
    pfMatrix key = (key.map mergeJ).eraseDups ++ allSyms.filter (fun x => x ≠ 9 ∧ x ∉ key.map mergeJ) ∧
    (pfMatrix key).length = 25 ∧ (pfMatrix key).Nodup ∧ (9 : Sym) ∉ pfMatrix key

/-- 43_playfair.md R166, R167: the digraph transform by the rows and columns of the two letters, in every matrix. -/
def Obligations.PfRuleByPosition : Prop :=
  ∀ (key : List Sym) (ra ca rb cb : Nat) (d : Int), ra < 5 → ca < 5 → rb < 5 → cb < 5 → (d = 1 ∨ d = -1) →
    pfRule (pfMatrix key) (pfAt (pfMatrix key) ra ca) (pfAt (pfMatrix key) rb cb) d =
      (if ra = rb then
        (pfAt (pfMatrix key) ra ((ca + d) % 5).toNat, pfAt (pfMatrix key) rb ((cb + d) % 5).toNat, 1)
      else if ca = cb then
        (pfAt (pfMatrix key) ((ra + d) % 5).toNat ca, pfAt (pfMatrix key) ((rb + d) % 5).toNat cb, 2)
      else (pfAt (pfMatrix key) ra cb, pfAt (pfMatrix key) rb ca, 3))

/-- 43_playfair.md R178: the decryption transform undoes the encryption transform on every digraph of letters other
than J. -/
def Obligations.PfRuleInverse : Prop :=
  ∀ (key : List Sym) (a b : Sym), a ≠ 9 → b ≠ 9 →
    (pfRule (pfMatrix key) (pfRule (pfMatrix key) a b 1).1 (pfRule (pfMatrix key) a b 1).2.1 (-1)).1 = a ∧
    (pfRule (pfMatrix key) (pfRule (pfMatrix key) a b 1).1 (pfRule (pfMatrix key) a b 1).2.1 (-1)).2.1 = b

/-- 43_playfair.md R165: how a text is cut into digraphs, that fillers make at most one digraph of each letter, and
that a digraph of equal letters is (X, X). -/
def Obligations.PfSegmentation : Prop :=
  pfPairs [] = [] ∧ (∀ a, pfPairs [a] = [(a, 23)]) ∧
  (∀ (a : Sym) (r : List Sym), pfPairs (a :: a :: r) = (a, 23) :: pfPairs (a :: r)) ∧
  (∀ (a b : Sym) (r : List Sym), b ≠ a → pfPairs (a :: b :: r) = (a, b) :: pfPairs r) ∧
  (∀ t : List Sym, (pfPairs t).length ≤ t.length ∧ t.length ≤ 2 * (pfPairs t).length ∧
    ∀ ab ∈ pfPairs t, ab.1 = ab.2 → ab.1 = 23)

/-- The text prepared for Playfair (43_playfair.md R164): cleaned, J read as I. -/
def Sys2Proof.Machine.State.prepared (s : State) : List Sym := s.cleanText.map fun x => if x = 9 then 8 else x

/-- 43_playfair.md R171, R172: PF.ENC, its error and its frame. -/
def Obligations.PfEncResult : Prop :=
  decode 0x00000030#32 = .ok .pfEnc ∧
  ∀ s : State, s.Inv →
    (s.cleanKey = [] → s.params.pfEmptyKeyIsError = true → exec .pfEnc s = .next (s.aborted 1)) ∧
    (s.cleanText = [] → s.params.emptyTextIsError = true → exec .pfEnc s = .next (s.aborted 1)) ∧
    ((s.cleanKey ≠ [] ∨ s.params.pfEmptyKeyIsError = false) →
     (s.cleanText ≠ [] ∨ s.params.emptyTextIsError = false) → ∃ t, exec .pfEnc s = .next t ∧
      s.succeeded t (2 * (pfPairs s.prepared).length) (pfPairs s.prepared).length ∧
      t.affAinv = s.affAinv ∧ t.hillInv = s.hillInv ∧
      (∀ k : Fin 25, t.pfMat[k] = word ((pfMatrix s.cleanKey).getD k.val 0).val) ∧
      ∀ (k : Nat) (a b a2 b2 : Sym) (rule : Nat), (pfPairs s.prepared)[k]? = some (a, b) →
        pfRule (pfMatrix s.cleanKey) a b 1 = (a2, b2, rule) →
        t.readLoc (.out (2 * k)) = word (0x41 + a2.val) ∧ t.readLoc (.out (2 * k + 1)) = word (0x41 + b2.val) ∧
        t.recordIs k [word k, word a.val, word b.val, word rule, word a2.val, word b2.val,
          word ((pfMatrix s.cleanKey).idxOf a / 5), word ((pfMatrix s.cleanKey).idxOf a % 5),
          word ((pfMatrix s.cleanKey).idxOf b / 5), word ((pfMatrix s.cleanKey).idxOf b % 5)])

/-- From 43_playfair.md R175, R172: PF.DEC, its errors in their order, and its frame, for every PF_CLEANUP. That letters
beyond OUT_MAX are written nowhere and that a length beyond 32 bits leaves OUT_LEN open is the model's choice (log entry
18), and so is that an empty text has an empty result whatever PF_CLEANUP makes of the empty list, which follows R163
where R175 could be read otherwise (log entry 19). The default cleanup gives at most as many letters as the text has. -/
def Obligations.PfDecResult : Prop :=
  decode 0x00000031#32 = .ok .pfDec ∧
  ∀ s : State, s.Inv →
    (s.cleanKey = [] → s.params.pfEmptyKeyIsError = true → exec .pfDec s = .next (s.aborted 1)) ∧
    (s.cleanText = [] → s.params.emptyTextIsError = true → exec .pfDec s = .next (s.aborted 1)) ∧
    ((s.cleanKey ≠ [] ∨ s.params.pfEmptyKeyIsError = false) → s.cleanText.length % 2 = 1 →
      exec .pfDec s = .next (s.aborted 9)) ∧
    ((s.cleanKey ≠ [] ∨ s.params.pfEmptyKeyIsError = false) →
     (s.cleanText ≠ [] ∨ s.params.emptyTextIsError = false) → s.cleanText.length % 2 = 0 →
     ∃ (t : State) (raw out : List Sym), exec .pfDec s = .next t ∧ raw.length = s.cleanText.length ∧
      (s.params.cleanup = .standard → out = pfCleanup raw ∧ out.length ≤ s.cleanText.length) ∧
      (∀ id, s.params.cleanup = .custom id → s.cleanText ≠ [] → out = Config.customCleanup id raw) ∧
      (s.cleanText = [] → out = [] ∧ t.outLen = 0 ∧ t.traceCnt = 0) ∧
      s.completed t (min out.length (outMax s.params)) (s.cleanText.length / 2) ∧ t.outTakes out ∧
      t.affAinv = s.affAinv ∧ t.hillInv = s.hillInv ∧
      (∀ k : Fin 25, t.pfMat[k] = word ((pfMatrix s.cleanKey).getD k.val 0).val) ∧
      ∀ (k : Nat) (a b a2 b2 : Sym) (rule : Nat), s.prepared[2 * k]? = some a → s.prepared[2 * k + 1]? = some b →
        pfRule (pfMatrix s.cleanKey) a b (-1) = (a2, b2, rule) →
        raw[2 * k]? = some a2 ∧ raw[2 * k + 1]? = some b2 ∧
        t.recordIs k [word k, word a.val, word b.val, word rule, word a2.val, word b2.val,
          word ((pfMatrix s.cleanKey).idxOf a / 5), word ((pfMatrix s.cleanKey).idxOf a % 5),
          word ((pfMatrix s.cleanKey).idxOf b / 5), word ((pfMatrix s.cleanKey).idxOf b % 5)])

/-- 43_playfair.md R177: PF.MAT, its error and its frame. -/
def Obligations.PfMatResult : Prop :=
  decode 0x00000032#32 = .ok .pfMat ∧
  ∀ s : State,
    (s.cleanKey = [] → s.params.pfEmptyKeyIsError = true → exec .pfMat s = .next (s.aborted 1)) ∧
    ((s.cleanKey ≠ [] ∨ s.params.pfEmptyKeyIsError = false) → ∃ t, exec .pfMat s = .next t ∧
      s.succeeded t 0 0 ∧ t.affAinv = s.affAinv ∧ t.hillInv = s.hillInv ∧
      ∀ k : Fin 25, t.pfMat[k] = word ((pfMatrix s.cleanKey).getD k.val 0).val)

/-- 43_playfair.md R178: the raw list of PF.DEC applied to the OUT of PF.ENC is the digraph list of PF.ENC flattened,
so that only the cleanup is lossy; it holds for every PF_CLEANUP, with a result beyond OUT's cells or beyond 32 bits as
log entry 18 says (the model's choice). -/
def Obligations.PfRawRoundTrip : Prop :=
  ∀ s t u : State, s.Inv → u.Inv → s.cleanText ≠ [] → u.cleanKey = s.cleanKey → u.params = s.params →
    exec .pfEnc s = .next t → t.err = 0 → t.copiedToText u →
    ∃ (v : State) (raw : List Sym), exec .pfDec u = .next v ∧ v.err = 0 ∧
      raw = ((pfPairs s.prepared).flatMap fun ab => [ab.1, ab.2]) ∧
      (u.params.cleanup = .standard → v.outIs (pfCleanup raw)) ∧
      (∀ id, u.params.cleanup = .custom id → v.outTakes (Config.customCleanup id raw))

/-- Element i of the raw list is an X between two equal neighbours (43_playfair.md R176). -/
def Sys2Proof.Machine.sandwiched (raw : List Sym) (i : Nat) : Prop :=
  raw[i]? = some 23 ∧ 0 < i ∧ i + 1 < raw.length ∧ raw[i - 1]? = raw[i + 1]?

/-- 43_playfair.md R176: the default cleanup keeps, in order, exactly the elements that are no X between two equal
neighbours of the raw list, and then drops one X at the end of what it kept, if there is one. So it never removes
element 0, never lengthens a list, leaves at least one symbol of two or more, and changes nothing in a list without
X. -/
def Obligations.CleanupBounds : Prop :=
  ∀ raw : List Sym,
    (∃ (kept : List Nat) (l : List Sym), kept.Pairwise (· < ·) ∧
      (∀ i, i ∈ kept ↔ i < raw.length ∧ ¬ sandwiched raw i) ∧
      l.map some = kept.map (fun i => raw[i]?) ∧
      (∀ l', l = l' ++ [23] → pfCleanup raw = l') ∧ ((∀ l', l ≠ l' ++ [23]) → pfCleanup raw = l)) ∧
    (pfCleanup raw).length ≤ raw.length ∧
    (2 ≤ raw.length → (pfCleanup raw).head? = raw.head?) ∧
    (23 ∉ raw → pfCleanup raw = raw)

/-! ### Hill -/

/-- The key passes 44_hill_matrix_inverse.md R191. -/
def Sys2Proof.Machine.State.hillKeyOk (s : State) : Prop :=
  s.hillN.toNat ∈ [2, 3, 4, 5] ∧
  ∀ r, r < s.hillN.toNat → ∀ c, c < s.hillN.toNat → (s.hillEntry r c).toNat ≤ 25

/-- `hillInverse` of the key in the registers (44_hill_matrix_inverse.md R192). -/
def Sys2Proof.Machine.State.hillKeyInverse (s : State) : Option SymMatrix := hillInverse s.hillN.toNat s.hillKey

/-- 44_hill_matrix_inverse.md R194: when `hillInverse` returns, the result is the two-sided inverse mod 26, and no
other matrix of symbols is an inverse. -/
def Obligations.HillInverseCorrect : Prop :=
  ∀ (n : Nat) (m inv : SymMatrix), hillInverse n m = some inv →
    (∀ r c, r < n → c < n →
      (∑ j ∈ Finset.range n, (entry m r j).val * (entry inv j c).val) % 26 = (if r = c then 1 else 0) ∧
      (∑ j ∈ Finset.range n, (entry inv r j).val * (entry m j c).val) % 26 = (if r = c then 1 else 0)) ∧
    (∀ x : SymMatrix,
      (∀ r c, r < n → c < n →
        (∑ j ∈ Finset.range n, (entry m r j).val * (entry x j c).val) % 26 = (if r = c then 1 else 0)) →
      ∀ r c, r < n → c < n → entry x r c = entry inv r c)

/-- 44_hill_matrix_inverse.md R193 (a): a matrix whose determinant is not coprime with 26 is rejected. -/
def Obligations.HillRejectsSingular : Prop :=
  ∀ (n : Nat) (m : SymMatrix),
    Int.gcd (Matrix.det (Matrix.of fun (r c : Fin n) => ((entry m r.val c.val).val : Int))) 26 ≠ 1 →
    hillInverse n m = none

/-- An n × 2n matrix as a list of rows. -/
def Sys2Proof.Machine.augmented (n : Nat) (a : SymMatrix) : Prop :=
  a.length = n ∧ ∀ row ∈ a, row.length = 2 * n

/-- 44_hill_matrix_inverse.md R192, R193: `hillInverse` step by step. It starts from [M | I]; the pivot of a column is
the lowest row at or below the diagonal with a unit in it, and a column without one ends the search; otherwise the rows
are swapped, the pivot row is scaled by the pivot's inverse, and the column is eliminated from every other row; the
columns are worked off in order, and the right half is the result. -/
def Obligations.HillPivotRule : Prop :=
  (∀ (n : Nat) (m : SymMatrix), augmented n (hillAugment n m) ∧
    ∀ r c, r < n → c < n → entry (hillAugment n m) r c = entry m r c ∧
      entry (hillAugment n m) r (n + c) = if r = c then 1 else 0) ∧
  (∀ (n : Nat) (a : SymMatrix) (col : Nat),
    (∀ p, hillPivot n a col = some p ↔ col ≤ p ∧ p < n ∧ Nat.gcd (entry a p col).val 26 = 1 ∧
      ∀ r, col ≤ r → r < p → Nat.gcd (entry a r col).val 26 ≠ 1) ∧
    (hillPivot n a col = none ↔ ∀ r, col ≤ r → r < n → Nat.gcd (entry a r col).val 26 ≠ 1)) ∧
  (∀ (n : Nat) (a : SymMatrix) (col : Nat), augmented n a → col < n →
    (hillPivot n a col = none → hillColumn n a col = none) ∧
    ∀ p v : Nat, hillPivot n a col = some p → 1 ≤ v → v ≤ 25 → v * (entry a p col).val % 26 = 1 →
      ∃ b, hillColumn n a col = some b ∧ augmented n b ∧
        ∀ k, k < 2 * n → (entry b col k).val = v * (entry a p k).val % 26 ∧
          ∀ r src, r < n → r ≠ col → src = (if r = p then col else r) →
            ((entry b r k).val : Int) =
              ((entry a src k).val - (entry a src col).val * (entry b col k).val : Int) % 26) ∧
  (∀ (n : Nat) (a : SymMatrix), hillEliminate n a (List.range 0) = some a ∧
    ∀ col, hillEliminate n a (List.range (col + 1)) =
      (hillEliminate n a (List.range col)).bind fun b => hillColumn n b col) ∧
  (∀ (n : Nat) (m : SymMatrix),
    (hillInverse n m = none ↔ ∃ (col : Nat) (a : SymMatrix), col < n ∧
      hillEliminate n (hillAugment n m) (List.range col) = some a ∧ hillPivot n a col = none) ∧
    ∀ inv, hillInverse n m = some inv → ∃ a, hillEliminate n (hillAugment n m) (List.range n) = some a ∧
      ∀ r c, r < n → c < n → entry inv r c = entry a r (n + c))

/-- 44_hill_matrix_inverse.md R193 (b): the two matrices it names have a determinant coprime with 26 and are rejected
all the same. And which matrices are accepted and which rejected by the lowest-row choice of R192: the vectors V4b, V4c
and V4j (with a swap), V4l, and V4k of 95_test_vectors.md. -/
def Obligations.HillRejectsSomeInvertible : Prop :=
  hillInverse 2 [[2, 13], [13, 2]] = none ∧ Int.gcd (2 * 2 - 13 * 13) 26 = 1 ∧
  hillInverse 3 [[6, 24, 1], [13, 16, 10], [20, 17, 15]] = none ∧
  Int.gcd (6 * (16 * 15 - 10 * 17) - 24 * (13 * 15 - 10 * 20) + 1 * (13 * 17 - 16 * 20)) 26 = 1 ∧
  hillInverse 2 [[3, 3], [2, 5]] = some [[15, 17], [20, 9]] ∧
  hillInverse 2 [[2, 1], [1, 1]] = some [[1, 25], [25, 2]] ∧
  hillInverse 2 [[13, 1], [1, 0]] = some [[0, 1], [1, 13]] ∧
  hillInverse 3 [[15, 11, 4], [13, 4, 0], [5, 8, 11]] = some [[12, 23, 24], [13, 23, 0], [4, 13, 1]] ∧
  hillInverse 3 [[5, 24, 2], [24, 19, 0], [11, 8, 25]] = none

/-- 44_hill_matrix_inverse.md R195: the padded text is the text and then 0 .. n−1 X's, its length a multiple of n. -/
def Obligations.HillPadRule : Prop :=
  ∀ (n : Nat) (t : List Sym), 0 < n →
    ∃ k, k < n ∧ hillPad n t = t ++ List.replicate k 23 ∧ (hillPad n t).length % n = 0

/-- What HILL_INV holds after a successful Hill operation (10_state.md R32). -/
def Sys2Proof.Machine.State.holdsInverse (t : State) (n : Nat) (inv : SymMatrix) : Prop :=
  ∀ r c : Fin 5, t.readLoc (.hillInv ⟨5 * r.val + c.val, by omega⟩) =
    if r.val < n ∧ c.val < n then word (entry inv r.val c.val).val else 0

/-- 44_hill_matrix_inverse.md R199, R200: HILL.ENC, its errors in their order (R197), and its frame. -/
def Obligations.HillEncResult : Prop :=
  decode 0x00000040#32 = .ok .hillEnc ∧
  ∀ s : State, s.Inv →
    (¬ s.hillKeyOk → exec .hillEnc s = .next (s.aborted 2)) ∧
    (s.hillKeyOk → s.hillKeyInverse = none → exec .hillEnc s = .next (s.aborted 8)) ∧
    (s.hillKeyOk → s.hillKeyInverse ≠ none → s.cleanText = [] → s.params.emptyTextIsError = true →
      exec .hillEnc s = .next (s.aborted 1)) ∧
    (∀ (inv : SymMatrix) (n : Nat) (pt : List Sym), s.hillKeyOk → s.hillKeyInverse = some inv →
      (s.cleanText ≠ [] ∨ s.params.emptyTextIsError = false) → n = s.hillN.toNat → pt = hillPad n s.cleanText →
      ∃ t, exec .hillEnc s = .next t ∧ s.succeeded t pt.length (pt.length / n) ∧
      t.affAinv = s.affAinv ∧ t.pfMat = s.pfMat ∧ t.holdsInverse n inv ∧
      ∀ k, k < pt.length / n →
        (∀ i, i < n → t.readLoc (.out (n * k + i)) = word (0x41 +
          (∑ j ∈ Finset.range n, (s.hillEntry i j).toNat * (pt.getD (n * k + j) 0).val) % 26)) ∧
        t.recordIs k ([word k, word n] ++
          ((List.range 5).map fun i => if i < n then word (pt.getD (n * k + i) 0).val else 0) ++
          ((List.range 5).map fun i => if i < n then
            word ((∑ j ∈ Finset.range n, (s.hillEntry i j).toNat * (pt.getD (n * k + j) 0).val) % 26) else 0) ++ [0]))

/-- 44_hill_matrix_inverse.md R201: HILL.DEC, its errors in their order (R197), and its frame. -/
def Obligations.HillDecResult : Prop :=
  decode 0x00000041#32 = .ok .hillDec ∧
  ∀ s : State, s.Inv →
    (¬ s.hillKeyOk → exec .hillDec s = .next (s.aborted 2)) ∧
    (s.hillKeyOk → s.hillKeyInverse = none → exec .hillDec s = .next (s.aborted 8)) ∧
    (s.hillKeyOk → s.hillKeyInverse ≠ none → s.cleanText = [] → s.params.emptyTextIsError = true →
      exec .hillDec s = .next (s.aborted 1)) ∧
    (∀ (inv : SymMatrix) (n : Nat) (pt : List Sym), s.hillKeyOk → s.hillKeyInverse = some inv →
      (s.cleanText ≠ [] ∨ s.params.emptyTextIsError = false) → n = s.hillN.toNat → pt = hillPad n s.cleanText →
      ∃ t, exec .hillDec s = .next t ∧ s.succeeded t pt.length (pt.length / n) ∧
      t.affAinv = s.affAinv ∧ t.pfMat = s.pfMat ∧ t.holdsInverse n inv ∧
      ∀ k, k < pt.length / n →
        (∀ i, i < n → t.readLoc (.out (n * k + i)) = word (0x41 +
          (∑ j ∈ Finset.range n, (entry inv i j).val * (pt.getD (n * k + j) 0).val) % 26)) ∧
        t.recordIs k ([word k, word n] ++
          ((List.range 5).map fun i => if i < n then word (pt.getD (n * k + i) 0).val else 0) ++
          ((List.range 5).map fun i => if i < n then
            word ((∑ j ∈ Finset.range n, (entry inv i j).val * (pt.getD (n * k + j) 0).val) % 26) else 0) ++ [1]))

/-- 44_hill_matrix_inverse.md R202: HILL.INV, its errors in their order, and its frame. -/
def Obligations.HillInvResult : Prop :=
  decode 0x00000042#32 = .ok .hillInv ∧
  ∀ s : State,
    (¬ s.hillKeyOk → exec .hillInv s = .next (s.aborted 2)) ∧
    (s.hillKeyOk → s.hillKeyInverse = none → exec .hillInv s = .next (s.aborted 8)) ∧
    (∀ inv : SymMatrix, s.hillKeyOk → s.hillKeyInverse = some inv → ∃ t, exec .hillInv s = .next t ∧
      s.succeeded t 0 0 ∧ t.affAinv = s.affAinv ∧ t.pfMat = s.pfMat ∧ t.holdsInverse s.hillN.toNat inv)

/-- 44_hill_matrix_inverse.md R203 (a): HILL.DEC of the OUT of HILL.ENC under the same key gives the padded text. -/
def Obligations.HillRoundTrip : Prop :=
  ∀ s t u : State, s.Inv → u.Inv → s.cleanText ≠ [] → u.hillN = s.hillN → u.hillM = s.hillM →
    exec .hillEnc s = .next t → t.err = 0 → t.copiedToText u →
    ∃ v, exec .hillDec u = .next v ∧ v.err = 0 ∧ v.outIs (hillPad s.hillN.toNat s.cleanText)

/-- 10_state.md R31, 93_implementation_defined.md U10: the Hill operations do not depend on KEY nor on the elements of
HILL_M outside the n×n corner. -/
def Obligations.HillIgnoresUnusedOperands : Prop :=
  ∀ (i : Instr) (s u t v : State), (i = .hillEnc ∨ i = .hillDec ∨ i = .hillInv) → s.Inv → u.Inv →
    u.params = s.params → u.textLen = s.textLen →
    (∀ j, j < s.textLen.toNat → u.readLoc (.text j) = s.readLoc (.text j)) → u.hillN = s.hillN →
    (∀ r, r < s.hillN.toNat → ∀ c, c < s.hillN.toNat → u.hillEntry r c = s.hillEntry r c) →
    exec i s = .next t → exec i u = .next v →
    v.err = t.err ∧ v.outLen = t.outLen ∧ v.traceCnt = t.traceCnt ∧ (t.err = 0 → v.hillInv = t.hillInv) ∧
    (∀ j, j < t.outLen.toNat → v.readLoc (.out j) = t.readLoc (.out j)) ∧
    (∀ k f, k < t.traceCnt.toNat → v.readLoc (.trace k f) = t.readLoc (.trace k f))

/-! ### Enigma -/

/-- The rotor and reflector identifiers pass 45_enigma_rotor_path.md R225. -/
def Sys2Proof.Machine.State.selectionOk (s : State) : Prop :=
  (∀ i : Fin 3, 1 ≤ s.engRotor[i].toNat ∧ s.engRotor[i].toNat ≤ 5) ∧
  1 ≤ s.engRefl.toNat ∧ s.engRefl.toNat ≤ 2

/-- The start positions pass 45_enigma_rotor_path.md R225. -/
def Sys2Proof.Machine.State.positionsOk (s : State) : Prop := ∀ i : Fin 3, s.engPos[i].toNat ≤ 25

/-- The ring settings pass 45_enigma_rotor_path.md R225. -/
def Sys2Proof.Machine.State.ringsOk (s : State) : Prop := ∀ i : Fin 3, s.engRing[i].toNat ≤ 25

/-- The plugboard passes 45_enigma_rotor_path.md R226: at most 13 pairs, well-formed, no self pair, no letter twice. -/
def Sys2Proof.Machine.State.plugsOk (s : State) : Prop :=
  s.engPlugCnt.toNat ≤ 13 ∧
  ∀ k : Fin 13, k.val < s.engPlugCnt.toNat →
    s.engPlugA[k].toNat ≤ 25 ∧ s.engPlugB[k].toNat ≤ 25 ∧ s.engPlugA[k] ≠ s.engPlugB[k] ∧
    ∀ j : Fin 13, j.val < s.engPlugCnt.toNat → j ≠ k →
      s.engPlugA[j] ≠ s.engPlugA[k] ∧ s.engPlugA[j] ≠ s.engPlugB[k] ∧
      s.engPlugB[j] ≠ s.engPlugA[k] ∧ s.engPlugB[j] ≠ s.engPlugB[k]

/-- 45_enigma_rotor_path.md R226: the plugboard check passes exactly for well-formed, non-self, non-repeating pairs; the
map swaps the letters of each pair, fixes the others, and is an involution. -/
def Obligations.PlugboardRule : Prop :=
  ∀ s : State,
    (¬ s.plugsOk → enigPlug s = .error .invalidPlugboard) ∧
    (s.plugsOk → ∃ plug, enigPlug s = .ok plug ∧
      (∀ (k : Fin 13) (a b : Sym), k.val < s.engPlugCnt.toNat → s.engPlugA[k].toNat = a.val →
        s.engPlugB[k].toNat = b.val → plug[a] = b ∧ plug[b] = a) ∧
      (∀ x : Sym, (∀ k : Fin 13, k.val < s.engPlugCnt.toNat →
        s.engPlugA[k].toNat ≠ x.val ∧ s.engPlugB[k].toNat ≠ x.val) → plug[x] = x) ∧
      (∀ x : Sym, plug[plug[x]] = x))

/-- 45_enigma_rotor_path.md R224 to R226, R232: the errors of ENIG.RUN in their order. -/
def Obligations.EnigErrorOrder : Prop :=
  ∀ s : State,
    (¬ s.selectionOk → exec .enigRun s = .next (s.aborted 3)) ∧
    (s.selectionOk → ¬ s.positionsOk → exec .enigRun s = .next (s.aborted 4)) ∧
    (s.selectionOk → s.positionsOk → ¬ s.ringsOk → exec .enigRun s = .next (s.aborted 5)) ∧
    (s.selectionOk → s.positionsOk → s.ringsOk → ¬ s.plugsOk → exec .enigRun s = .next (s.aborted 6)) ∧
    (s.selectionOk → s.positionsOk → s.ringsOk → s.plugsOk → s.cleanText = [] → s.params.emptyTextIsError = true →
      exec .enigRun s = .next (s.aborted 1))

/-- 45_enigma_rotor_path.md R228 and R237: stepping, with the ring-adjusted notch tests made before any rotor moves. -/
def Obligations.SteppingRule : Prop :=
  ∀ (c : EnigmaConfig) (p : Positions) (mid right : Prop),
    (mid ↔ (p.middle.val : Int) = ((c.notchM.val : Int) - c.ringM.val) % 26) →
    (right ↔ (p.right.val : Int) = ((c.notchR.val : Int) - c.ringR.val) % 26) →
    (mid → ((enigStep c p).left.val = (p.left.val + 1) % 26)) ∧ (¬ mid → (enigStep c p).left = p.left) ∧
    (mid ∨ right → ((enigStep c p).middle.val = (p.middle.val + 1) % 26)) ∧
    (¬ mid → ¬ right → (enigStep c p).middle = p.middle) ∧
    (enigStep c p).right.val = (p.right.val + 1) % 26

/-- 45_enigma_rotor_path.md R229, R230: the forward formula, and the backward transform as the forward one's inverse, in
every wiring that is a permutation. -/
def Obligations.RotorTransforms : Prop :=
  ∀ (w : Wiring) (pos ring n : Sym), wiringIsPermutation w →
    (∀ j : Sym, (j.val : Int) = ((n.val : Int) + pos.val - ring.val) % 26 →
      ((enigFwd w pos ring n).val : Int) = ((w[j].val : Int) - pos.val + ring.val) % 26) ∧
    (∀ j : Sym, (w[j].val : Int) = ((n.val : Int) + pos.val - ring.val) % 26 →
      ((enigBwd w pos ring n).val : Int) = ((j.val : Int) - pos.val + ring.val) % 26) ∧
    enigBwd w pos ring (enigFwd w pos ring n) = n ∧ enigFwd w pos ring (enigBwd w pos ring n) = n

/-- 45_enigma_rotor_path.md R235: rotors II in the middle and III on the right, rings A, A, A, start A, D, U: the middle
rotor advances on two successive letters; with every left rotor and every CATALOG that meets R222. -/
def Obligations.DoubleStep : Prop :=
  ∀ s : State, catalogWf s.params.catalog → s.engRotor[1] = 2 → s.engRotor[2] = 3 → s.engRing = #v[0, 0, 0] →
    ∀ (plug : Plugboard) (c : EnigmaConfig), c = enigConfig s plug →
      enigStep c ⟨0, 3, 20⟩ = ⟨0, 3, 21⟩ ∧ enigStep c ⟨0, 3, 21⟩ = ⟨0, 4, 22⟩ ∧
      enigStep c ⟨0, 4, 22⟩ = ⟨1, 5, 23⟩ ∧ enigStep c ⟨1, 5, 23⟩ = ⟨1, 5, 24⟩

/-- The signal path of 45_enigma_rotor_path.md R231, written out: plugboard, right, middle, left rotor forward,
reflector, left, middle, right rotor backward, plugboard. -/
def Sys2Proof.Machine.signalPath (plug : Plugboard) (wL wM wR refl : Wiring) (gL gM gR : Sym) (p : Positions)
    (x : Sym) : Sym :=
  plug[enigBwd wR p.right gR (enigBwd wM p.middle gM (enigBwd wL p.left gL
    refl[enigFwd wL p.left gL (enigFwd wM p.middle gM (enigFwd wR p.right gR plug[x]))]))]

/-- 45_enigma_rotor_path.md R231 to R233: ENIG.RUN on a valid configuration, in terms of the registers: the positions
step from ENG_POS once before each letter, each letter goes through the signal path, and ENG_POS is not written. -/
def Obligations.EnigRunResult : Prop :=
  decode 0x00000050#32 = .ok .enigRun ∧
  ∀ (s : State) (plug : Plugboard) (l m r : Fin 5) (u : Fin 2) (pL pM pR gL gM gR : Sym) (c : EnigmaConfig),
    s.Inv → s.engRotor = #v[word (l.val + 1), word (m.val + 1), word (r.val + 1)] → s.engRefl = word (u.val + 1) →
    s.engPos = #v[word pL.val, word pM.val, word pR.val] → s.engRing = #v[word gL.val, word gM.val, word gR.val] →
    enigPlug s = .ok plug → (s.cleanText ≠ [] ∨ s.params.emptyTextIsError = false) →
    c.notchM = s.params.catalog.rotorNotch[m] → c.notchR = s.params.catalog.rotorNotch[r] →
    c.ringM = gM → c.ringR = gR →
    ∃ (t : State) (pos : Nat → Positions), exec .enigRun s = .next t ∧
      s.succeeded t s.cleanText.length s.cleanText.length ∧ s.outputsKept t ∧
      pos 0 = ⟨pL, pM, pR⟩ ∧ (∀ i, i < s.cleanText.length → pos (i + 1) = enigStep c (pos i)) ∧
      ∀ (i : Nat) (x y : Sym), s.cleanText[i]? = some x →
        y = signalPath plug s.params.catalog.rotorWiring[l] s.params.catalog.rotorWiring[m]
          s.params.catalog.rotorWiring[r] s.params.catalog.reflWiring[u] gL gM gR (pos (i + 1)) x →
        t.readLoc (.out i) = word (0x41 + y.val) ∧
        t.recordIs i [word i, word x.val, word (pos (i + 1)).left.val, word (pos (i + 1)).middle.val,
          word (pos (i + 1)).right.val, word gL.val, word gM.val, word gR.val, word (u.val + 1), word y.val,
          word (l.val + 1), word (m.val + 1), word (r.val + 1)]

/-- 45_enigma_rotor_path.md R234: running the result through the same configuration again gives the cleaned text, for
every CATALOG that meets R222. -/
def Obligations.EnigSelfReciprocal : Prop :=
  ∀ s t u : State, s.Inv → u.Inv → exec .enigRun s = .next t → t.err = 0 → u.params = s.params →
    u.engRotor = s.engRotor → u.engRefl = s.engRefl → u.engPos = s.engPos → u.engRing = s.engRing →
    u.engPlugCnt = s.engPlugCnt → u.engPlugA = s.engPlugA → u.engPlugB = s.engPlugB → t.copiedToText u →
    ∃ v, exec .enigRun u = .next v ∧ v.err = 0 ∧ v.outIs s.cleanText

/-- 45_enigma_rotor_path.md R236: no letter is enciphered to itself, for every CATALOG that meets R222. -/
def Obligations.EnigNoSelfEncipherment : Prop :=
  ∀ s t : State, s.Inv → exec .enigRun s = .next t → t.err = 0 →
    ∀ (i : Nat) (x : Sym), s.cleanText[i]? = some x → t.readLoc (.out i) ≠ word (0x41 + x.val)

/-! ### Every command -/

/-- 60_exceptions.md R281: a command other than NOP that ends with ERR not 0 has changed ERR, OUT_LEN, TRACE_CNT and
STATUS and nothing else; its code is one of 1 to 9. -/
def Obligations.AbortChangesNothingElse : Prop :=
  ∀ (i : Instr) (s t : State), i ≠ .nop → exec i s = .next t → t.err ≠ 0 →
    t = { s with err := t.err, outLen := 0, traceCnt := 0, status := 3 } ∧ 1 ≤ t.err.toNat ∧ t.err.toNat ≤ 9

/-- 10_state.md R43, the write half: what no command ever writes, and which output register belongs to which
commands. -/
def Obligations.CommandFrame : Prop :=
  ∀ (i : Instr) (s t : State), exec i s = .next t →
    s.inputsKept t ∧ (∀ a, a < outBase → t.cell a = s.cell a) ∧
    (i ≠ .affDec → i ≠ .affInv → i ≠ .clr → t.affAinv = s.affAinv) ∧
    (i ≠ .hillEnc → i ≠ .hillDec → i ≠ .hillInv → i ≠ .clr → t.hillInv = s.hillInv) ∧
    (i ≠ .pfEnc → i ≠ .pfDec → i ≠ .pfMat → i ≠ .clr → t.pfMat = s.pfMat)

/-- 10_state.md R43: "two identical commands issued one after the other with no host write between them leave identical
state": the second changes nothing. -/
def Obligations.RepeatedCommandChangesNothing : Prop :=
  ∀ (i : Instr) (s t : State), s.Inv → exec i s = .next t → exec i t = .next t

/-! ### The invariant -/

/-- The reset state is good (10_state.md R47). -/
def Obligations.ResetIsGood : Prop := State.reset.Inv

/-- Every step keeps the machine good: STATUS agrees with ERR, an error leaves no result, lengths stay within their
buffers (OUT_LEN under the default PF_CLEANUP, log entry 18), the output registers hold what their rules say, the
memory keeps its canonical form (10_state.md R22 to R38);
and no step changes the parameters (the model's own field, log entry 2). -/
def Obligations.StepKeepsGood : Prop :=
  ∀ s t : State, s.Inv → step s = .next t → t.Inv ∧ t.params = s.params
end

