-- ==== Sys2Proof/Laws/Alphabet.lean ====
section
/-! SUPPORT. Laws of the Alphabet Utilities: arithmetic mod 26, cleaning, and the codes of letters. -/

namespace Sys2Proof.Machine

theorem mod26_val (n : Int) : ((mod26 n).val : Int) = n % 26 := by
  unfold mod26 mod
  have := Int.emod_nonneg n (by decide : (26 : Int) ≠ 0)
  simp only [Int.toNat_of_nonneg this]

theorem mod26_eq_iff (n : Int) (x : Sym) : mod26 n = x ↔ n % 26 = (x.val : Int) := by
  rw [← mod26_val, Fin.ext_iff]
  omega

theorem mod26_natCast (x : Sym) : mod26 (x.val : Int) = x := by
  rw [mod26_eq_iff]; omega

/-- Only the residue matters. -/
theorem mod26_congr {m n : Int} (h : m % 26 = n % 26) : mod26 m = mod26 n := by
  rw [mod26_eq_iff, mod26_val, h]

theorem mem_allSyms (x : Sym) : x ∈ allSyms := by revert x; decide

theorem chr_toNat (x : Sym) : (chr x).toNat = 0x41 + x.val := by
  simp only [chr, word, BitVec.toNat_ofNat]; omega

/-- The code of a symbol is a letter that stands for it. -/
theorem symOf_chr (x : Sym) : symOf (chr x) = some x := by
  have := chr_toNat x
  simp only [symOf, this]
  rw [dif_pos (by omega)]
  congr 1
  exact Fin.ext (by simp)

/-- Cleaning the codes of symbols gives the symbols back. -/
theorem clean_map_chr (l : List Sym) : clean (l.map chr) = l := by
  simp [clean, List.filterMap_map, symOf_chr]

theorem clean_length_le (cells : List Word) : (clean cells).length ≤ cells.length := List.length_filterMap_le _ _

theorem State.textCells_length (s : State) : s.textCells.length = s.textLen.toNat := by simp [State.textCells]

theorem State.keyCells_length (s : State) : s.keyCells.length = s.keyLen.toNat := by simp [State.keyCells]

theorem State.cleanText_length_le (s : State) : s.cleanText.length ≤ s.textLen.toNat :=
  s.textCells_length ▸ clean_length_le s.textCells

theorem State.cleanKey_length_le (s : State) : s.cleanKey.length ≤ s.keyLen.toNat :=
  s.keyCells_length ▸ clean_length_le s.keyCells

/-- What the search of a modular inverse finds is one, in 1..25. -/
theorem modInv_some {a x : Nat} (h : modInv a = some x) : 1 ≤ x ∧ x ≤ 25 ∧ (a * x) % 26 = 1 := by
  unfold modInv at h
  have hp := List.find?_some h
  have hm := List.mem_of_find?_eq_some h
  rw [List.mem_range'_1] at hm
  simp only [mod, beq_iff_eq] at hp
  exact ⟨hm.1, by omega, by exact_mod_cast hp⟩

/-- The search depends on the residue alone. -/
theorem modInv_mod (a : Nat) : modInv (a % 26) = modInv a := by
  unfold modInv
  congr 1
  funext x
  have : ((a % 26 : Nat) * x : Int) % 26 = (a * x : Int) % 26 := by
    push_cast
    rw [Int.mul_emod, Int.emod_emod_of_dvd _ (by decide), ← Int.mul_emod]
  simp only [mod, this]

end Sys2Proof.Machine
end

