-- ==== Sys2Proof/Laws/Memory.lean ====
section
/-! SUPPORT. Laws of the buffer memory: what a block write does to every address, and that it keeps the canonical
form. -/

namespace Sys2Proof.Machine

theorem Memory.read?_append (m n : Memory) (a : Nat) :
    Memory.read? (m ++ n) a = (Memory.read? m a).or (Memory.read? n a) := by
  simp [Memory.read?, List.lookup_append]

theorem Memory.read?_eq_none_of_forall_ne (m : Memory) (a : Nat) (h : ∀ c ∈ m, c.1 ≠ a) :
    Memory.read? m a = none := by
  induction m with
  | nil => rfl
  | cons c m ih =>
    have hc : a ≠ c.1 := fun e => h c (by simp) e.symm
    have : (a == c.1) = false := by simpa using hc
    simp only [Memory.read?, List.lookup, this]
    exact ih fun d hd => h d (by simp [hd])

theorem Memory.read?_filter_of_pos (m : Memory) (a : Nat) (p : Nat → Bool) (h : p a = true) :
    Memory.read? (m.filter fun c => p c.1) a = Memory.read? m a := by
  induction m with
  | nil => rfl
  | cons c m ih =>
    obtain ⟨b, w⟩ := c
    by_cases hb : a = b
    · subst hb; simp [Memory.read?, List.filter, h, List.lookup]
    · have : (a == b) = false := by simpa using hb
      cases hp : p b <;> simpa [Memory.read?, List.filter, hp, List.lookup, this] using ih

theorem Memory.read?_filter_of_neg (m : Memory) (a : Nat) (p : Nat → Bool) (h : p a = false) :
    Memory.read? (m.filter fun c => p c.1) a = none := by
  refine Memory.read?_eq_none_of_forall_ne _ _ fun c hc e => ?_
  have := (List.mem_filter.mp hc).2
  rw [e, h] at this
  exact absurd this (by decide)

/-- The entries of a block, by address. -/
theorem Memory.read?_mapIdx (ws : List Word) (base a : Nat) :
    Memory.read? (ws.mapIdx fun i w => (base + i, w)) a = if base ≤ a then ws[a - base]? else none := by
  induction ws generalizing base with
  | nil => simp [Memory.read?]
  | cons w ws ih =>
    have hs : (List.mapIdx (fun i v => (base + (i + 1), v)) ws) =
        List.mapIdx (fun i v => (base + 1 + i, v)) ws := by
      congr 1; funext i v; rw [Nat.add_right_comm, Nat.add_assoc]
    rw [List.mapIdx_cons, hs]
    by_cases h0 : a = base
    · subst h0; simp [Memory.read?, List.lookup]
    · have hne : (a == base) = false := by simpa using h0
      have := ih (base + 1)
      simp only [Memory.read?] at this ⊢
      simp only [Nat.add_zero, List.lookup, hne, this]
      by_cases hlt : base ≤ a
      · have h1 : base + 1 ≤ a := by omega
        obtain ⟨d, rfl⟩ : ∃ d, a = base + 1 + d := ⟨a - (base + 1), by omega⟩
        have e1 : base + 1 + d - (base + 1) = d := by omega
        have e2 : base + 1 + d - base = d + 1 := by omega
        simp [hlt, h1, e1, e2]
      · have h1 : ¬ base + 1 ≤ a := by omega
        simp [hlt, h1]

/-- A block write, read back at every address: the block inside it, the old memory outside. -/
theorem Memory.read?_writeBlock (m : Memory) (base a : Nat) (ws : List Word) :
    Memory.read? (m.writeBlock base ws) a =
      if base ≤ a ∧ a < base + ws.length then ws[a - base]? else Memory.read? m a := by
  unfold Memory.writeBlock
  rw [Memory.read?_append, Memory.read?_append, Memory.read?_mapIdx]
  by_cases h1 : a < base
  · have e1 := Memory.read?_filter_of_pos m a (fun x => decide (x < base)) (by simpa using h1)
    have e2 := Memory.read?_filter_of_neg m a (fun x => decide (base + ws.length ≤ x)) (by simp; omega)
    rw [e1, e2, if_neg (by omega), if_neg (by omega)]
    simp
  · have e1 := Memory.read?_filter_of_neg m a (fun x => decide (x < base)) (by simpa using h1)
    rw [e1, if_pos (by omega : base ≤ a)]
    by_cases h2 : a < base + ws.length
    · have hl : a - base < ws.length := by omega
      rw [if_pos ⟨by omega, h2⟩]
      simp [hl]
    · have e2 := Memory.read?_filter_of_pos m a (fun x => decide (base + ws.length ≤ x)) (by simp; omega)
      rw [e2, if_neg (by omega), List.getElem?_eq_none (by omega)]
      simp

/-- A single write, read back at every address. -/
theorem Memory.read?_write (m : Memory) (a b : Nat) (w : Word) :
    Memory.read? (m.write a w) b = if b = a then some w else Memory.read? m b := by
  unfold Memory.write
  rw [Memory.read?_writeBlock]
  by_cases h : b = a
  · subst h; simp
  · simp only [List.length_singleton, if_neg h]
    rw [if_neg (by omega)]

/-- A block write keeps the canonical form. -/
theorem Memory.wf_writeBlock (m : Memory) (base : Nat) (ws : List Word) (h : m.wf) : (m.writeBlock base ws).wf := by
  unfold Memory.wf Memory.writeBlock at *
  rw [List.pairwise_append, List.pairwise_append]
  refine ⟨⟨h.filter _, ?_, ?_⟩, h.filter _, ?_⟩
  · rw [List.pairwise_iff_getElem]
    intro i j hi hj hij
    simpa using hij
  · intro c hc d hd
    obtain ⟨i, hi, rfl⟩ := List.mem_mapIdx.mp hd
    have := (List.mem_filter.mp hc).2
    simp at this ⊢
    omega
  · intro c hc d hd
    have hd2 := (List.mem_filter.mp hd).2
    simp at hd2
    rcases List.mem_append.mp hc with hc | hc
    · have := (List.mem_filter.mp hc).2
      simp at this
      omega
    · obtain ⟨i, hi, rfl⟩ := List.mem_mapIdx.mp hc
      simp
      omega

/-- A single write keeps the canonical form. -/
theorem Memory.wf_write (m : Memory) (a : Nat) (w : Word) (h : m.wf) : (m.write a w).wf :=
  Memory.wf_writeBlock m a [w] h

/-- The memory of the reset state has the canonical form. -/
theorem Memory.wf_reset : State.reset.mem.wf := List.Pairwise.nil

/-- Every entry of a block write is an old entry or lies in the block. -/
theorem Memory.mem_writeBlock (m : Memory) (base : Nat) (ws : List Word) (c : Nat × Word)
    (h : c ∈ m.writeBlock base ws) : c ∈ m ∨ (base ≤ c.1 ∧ c.1 < base + ws.length) := by
  unfold Memory.writeBlock at h
  rcases List.mem_append.mp h with h | h
  · rcases List.mem_append.mp h with h | h
    · exact .inl (List.mem_filter.mp h).1
    · obtain ⟨i, hi, rfl⟩ := List.mem_mapIdx.mp h
      exact .inr ⟨by simp, by simpa using hi⟩
  · exact .inl (List.mem_filter.mp h).1

/-- A buffer cell depends on the memory and on the number of resets alone. -/
theorem State.cell_congr (s t : State) (a : Nat) (hr : t.resets = s.resets)
    (hm : Memory.read? t.mem a = Memory.read? s.mem a) : t.cell a = s.cell a := by
  simp [State.cell, hr, hm]

end Sys2Proof.Machine
end

