-- ==== Sys2Proof/Laws/State.lean ====
section
/-! SUPPORT. One lemma per field of State per named update of it: what the field holds afterwards. -/

namespace Sys2Proof.Machine

/-! ### `storeCmd` -/

@[simp] theorem State.storeCmd_params (s : State) (w : Word) : (s.storeCmd w).params = s.params := rfl
@[simp] theorem State.storeCmd_pending (s : State) (w : Word) : (s.storeCmd w).pending = s.pending := rfl
@[simp] theorem State.storeCmd_replies (s : State) (w : Word) : (s.storeCmd w).replies = s.replies := rfl
@[simp] theorem State.storeCmd_resets (s : State) (w : Word) : (s.storeCmd w).resets = s.resets := rfl
@[simp] theorem State.storeCmd_cmd (s : State) (w : Word) : (s.storeCmd w).cmd = w := rfl
@[simp] theorem State.storeCmd_status (s : State) (w : Word) : (s.storeCmd w).status = s.status := rfl
@[simp] theorem State.storeCmd_err (s : State) (w : Word) : (s.storeCmd w).err = s.err := rfl
@[simp] theorem State.storeCmd_textLen (s : State) (w : Word) : (s.storeCmd w).textLen = s.textLen := rfl
@[simp] theorem State.storeCmd_keyLen (s : State) (w : Word) : (s.storeCmd w).keyLen = s.keyLen := rfl
@[simp] theorem State.storeCmd_outLen (s : State) (w : Word) : (s.storeCmd w).outLen = s.outLen := rfl
@[simp] theorem State.storeCmd_traceCnt (s : State) (w : Word) : (s.storeCmd w).traceCnt = s.traceCnt := rfl
@[simp] theorem State.storeCmd_affA (s : State) (w : Word) : (s.storeCmd w).affA = s.affA := rfl
@[simp] theorem State.storeCmd_affB (s : State) (w : Word) : (s.storeCmd w).affB = s.affB := rfl
@[simp] theorem State.storeCmd_affAinv (s : State) (w : Word) : (s.storeCmd w).affAinv = s.affAinv := rfl
@[simp] theorem State.storeCmd_hillN (s : State) (w : Word) : (s.storeCmd w).hillN = s.hillN := rfl
@[simp] theorem State.storeCmd_hillM (s : State) (w : Word) : (s.storeCmd w).hillM = s.hillM := rfl
@[simp] theorem State.storeCmd_hillInv (s : State) (w : Word) : (s.storeCmd w).hillInv = s.hillInv := rfl
@[simp] theorem State.storeCmd_pfMat (s : State) (w : Word) : (s.storeCmd w).pfMat = s.pfMat := rfl
@[simp] theorem State.storeCmd_engRotor (s : State) (w : Word) : (s.storeCmd w).engRotor = s.engRotor := rfl
@[simp] theorem State.storeCmd_engRefl (s : State) (w : Word) : (s.storeCmd w).engRefl = s.engRefl := rfl
@[simp] theorem State.storeCmd_engPos (s : State) (w : Word) : (s.storeCmd w).engPos = s.engPos := rfl
@[simp] theorem State.storeCmd_engRing (s : State) (w : Word) : (s.storeCmd w).engRing = s.engRing := rfl
@[simp] theorem State.storeCmd_engPlugCnt (s : State) (w : Word) : (s.storeCmd w).engPlugCnt = s.engPlugCnt := rfl
@[simp] theorem State.storeCmd_engPlugA (s : State) (w : Word) : (s.storeCmd w).engPlugA = s.engPlugA := rfl
@[simp] theorem State.storeCmd_engPlugB (s : State) (w : Word) : (s.storeCmd w).engPlugB = s.engPlugB := rfl
@[simp] theorem State.storeCmd_mem (s : State) (w : Word) : (s.storeCmd w).mem = s.mem := rfl

/-! ### `freshResult` -/

@[simp] theorem State.freshResult_params (s : State) : s.freshResult.params = s.params := rfl
@[simp] theorem State.freshResult_pending (s : State) : s.freshResult.pending = s.pending := rfl
@[simp] theorem State.freshResult_replies (s : State) : s.freshResult.replies = s.replies := rfl
@[simp] theorem State.freshResult_resets (s : State) : s.freshResult.resets = s.resets := rfl
@[simp] theorem State.freshResult_cmd (s : State) : s.freshResult.cmd = s.cmd := rfl
@[simp] theorem State.freshResult_status (s : State) : s.freshResult.status = s.status := rfl
@[simp] theorem State.freshResult_err (s : State) : s.freshResult.err = 0 := rfl
@[simp] theorem State.freshResult_textLen (s : State) : s.freshResult.textLen = s.textLen := rfl
@[simp] theorem State.freshResult_keyLen (s : State) : s.freshResult.keyLen = s.keyLen := rfl
@[simp] theorem State.freshResult_outLen (s : State) : s.freshResult.outLen = 0 := rfl
@[simp] theorem State.freshResult_traceCnt (s : State) : s.freshResult.traceCnt = 0 := rfl
@[simp] theorem State.freshResult_affA (s : State) : s.freshResult.affA = s.affA := rfl
@[simp] theorem State.freshResult_affB (s : State) : s.freshResult.affB = s.affB := rfl
@[simp] theorem State.freshResult_affAinv (s : State) : s.freshResult.affAinv = s.affAinv := rfl
@[simp] theorem State.freshResult_hillN (s : State) : s.freshResult.hillN = s.hillN := rfl
@[simp] theorem State.freshResult_hillM (s : State) : s.freshResult.hillM = s.hillM := rfl
@[simp] theorem State.freshResult_hillInv (s : State) : s.freshResult.hillInv = s.hillInv := rfl
@[simp] theorem State.freshResult_pfMat (s : State) : s.freshResult.pfMat = s.pfMat := rfl
@[simp] theorem State.freshResult_engRotor (s : State) : s.freshResult.engRotor = s.engRotor := rfl
@[simp] theorem State.freshResult_engRefl (s : State) : s.freshResult.engRefl = s.engRefl := rfl
@[simp] theorem State.freshResult_engPos (s : State) : s.freshResult.engPos = s.engPos := rfl
@[simp] theorem State.freshResult_engRing (s : State) : s.freshResult.engRing = s.engRing := rfl
@[simp] theorem State.freshResult_engPlugCnt (s : State) : s.freshResult.engPlugCnt = s.engPlugCnt := rfl
@[simp] theorem State.freshResult_engPlugA (s : State) : s.freshResult.engPlugA = s.engPlugA := rfl
@[simp] theorem State.freshResult_engPlugB (s : State) : s.freshResult.engPlugB = s.engPlugB := rfl
@[simp] theorem State.freshResult_mem (s : State) : s.freshResult.mem = s.mem := rfl

/-! ### `finish` -/

@[simp] theorem State.finish_params (s : State) : s.finish.params = s.params := rfl
@[simp] theorem State.finish_pending (s : State) : s.finish.pending = s.pending := rfl
@[simp] theorem State.finish_replies (s : State) : s.finish.replies = s.replies := rfl
@[simp] theorem State.finish_resets (s : State) : s.finish.resets = s.resets := rfl
@[simp] theorem State.finish_cmd (s : State) : s.finish.cmd = s.cmd := rfl
@[simp] theorem State.finish_status (s : State) : s.finish.status = statusWord true (errFlag s.err) := rfl
@[simp] theorem State.finish_err (s : State) : s.finish.err = s.err := rfl
@[simp] theorem State.finish_textLen (s : State) : s.finish.textLen = s.textLen := rfl
@[simp] theorem State.finish_keyLen (s : State) : s.finish.keyLen = s.keyLen := rfl
@[simp] theorem State.finish_outLen (s : State) : s.finish.outLen = s.outLen := rfl
@[simp] theorem State.finish_traceCnt (s : State) : s.finish.traceCnt = s.traceCnt := rfl
@[simp] theorem State.finish_affA (s : State) : s.finish.affA = s.affA := rfl
@[simp] theorem State.finish_affB (s : State) : s.finish.affB = s.affB := rfl
@[simp] theorem State.finish_affAinv (s : State) : s.finish.affAinv = s.affAinv := rfl
@[simp] theorem State.finish_hillN (s : State) : s.finish.hillN = s.hillN := rfl
@[simp] theorem State.finish_hillM (s : State) : s.finish.hillM = s.hillM := rfl
@[simp] theorem State.finish_hillInv (s : State) : s.finish.hillInv = s.hillInv := rfl
@[simp] theorem State.finish_pfMat (s : State) : s.finish.pfMat = s.pfMat := rfl
@[simp] theorem State.finish_engRotor (s : State) : s.finish.engRotor = s.engRotor := rfl
@[simp] theorem State.finish_engRefl (s : State) : s.finish.engRefl = s.engRefl := rfl
@[simp] theorem State.finish_engPos (s : State) : s.finish.engPos = s.engPos := rfl
@[simp] theorem State.finish_engRing (s : State) : s.finish.engRing = s.engRing := rfl
@[simp] theorem State.finish_engPlugCnt (s : State) : s.finish.engPlugCnt = s.engPlugCnt := rfl
@[simp] theorem State.finish_engPlugA (s : State) : s.finish.engPlugA = s.engPlugA := rfl
@[simp] theorem State.finish_engPlugB (s : State) : s.finish.engPlugB = s.engPlugB := rfl
@[simp] theorem State.finish_mem (s : State) : s.finish.mem = s.mem := rfl

/-! ### `commit` -/

@[simp] theorem State.commit_params (s : State) (r : Result) : (s.commit r).params = s.params := rfl
@[simp] theorem State.commit_pending (s : State) (r : Result) : (s.commit r).pending = s.pending := rfl
@[simp] theorem State.commit_replies (s : State) (r : Result) : (s.commit r).replies = s.replies := rfl
@[simp] theorem State.commit_resets (s : State) (r : Result) : (s.commit r).resets = s.resets := rfl
@[simp] theorem State.commit_cmd (s : State) (r : Result) : (s.commit r).cmd = s.cmd := rfl
@[simp] theorem State.commit_status (s : State) (r : Result) : (s.commit r).status = s.status := rfl
@[simp] theorem State.commit_err (s : State) (r : Result) : (s.commit r).err = s.err := rfl
@[simp] theorem State.commit_textLen (s : State) (r : Result) : (s.commit r).textLen = s.textLen := rfl
@[simp] theorem State.commit_keyLen (s : State) (r : Result) : (s.commit r).keyLen = s.keyLen := rfl
@[simp] theorem State.commit_outLen (s : State) (r : Result) : (s.commit r).outLen = outLength r.out := rfl
@[simp] theorem State.commit_traceCnt (s : State) (r : Result) : (s.commit r).traceCnt = word r.trace.length := rfl
@[simp] theorem State.commit_affA (s : State) (r : Result) : (s.commit r).affA = s.affA := rfl
@[simp] theorem State.commit_affB (s : State) (r : Result) : (s.commit r).affB = s.affB := rfl
@[simp] theorem State.commit_affAinv (s : State) (r : Result) : (s.commit r).affAinv = r.affAinv.getD s.affAinv := rfl
@[simp] theorem State.commit_hillN (s : State) (r : Result) : (s.commit r).hillN = s.hillN := rfl
@[simp] theorem State.commit_hillM (s : State) (r : Result) : (s.commit r).hillM = s.hillM := rfl
@[simp] theorem State.commit_hillInv (s : State) (r : Result) : (s.commit r).hillInv = r.hillInv.getD s.hillInv := rfl
@[simp] theorem State.commit_pfMat (s : State) (r : Result) : (s.commit r).pfMat = r.pfMat.getD s.pfMat := rfl
@[simp] theorem State.commit_engRotor (s : State) (r : Result) : (s.commit r).engRotor = s.engRotor := rfl
@[simp] theorem State.commit_engRefl (s : State) (r : Result) : (s.commit r).engRefl = s.engRefl := rfl
@[simp] theorem State.commit_engPos (s : State) (r : Result) : (s.commit r).engPos = s.engPos := rfl
@[simp] theorem State.commit_engRing (s : State) (r : Result) : (s.commit r).engRing = s.engRing := rfl
@[simp] theorem State.commit_engPlugCnt (s : State) (r : Result) : (s.commit r).engPlugCnt = s.engPlugCnt := rfl
@[simp] theorem State.commit_engPlugA (s : State) (r : Result) : (s.commit r).engPlugA = s.engPlugA := rfl
@[simp] theorem State.commit_engPlugB (s : State) (r : Result) : (s.commit r).engPlugB = s.engPlugB := rfl
@[simp] theorem State.commit_mem (s : State) (r : Result) : (s.commit r).mem = (s.mem.writeBlock outBase (outCells s.params r.out)).writeBlock traceBase (r.trace.flatMap Vector.toList) := rfl

/-! ### `raise` -/

@[simp] theorem State.raise_params (s : State) (e : ErrorCode) : (s.raise e).params = s.params := rfl
@[simp] theorem State.raise_pending (s : State) (e : ErrorCode) : (s.raise e).pending = s.pending := rfl
@[simp] theorem State.raise_replies (s : State) (e : ErrorCode) : (s.raise e).replies = s.replies := rfl
@[simp] theorem State.raise_resets (s : State) (e : ErrorCode) : (s.raise e).resets = s.resets := rfl
@[simp] theorem State.raise_cmd (s : State) (e : ErrorCode) : (s.raise e).cmd = s.cmd := rfl
@[simp] theorem State.raise_status (s : State) (e : ErrorCode) : (s.raise e).status = statusWord true true := rfl
@[simp] theorem State.raise_err (s : State) (e : ErrorCode) : (s.raise e).err = errorWord e := rfl
@[simp] theorem State.raise_textLen (s : State) (e : ErrorCode) : (s.raise e).textLen = s.textLen := rfl
@[simp] theorem State.raise_keyLen (s : State) (e : ErrorCode) : (s.raise e).keyLen = s.keyLen := rfl
@[simp] theorem State.raise_outLen (s : State) (e : ErrorCode) : (s.raise e).outLen = 0 := rfl
@[simp] theorem State.raise_traceCnt (s : State) (e : ErrorCode) : (s.raise e).traceCnt = 0 := rfl
@[simp] theorem State.raise_affA (s : State) (e : ErrorCode) : (s.raise e).affA = s.affA := rfl
@[simp] theorem State.raise_affB (s : State) (e : ErrorCode) : (s.raise e).affB = s.affB := rfl
@[simp] theorem State.raise_affAinv (s : State) (e : ErrorCode) : (s.raise e).affAinv = s.affAinv := rfl
@[simp] theorem State.raise_hillN (s : State) (e : ErrorCode) : (s.raise e).hillN = s.hillN := rfl
@[simp] theorem State.raise_hillM (s : State) (e : ErrorCode) : (s.raise e).hillM = s.hillM := rfl
@[simp] theorem State.raise_hillInv (s : State) (e : ErrorCode) : (s.raise e).hillInv = s.hillInv := rfl
@[simp] theorem State.raise_pfMat (s : State) (e : ErrorCode) : (s.raise e).pfMat = s.pfMat := rfl
@[simp] theorem State.raise_engRotor (s : State) (e : ErrorCode) : (s.raise e).engRotor = s.engRotor := rfl
@[simp] theorem State.raise_engRefl (s : State) (e : ErrorCode) : (s.raise e).engRefl = s.engRefl := rfl
@[simp] theorem State.raise_engPos (s : State) (e : ErrorCode) : (s.raise e).engPos = s.engPos := rfl
@[simp] theorem State.raise_engRing (s : State) (e : ErrorCode) : (s.raise e).engRing = s.engRing := rfl
@[simp] theorem State.raise_engPlugCnt (s : State) (e : ErrorCode) : (s.raise e).engPlugCnt = s.engPlugCnt := rfl
@[simp] theorem State.raise_engPlugA (s : State) (e : ErrorCode) : (s.raise e).engPlugA = s.engPlugA := rfl
@[simp] theorem State.raise_engPlugB (s : State) (e : ErrorCode) : (s.raise e).engPlugB = s.engPlugB := rfl
@[simp] theorem State.raise_mem (s : State) (e : ErrorCode) : (s.raise e).mem = s.mem := rfl

/-! ### `clearOutputs` -/

@[simp] theorem State.clearOutputs_params (s : State) : s.clearOutputs.params = s.params := rfl
@[simp] theorem State.clearOutputs_pending (s : State) : s.clearOutputs.pending = s.pending := rfl
@[simp] theorem State.clearOutputs_replies (s : State) : s.clearOutputs.replies = s.replies := rfl
@[simp] theorem State.clearOutputs_resets (s : State) : s.clearOutputs.resets = s.resets := rfl
@[simp] theorem State.clearOutputs_cmd (s : State) : s.clearOutputs.cmd = s.cmd := rfl
@[simp] theorem State.clearOutputs_status (s : State) : s.clearOutputs.status = 0 := rfl
@[simp] theorem State.clearOutputs_err (s : State) : s.clearOutputs.err = 0 := rfl
@[simp] theorem State.clearOutputs_textLen (s : State) : s.clearOutputs.textLen = s.textLen := rfl
@[simp] theorem State.clearOutputs_keyLen (s : State) : s.clearOutputs.keyLen = s.keyLen := rfl
@[simp] theorem State.clearOutputs_outLen (s : State) : s.clearOutputs.outLen = 0 := rfl
@[simp] theorem State.clearOutputs_traceCnt (s : State) : s.clearOutputs.traceCnt = 0 := rfl
@[simp] theorem State.clearOutputs_affA (s : State) : s.clearOutputs.affA = s.affA := rfl
@[simp] theorem State.clearOutputs_affB (s : State) : s.clearOutputs.affB = s.affB := rfl
@[simp] theorem State.clearOutputs_affAinv (s : State) : s.clearOutputs.affAinv = 0 := rfl
@[simp] theorem State.clearOutputs_hillN (s : State) : s.clearOutputs.hillN = s.hillN := rfl
@[simp] theorem State.clearOutputs_hillM (s : State) : s.clearOutputs.hillM = s.hillM := rfl
@[simp] theorem State.clearOutputs_hillInv (s : State) : s.clearOutputs.hillInv = Vector.replicate 25 0 := rfl
@[simp] theorem State.clearOutputs_pfMat (s : State) : s.clearOutputs.pfMat = Vector.replicate 25 0 := rfl
@[simp] theorem State.clearOutputs_engRotor (s : State) : s.clearOutputs.engRotor = s.engRotor := rfl
@[simp] theorem State.clearOutputs_engRefl (s : State) : s.clearOutputs.engRefl = s.engRefl := rfl
@[simp] theorem State.clearOutputs_engPos (s : State) : s.clearOutputs.engPos = s.engPos := rfl
@[simp] theorem State.clearOutputs_engRing (s : State) : s.clearOutputs.engRing = s.engRing := rfl
@[simp] theorem State.clearOutputs_engPlugCnt (s : State) : s.clearOutputs.engPlugCnt = s.engPlugCnt := rfl
@[simp] theorem State.clearOutputs_engPlugA (s : State) : s.clearOutputs.engPlugA = s.engPlugA := rfl
@[simp] theorem State.clearOutputs_engPlugB (s : State) : s.clearOutputs.engPlugB = s.engPlugB := rfl
@[simp] theorem State.clearOutputs_mem (s : State) : s.clearOutputs.mem = s.mem := rfl

end Sys2Proof.Machine
end

