-- ==== Sys2Proof/Laws/Operation.lean ====
section
/-! SUPPORT. Laws of the course of a command: what a commit leaves in every buffer cell, and the two ways an
operation ends. -/

namespace Sys2Proof.Machine

/-! ### STATUS words -/

@[simp] theorem statusWord_true_false : statusWord true false = 1#32 := by decide

@[simp] theorem statusWord_true_true : statusWord true true = 3#32 := by decide

@[simp] theorem statusWord_false_false : statusWord false false = 0#32 := by decide

@[simp] theorem errFlag_zero : errFlag 0#32 = false := by decide

theorem errorWord_ne_zero (e : ErrorCode) : errorWord e ≠ 0 := by cases e <;> decide

theorem errorWord_le_ten (e : ErrorCode) : (errorWord e).toNat ≤ 10 := by cases e <;> decide

/-! ### Records and the trace block -/

theorem record_getElem (fields : List Word) (f : Fin 16) : (record fields)[f] = fields.getD f.val 0 := by
  simp [record]

theorem flatMap_toList_length (rs : List Record) : (rs.flatMap Vector.toList).length = 16 * rs.length := by
  induction rs with
  | nil => rfl
  | cons r rs ih => simp [List.flatMap_cons, ih]; omega

/-- Word `f` of record `k` stands at offset `16k + f` of the trace block. -/
theorem flatMap_toList_getElem? (rs : List Record) (k : Nat) (f : Fin 16) (h : k < rs.length) :
    (rs.flatMap Vector.toList)[16 * k + f.val]? = some rs[k][f] := by
  induction rs generalizing k with
  | nil => simp at h
  | cons r rs ih =>
    cases k with
    | zero =>
      rw [List.flatMap_cons, List.getElem?_append_left (by simp)]
      simp
    | succ k =>
      rw [List.flatMap_cons, List.getElem?_append_right (by simp; omega)]
      have e : 16 * (k + 1) + f.val - r.toList.length = 16 * k + f.val := by simp; omega
      rw [e]
      simpa using ih k (by simpa using h)

/-! ### The result in OUT -/

@[simp] theorem outCells_length (p : Params) (out : List Sym) :
    (outCells p out).length = min out.length (outMax p) := by
  simp [outCells, Nat.min_comm]

/-- The word of a letter that has a cell. -/
theorem outCells_getElem? (p : Params) (out : List Sym) (i : Nat) (h : i < outMax p) :
    (outCells p out)[i]? = out[i]?.map chr := by
  simp [outCells, h]

/-- A result that fits OUT is written whole. -/
theorem outCells_of_le (p : Params) (out : List Sym) (h : out.length ≤ outMax p) : outCells p out = out.map chr :=
  List.take_of_length_le (by simpa using h)

theorem outLength_of_lt (out : List Sym) (h : out.length < 2 ^ 32) : outLength out = word out.length := if_pos h

@[simp] theorem outLength_nil : outLength [] = 0 := rfl

/-- PF.DEC of an empty text gives no letters, whatever PF_CLEANUP is. -/
@[simp] theorem pfDecLetters_nil (c : Cleanup) : pfDecLetters c [] = [] := rfl

/-- PF.DEC of a text gives PF_CLEANUP of its raw list. -/
theorem pfDecLetters_of_ne_nil (c : Cleanup) (raw : List Sym) (h : raw ≠ []) :
    pfDecLetters c raw = applyCleanup c raw := by
  simp [pfDecLetters, h]

/-! ### What a commit leaves in the buffer cells -/

/-- Every buffer cell after a commit: the trace block, the OUT block, the old cell. -/
theorem State.cell_commit (s : State) (r : Result) (a : Nat) :
    (s.commit r).cell a =
      if traceBase ≤ a ∧ a < traceBase + 16 * r.trace.length then
        ((r.trace.flatMap Vector.toList)[a - traceBase]?).getD (Config.unwrittenCell s.resets a)
      else if outBase ≤ a ∧ a < outBase + min r.out.length (outMax s.params) then
        ((outCells s.params r.out)[a - outBase]?).getD (Config.unwrittenCell s.resets a)
      else s.cell a := by
  simp only [State.cell, State.commit_mem, State.commit_resets, Memory.read?_writeBlock, flatMap_toList_length,
    outCells_length]
  split <;> [rfl; (split <;> rfl)]

/-- OUT[i] after a commit, for the letters the operation gave that have a cell. -/
theorem State.readLoc_out_commit (s : State) (r : Result) (i : Nat) (h : i < r.out.length)
    (hm : i < outMax s.params) (hb : outMax s.params ≤ 0x4000) : (s.commit r).readLoc (.out i) = chr r.out[i] := by
  simp only [State.readLoc]
  rw [State.cell_commit, if_neg (by simp only [outBase, traceBase]; omega), if_pos (by simp only [outBase]; omega),
    Nat.add_sub_cancel_left, outCells_getElem? _ _ _ hm]
  simp [h]

/-- Word `f` of record `k` after a commit, for the records the operation gave. -/
theorem State.readLoc_trace_commit (s : State) (r : Result) (k : Nat) (f : Fin 16) (h : k < r.trace.length) :
    (s.commit r).readLoc (.trace k f) = r.trace[k][f] := by
  simp only [State.readLoc]
  have hf := f.isLt
  rw [State.cell_commit, if_pos (by simp only [traceBase]; omega)]
  have e : traceBase + 16 * k + f.val - traceBase = 16 * k + f.val := by omega
  rw [e, flatMap_toList_getElem? _ _ _ h]
  rfl

/-- A commit leaves every other buffer cell as it was. -/
theorem State.cell_commit_of_outside (s : State) (r : Result) (a : Nat)
    (ho : a < outBase ∨ outBase + min r.out.length (outMax s.params) ≤ a)
    (ht : a < traceBase ∨ traceBase + 16 * r.trace.length ≤ a) : (s.commit r).cell a = s.cell a := by
  rw [State.cell_commit, if_neg (by omega), if_neg (by omega)]

@[simp] theorem State.cell_finish (s : State) (a : Nat) : s.finish.cell a = s.cell a := rfl

@[simp] theorem State.cell_freshResult (s : State) (a : Nat) : s.freshResult.cell a = s.cell a := rfl

@[simp] theorem State.cell_raise (s : State) (e : ErrorCode) (a : Nat) : (s.raise e).cell a = s.cell a := rfl

@[simp] theorem State.cell_storeCmd (s : State) (w : Word) (a : Nat) : (s.storeCmd w).cell a = s.cell a := rfl

@[simp] theorem State.cell_clearOutputs (s : State) (a : Nat) : s.clearOutputs.cell a = s.cell a := rfl

/-! ### The operands do not depend on the result registers -/

@[simp] theorem State.cleanText_freshResult (s : State) : s.freshResult.cleanText = s.cleanText := rfl

@[simp] theorem State.cleanKey_freshResult (s : State) : s.freshResult.cleanKey = s.cleanKey := rfl

@[simp] theorem State.textCells_freshResult (s : State) : s.freshResult.textCells = s.textCells := rfl

@[simp] theorem State.hillKey_freshResult (s : State) : s.freshResult.hillKey = s.hillKey := rfl

@[simp] theorem State.hillKeyValid_freshResult (s : State) : s.freshResult.hillKeyValid = s.hillKeyValid := rfl

@[simp] theorem enigScalarError_freshResult (s : State) : enigScalarError s.freshResult = enigScalarError s := rfl

@[simp] theorem enigPlug_freshResult (s : State) : enigPlug s.freshResult = enigPlug s := rfl

@[simp] theorem enigConfig_freshResult (s : State) (p : Plugboard) : enigConfig s.freshResult p = enigConfig s p := rfl

/-! ### The two ways an operation ends -/

/-- An operation whose body gives a result commits it. -/
theorem runOperation_of_ok (body : State → Except ErrorCode Result) (s : State) (r : Result)
    (h : body s.freshResult = .ok r) : runOperation body s = (s.freshResult.commit r).finish := by
  simp [runOperation, h]

/-- An operation whose body raises an error aborts, and changes nothing but ERR, OUT_LEN, TRACE_CNT and STATUS. -/
theorem runOperation_of_error (body : State → Except ErrorCode Result) (s : State) (e : ErrorCode)
    (h : body s.freshResult = .error e) :
    runOperation body s = { s with err := errorWord e, outLen := 0, traceCnt := 0, status := 3 } := by
  simp only [runOperation, h]
  rfl

/-- What an operation can leave: a committed result with ERR = 0, or an abort. -/
theorem runOperation_cases (body : State → Except ErrorCode Result) (s : State) :
    (∃ r, body s.freshResult = .ok r ∧ runOperation body s = (s.freshResult.commit r).finish ∧
      (runOperation body s).err = 0 ∧ (runOperation body s).status = 1) ∨
    (∃ e, body s.freshResult = .error e ∧
      runOperation body s = { s with err := errorWord e, outLen := 0, traceCnt := 0, status := 3 }) := by
  cases h : body s.freshResult with
  | ok r => exact .inl ⟨r, rfl, runOperation_of_ok body s r h, by simp [runOperation, h], by simp [runOperation, h]⟩
  | error e => exact .inr ⟨e, rfl, runOperation_of_error body s e h⟩

/-- What an operation keeps in every case: the model's own fields, CMD, the lengths and the operand registers
(10_state.md R43). -/
theorem runOperation_keeps_inputs (body : State → Except ErrorCode Result) (s : State) :
    (runOperation body s).params = s.params ∧ (runOperation body s).pending = s.pending ∧
    (runOperation body s).replies = s.replies ∧ (runOperation body s).resets = s.resets ∧
    (runOperation body s).cmd = s.cmd ∧ (runOperation body s).textLen = s.textLen ∧
    (runOperation body s).keyLen = s.keyLen := by
  rcases runOperation_cases body s with ⟨r, -, h, -⟩ | ⟨e, -, h⟩ <;> simp [h]

end Sys2Proof.Machine
end

