-- ==== Sys2Proof/Laws/PerInstr.lean ====
section
/-! SUPPORT. Laws that are stated instruction by instruction, about the command as syntax. -/

namespace Sys2Proof.Laws

/-- The reserved bits of a command word are 0, and so is ARG but for VIG.TAB, whose ARG is its count
(30_encoding.md R80). -/
def FieldsOfWord.Statement (i : Instr) : Prop :=
  i.wf = true → rsvField (encode i) = 0 ∧
    argField (encode i) = (match i with | .vigTab n => BitVec.ofNat 8 n | _ => 0)

theorem FieldsOfWord.nop : FieldsOfWord.Statement .nop := fun _ => by decide
theorem FieldsOfWord.clr : FieldsOfWord.Statement .clr := fun _ => by decide
theorem FieldsOfWord.vigEnc : FieldsOfWord.Statement .vigEnc := fun _ => by decide
theorem FieldsOfWord.vigDec : FieldsOfWord.Statement .vigDec := fun _ => by decide
theorem FieldsOfWord.vigTab (n : Nat) : FieldsOfWord.Statement (.vigTab n) := fun h => by
  have hn : n < 256 := by simpa [Instr.wf] using h
  have hw : (0x12#32 + 256#32 * word n).toNat = 0x12 + 256 * n := by
    simp only [word, BitVec.toNat_add, BitVec.toNat_mul, BitVec.toNat_ofNat]
    omega
  refine ⟨BitVec.eq_of_toNat_eq ?_, BitVec.eq_of_toNat_eq ?_⟩
  · simp only [rsvField, encode, BitVec.extractLsb'_toNat, hw, Nat.shiftRight_eq_div_pow]
    simp
    omega
  · simp only [argField, encode, BitVec.extractLsb'_toNat, hw, Nat.shiftRight_eq_div_pow, BitVec.toNat_ofNat]
    omega
theorem FieldsOfWord.affEnc : FieldsOfWord.Statement .affEnc := fun _ => by decide
theorem FieldsOfWord.affDec : FieldsOfWord.Statement .affDec := fun _ => by decide
theorem FieldsOfWord.affInv : FieldsOfWord.Statement .affInv := fun _ => by decide
theorem FieldsOfWord.pfEnc : FieldsOfWord.Statement .pfEnc := fun _ => by decide
theorem FieldsOfWord.pfDec : FieldsOfWord.Statement .pfDec := fun _ => by decide
theorem FieldsOfWord.pfMat : FieldsOfWord.Statement .pfMat := fun _ => by decide
theorem FieldsOfWord.hillEnc : FieldsOfWord.Statement .hillEnc := fun _ => by decide
theorem FieldsOfWord.hillDec : FieldsOfWord.Statement .hillDec := fun _ => by decide
theorem FieldsOfWord.hillInv : FieldsOfWord.Statement .hillInv := fun _ => by decide
theorem FieldsOfWord.enigRun : FieldsOfWord.Statement .enigRun := fun _ => by decide

end Sys2Proof.Laws
end

