-- ==== Sys2Proof/Tests/Slice0.lean ====
section
/-! SUPPORT. Tests: the checks of WellFormed, words written out from 30_encoding.md R83, one or two vectors of
95_test_vectors.md per command, and for every statement a concrete case that meets its hypotheses. -/

namespace Sys2Proof.Tests

-- One theorem at a time: each of them is a kernel evaluation.
set_option Elab.async false

open Sys2Proof Sys2Proof.Machine

/-! ### Helpers: small states, and the state after one step -/

def withText (cs : List Char) (s : State) : State :=
  { s with mem := s.mem.writeBlock textBase (charCodes cs), textLen := word cs.length }

def withKey (cs : List Char) (s : State) : State :=
  { s with mem := s.mem.writeBlock keyBase (charCodes cs), keyLen := word cs.length }

/-- The state in an outcome; a stop gives the reset state, which no test expects. -/
def stateOf (o : Host.Outcome State Fault Refusal) : State :=
  match o with
  | .next t => t
  | .fault _ | .refused _ => State.reset

/-- One step in which the host writes a command word to CMD. -/
def command (w : Nat) (s : State) : State := stateOf (step (s.withFetchWord 32 w))

def outCodes (s : State) : List Word := (List.range s.outLen.toNat).map fun i => s.readLoc (.out i)

def traceWords (s : State) (k : Nat) : List Word := (List.finRange 16).map fun f => s.readLoc (.trace k f)

def vigState : State := withKey ['L', 'E', 'M', 'O', 'N'] (withText ['H', 'I'] State.reset)

def affState : State := { withText ['A', '!'] State.reset with affA := 5, affB := 8 }

def pfState : State := withKey ['P', 'L', 'A', 'Y', 'F', 'A', 'I', 'R'] (withText ['P', 'L'] State.reset)

def hillState : State :=
  { withText ['H', 'E'] State.reset with
    hillN := 2
    hillM := #v[3, 3, 0, 0, 0, 2, 5, 0, 0, 0, 0, 0, 99, 0, 0, 0, 0, 0, 0, 0, 0, 0, 0, 0, 0] }

/-- The configuration of V5o: rotors I II III, reflector B, positions A A U, rings A A B. -/
def enigState : State :=
  { withText ['A', 'A', 'A'] State.reset with
    engRotor := #v[1, 2, 3], engRefl := 1, engPos := #v[0, 0, 20], engRing := #v[0, 0, 1] }

/-! ### WellFormed: the one check, with a term it refuses -/

theorem test_wf_accepts_255 : Instr.wf (.vigTab 255) = true := by decide

theorem test_wf_refuses_256 : Instr.wf (.vigTab 256) = false := by decide

/-! ### Decoding: every command's word, written out from the fields RSV, ARG, UNIT, FUNC of 30_encoding.md R80 -/

theorem test_decode_nop : decode 0b0000000000000000_00000000_0000_0000#32 = .ok .nop := by decide

theorem test_decode_clr : decode 0b0000000000000000_00000000_0000_0001#32 = .ok .clr := by decide

theorem test_decode_vigEnc : decode 0b0000000000000000_00000000_0001_0000#32 = .ok .vigEnc := by decide

theorem test_decode_vigDec : decode 0b0000000000000000_00000000_0001_0001#32 = .ok .vigDec := by decide

theorem test_decode_vigTab : decode 0b0000000000000000_10000001_0001_0010#32 = .ok (.vigTab 129) := by decide

theorem test_decode_affEnc : decode 0b0000000000000000_00000000_0010_0000#32 = .ok .affEnc := by decide

theorem test_decode_affDec : decode 0b0000000000000000_00000000_0010_0001#32 = .ok .affDec := by decide

theorem test_decode_affInv : decode 0b0000000000000000_00000000_0010_0010#32 = .ok .affInv := by decide

theorem test_decode_pfEnc : decode 0b0000000000000000_00000000_0011_0000#32 = .ok .pfEnc := by decide

theorem test_decode_pfDec : decode 0b0000000000000000_00000000_0011_0001#32 = .ok .pfDec := by decide

theorem test_decode_pfMat : decode 0b0000000000000000_00000000_0011_0010#32 = .ok .pfMat := by decide

theorem test_decode_hillEnc : decode 0b0000000000000000_00000000_0100_0000#32 = .ok .hillEnc := by decide

theorem test_decode_hillDec : decode 0b0000000000000000_00000000_0100_0001#32 = .ok .hillDec := by decide

theorem test_decode_hillInv : decode 0b0000000000000000_00000000_0100_0010#32 = .ok .hillInv := by decide

theorem test_decode_enigRun : decode 0b0000000000000000_00000000_0101_0000#32 = .ok .enigRun := by decide

/-- V6e to V6i: illegal words, one for each reason. -/
theorem test_decode_illegal :
    decode 0x00000100#32 = .error .argNotZero ∧ decode 0x00000051#32 = .error .illegalOpcode ∧
    decode 0x00010010#32 = .error .reservedBits := by decide

theorem test_decodeTableWord : decodeTableWord 32 0x5012 = some (.vigTab 0x50) ∧ decodeTableWord 32 0x13 = none := by
  decide

/-! ### One step per command, from 95_test_vectors.md -/

/-- V6a, V6j: NOP changes only CMD. -/
theorem test_nop_keeps_error : (command 0x00 { State.reset with cmd := 1, err := 10, status := 3, outLen := 2 }) =
    { State.reset with cmd := 0, err := 10, status := 3, outLen := 2 } := by decide +kernel

/-- V6c: CLR clears outputs, keeps inputs and sets CMD = 1. -/
theorem test_clr : command 0x01 { State.reset with affA := 5, affAinv := 21, err := 2, status := 3, traceCnt := 4 } =
    { State.reset with affA := 5, cmd := 1 } := by decide +kernel

/-- V1b: a key longer than the text. -/
theorem test_vigEnc_V1b : outCodes (command 0x10 vigState) = charCodes ['S', 'M'] := by decide +kernel

/-- V1: record 1 of "HI" under "LEMON" by the table of 41_vigenere.md R124: I = 8, shift E = 4, result M = 12. -/
theorem test_vigEnc_trace : traceWords (command 0x10 vigState) 1 = [1, 8, 1, 4, 12, 0, 0, 0, 0, 0, 0, 0, 0, 0, 0, 0] := by
  decide +kernel

/-- V1e: 0 − 1 gives 25. -/
theorem test_vigDec_V1e :
    outCodes (command 0x11 (withKey ['B'] (withText ['A'] State.reset))) = charCodes ['Z'] := by decide +kernel

/-- V1r, here with the key "b!" and N = 9: one row. -/
theorem test_vigTab_row : outCodes (command 0x0912 (withKey ['b', '!'] State.reset)) =
    charCodes ['B', 'C', 'D', 'E', 'F', 'G', 'H', 'I', 'J', 'K', 'L', 'M', 'N', 'O', 'P', 'Q', 'R', 'S', 'T', 'U', 'V',
      'W', 'X', 'Y', 'Z', 'A'] := by decide +kernel

/-- V1q: N = 0 succeeds with an empty result. -/
theorem test_vigTab_V1q : command 0x0012 vigState = { vigState with cmd := 0x12, status := 1 } := by decide +kernel

/-- V2e: 25·3 + 25 = 100, mod 26 = 22. -/
theorem test_affEnc_V2e : outCodes (command 0x20 { withText ['A', 'Z'] State.reset with affA := 3, affB := 25 }) =
    charCodes ['Z', 'W'] := by decide +kernel

/-- V2m: 27 is refused, not reduced. -/
theorem test_affEnc_V2m : (command 0x20 { affState with affA := 27 }).err = 2 := by decide +kernel

/-- V2i: a negative intermediate, 21·(0 − 8). -/
theorem test_affDec_V2i : outCodes (command 0x21 affState) = charCodes ['O'] ∧ (command 0x21 affState).affAinv = 21 := by
  decide +kernel

/-- V2za: the whole 32-bit value is reduced. -/
theorem test_affInv_V2za : (command 0x22 { State.reset with affA := 0xFFFFFFFF#32 }).affAinv = 5 := by decide +kernel

/-- V2w: 13 has no inverse, and AFF_AINV keeps its value. -/
theorem test_affInv_V2w : command 0x22 { State.reset with affA := 13, affAinv := 21 } =
    { State.reset with affA := 13, affAinv := 21, cmd := 0x22, err := 7, status := 3 } := by decide +kernel

/-- V3n: the same row with wrap. -/
theorem test_pfEnc_V3n : outCodes (command 0x30 (withText ['F', 'P'] pfState)) = charCodes ['P', 'L'] := by
  decide +kernel

/-- V3v: the digraph (X, X), by the row rule. -/
theorem test_pfEnc_V3v : outCodes (command 0x30 (withText ['X'] pfState)) = charCodes ['Z', 'Z'] := by decide +kernel

/-- V3aj: J read as I, the same column with wrap. -/
theorem test_pfDec_V3aj : outCodes (command 0x31 (withText ['J', 'P'] pfState)) = charCodes ['P', 'U'] := by
  decide +kernel

/-- V3ag, V3ah: one trailing X is trimmed; an odd length is refused. -/
theorem test_pfDec_V3ag : outCodes (command 0x31 (withText ['Z', 'Z'] pfState)) = charCodes ['X'] ∧
    (command 0x31 (withText ['A', 'B', 'C'] pfState)).err = 9 := by decide +kernel

/-- V3h: keyword "JIG", the I stands where the J was. -/
theorem test_pfMat_V3h : (command 0x32 (withKey ['J', 'I', 'G'] State.reset)).pfMat =
    #v[8, 6, 0, 1, 2, 3, 4, 5, 7, 10, 11, 12, 13, 14, 15, 16, 17, 18, 19, 20, 21, 22, 23, 24, 25] := by decide +kernel

/-- V3ap to V3av: the cleanup alone. -/
theorem test_cleanup : pfCleanup [23] = [] ∧ pfCleanup [0, 23, 0, 23, 0] = [0, 0, 0] ∧
    pfCleanup [0, 23, 23, 0] = [0, 23, 23, 0] ∧ pfCleanup [23, 0, 23] = [23, 0] := by decide +kernel

/-- V4a, block 0: HE gives HI, and trace record 0. -/
theorem test_hillEnc_V4a : outCodes (command 0x40 hillState) = charCodes ['H', 'I'] ∧
    traceWords (command 0x40 hillState) 0 = [0, 2, 7, 4, 0, 0, 0, 7, 8, 0, 0, 0, 0, 0, 0, 0] := by decide +kernel

/-- V4f: invertible mod 26, but column 0 holds no unit: refused. -/
theorem test_hillEnc_V4f : (command 0x40 { hillState with hillM :=
    #v[2, 13, 0, 0, 0, 13, 2, 0, 0, 0, 0, 0, 0, 0, 0, 0, 0, 0, 0, 0, 0, 0, 0, 0, 0] }).err = 8 := by decide +kernel

/-- V4t: HILL.DEC pads too, blocks AB and CX. -/
theorem test_hillDec_V4t : outCodes (command 0x41 (withText ['A', 'B', 'C'] hillState)) =
    charCodes ['R', 'J', 'F', 'N'] := by decide +kernel

/-- V4b: the source's matrix. -/
theorem test_hillInv_V4b : (command 0x42 hillState).hillInv =
    #v[15, 17, 0, 0, 0, 20, 9, 0, 0, 0, 0, 0, 0, 0, 0, 0, 0, 0, 0, 0, 0, 0, 0, 0, 0] := by decide +kernel

/-- V4k and V4l: the lowest row with a unit decides. -/
theorem test_hillInverse_V4k_V4l : hillInverse 3 [[5, 24, 2], [24, 19, 0], [11, 8, 25]] = none ∧
    hillInverse 3 [[15, 11, 4], [13, 4, 0], [5, 8, 11]] = some [[12, 23, 24], [13, 23, 0], [4, 13, 1]] := by
  decide +kernel

/-- V5o: with ring B on the right the middle rotor advances on the first letter. -/
theorem test_enigRun_V5o : outCodes (command 0x50 enigState) = charCodes ['N', 'T', 'U'] ∧
    traceWords (command 0x50 enigState) 0 = [0, 0, 0, 1, 21, 0, 0, 1, 1, 13, 1, 2, 3, 0, 0, 0] := by decide +kernel

/-- V5ae, V5af: the first failing check in the order of R224 is reported. -/
theorem test_enigRun_V5ae :
    (command 0x50 { enigState with engRotor := #v[9, 2, 3], engPos := #v[30, 0, 0], engRing := #v[30, 0, 0] }).err = 3 ∧
    (command 0x50 { enigState with engPos := #v[30, 0, 0], engRing := #v[30, 0, 0] }).err = 4 := by decide +kernel

/-! ### The host port -/

/-- V6l, V6n: TEXT_LEN is clamped; a write to STATUS is ignored. -/
theorem test_host_writes :
    (stateOf (step { State.reset with pending := [.write 3 5000] })).textLen = 2048 ∧
    stateOf (step { State.reset with pending := [.write 1 3] }) = State.reset := by decide +kernel

/-- V6o, V6q, V6r: unmapped addresses and ROM. -/
theorem test_host_reads : State.reset.memRead 0x0007 1 = [0] ∧ State.reset.memRead 0x083A 2 = [16, 0] ∧
    State.reset.memRead 0x08DA 1 = [0x42] ∧ State.reset.memRead 0x080B 2 = [25, 0] := by decide +kernel

/-- 20_memory.md R63: the unlisted register addresses at the ends of their ranges. -/
theorem test_unlisted_registers : [0x0007, 0x000B, 0x000D, 0x000F, 0x0029, 0x002F, 0x0049, 0x004F, 0x0069, 0x006F,
    0x0077, 0x007C, 0x007F, 0x009A, 0x07FF, 0x080C, 0x081F, 0x0900, 0x0FFF, 0x1800, 0x2100, 0x5A00].all
    (fun a => locate defaultParams (BitVec.ofNat 16 a) = none) = true := by decide +kernel

/-- The host script of P6's key: what the pseudo-instruction writes (96_test_programs.md P6). -/
theorem test_script_key : scriptKey ['A', 'B'] = [.write 0x2000 0x41, .write 0x2001 0x42, .write 0x0004 2] := by
  decide +kernel

/-! ### Every statement's hypotheses are met somewhere -/

theorem vigState_good : vigState.Inv := by decide +kernel

theorem affState_good : affState.Inv := by decide +kernel

theorem pfState_good : pfState.Inv := by decide +kernel

theorem hillState_good : hillState.Inv := by decide +kernel

theorem enigState_good : enigState.Inv := by decide +kernel

theorem reset_good : State.reset.Inv := by decide +kernel

theorem witness_DecodeOfEncode : Instr.wf (.vigTab 255) = true ∧ Instr.wf .enigRun = true := by decide

theorem witness_EncodeOfDecode : decode 0x0000FF12#32 = .ok (.vigTab 255) := by decide

theorem witness_IllegalWordsExactly :
    ([0x02, 0x0F, 0x13, 0x1F, 0x23, 0x2F, 0x33, 0x3F, 0x43, 0x4F, 0x51, 0x60, 0xFF].all fun opc =>
      ((word opc).extractLsb' 0 8).toNat = opc ∧ decode (word opc) = .error .illegalOpcode) = true := by decide +kernel

theorem witness_StepRunsCommand :
    (vigState.withFetchWord 32 0x10).pending = .write cmdAddr 0x10#32 :: [] ∧ decode 0x10#32 = .ok .vigEnc := by decide

theorem witness_IllegalCommandEffect :
    (vigState.withFetchWord 32 0x60).pending = .write cmdAddr 0x60#32 :: [] ∧
    decode 0x60#32 = .error .illegalOpcode := by decide

/-- Two reads that wrap around the top of the address space. -/
theorem witness_ReadsReturnInOrder :
    ({ State.reset with pending := [.read 0xFFFF, .read 0x0000] } : State).pending = memReadEvents 0xFFFF 2 ++ [] := by
  decide

/-- The last TEXT cell, and the clamped length register. -/
theorem witness_WriteSetsOneLocation :
    paramsWf State.reset.params ∧ Loc.inRange State.reset.params (.text 2047) = true ∧
    Loc.access (.text 2047) = .readWrite ∧ Loc.text 2047 ≠ .cmd ∧
    ({ State.reset with pending := [.write 0x17FF 7] } : State).pending =
      .write (BitVec.ofNat 16 (Loc.addr (.text 2047))) 7 :: [] ∧
    Loc.inRange State.reset.params .textLen = true ∧ Loc.access .textLen = .readWrite ∧
    Loc.inRange State.reset.params .keyLen = true ∧ Loc.access .keyLen = .readWrite := by decide +kernel

theorem witness_UnmappedAndReadOnly :
    locate State.reset.params 0x0007 = none ∧ locate State.reset.params 0x0800 = some (.affValidA 0) ∧
    Loc.access (.affValidA 0) = .readOnly ∧
    ({ State.reset with pending := [.write 0x0800 2] } : State).pending = .write 0x0800 2 :: [] := by decide +kernel

theorem witness_AddressMapAgrees : paramsWf defaultParams ∧ Loc.inRange defaultParams (.trace 2047 15) = true ∧
    locate defaultParams 0xFFFF = some (.trace 2047 15) := by decide +kernel

theorem witness_NothingEverStops : State.reset.pending = [] := rfl

theorem witness_ResetClearsRegisters :
    ({ affState with pending := [.reset] } : State).pending = .reset :: [] ∧ Loc.addr (.engPlugB 12) = 0x99 ∧
    Loc.addr (.affValidA 0) = 0x800 := by decide

theorem witness_CellsKeepTheirValue :
    ({ affState with pending := [.reset] } : State).pending = .reset :: [] ∧
    vigState.Inv ∧ exec .vigEnc vigState = .next (stateOf (exec .vigEnc vigState)) := ⟨rfl, vigState_good, rfl⟩

theorem witness_OperationsAfterReset :
    affState.resetDevice = affState.resetDevice ∧ affState.params.pfEmptyKeyIsError = true := ⟨rfl, by decide⟩

theorem witness_CleanKeepsLetters :
    (0x5A#32).toNat = 0x41 + (25 : Sym).val ∧ (0x61#32).toNat = 0x61 + (0 : Sym).val ∧
    (¬ (0x41 ≤ (0x5B#32).toNat ∧ (0x5B#32).toNat ≤ 0x5A) ∧ ¬ (0x61 ≤ (0x5B#32).toNat ∧ (0x5B#32).toNat ≤ 0x7A)) := by
  decide

theorem witness_ModIsRemainder : (0 : Int) < 26 ∧ (26 : Int) ∣ -1 - 25 := by decide

theorem witness_ModularInverseRule : modInv 27 = some 1 ∧ isUnit 25 = true ∧ 25 ≤ 25 := by decide

theorem witness_NopWritesOnlyCmd : (vigState.withFetchWord 32 0).pending = .write cmdAddr 0x00000000#32 :: [] := by
  decide

/-- VIG.ENC and VIG.DEC: the last index of the text, and the empty case. -/
theorem witness_VigResult : vigState.Inv ∧ vigState.cleanText ≠ [] ∧ vigState.cleanKey ≠ [] ∧
    vigState.cleanText[1]? = some 8 ∧ vigState.cleanKey[1 % vigState.cleanKey.length]? = some 4 ∧
    State.reset.Inv ∧ State.reset.cleanText = [] :=
  ⟨vigState_good, by decide +kernel, by decide +kernel, by decide +kernel, by decide +kernel, reset_good, rfl⟩

theorem witness_VigTabResult : vigState.Inv ∧ 255 < 256 ∧ vigState.cleanKey ≠ [] ∧ 4 < min 255 vigState.cleanKey.length ∧
    vigState.cleanKey[4]? = some 13 ∧ State.reset.Inv ∧ State.reset.cleanKey = [] :=
  ⟨vigState_good, by decide, by decide +kernel, by decide +kernel, by decide +kernel, reset_good, rfl⟩

theorem witness_VigRoundTrip : ∃ t t' u u' : State, vigState.Inv ∧ u.Inv ∧ u'.Inv ∧
    vigState.cleanText ≠ [] ∧ vigState.cleanKey ≠ [] ∧ u.cleanKey = vigState.cleanKey ∧
    u'.cleanKey = vigState.cleanKey ∧ exec .vigEnc vigState = .next t ∧ t.copiedToText u ∧
    exec .vigDec vigState = .next t' ∧ t'.copiedToText u' :=
  ⟨stateOf (exec .vigEnc vigState), stateOf (exec .vigDec vigState), withText ['S', 'M'] vigState,
    withText ['W', 'E'] vigState, by decide +kernel, by decide +kernel, by decide +kernel, by decide +kernel,
    by decide +kernel, by decide +kernel, by decide +kernel, rfl, ⟨by decide +kernel, by decide +kernel⟩, rfl,
    ⟨by decide +kernel, by decide +kernel⟩⟩

/-- Each clause of AFF.ENC and AFF.DEC: a bad key, an empty text, a text. -/
theorem witness_AffResult : affState.Inv ∧ affState.affKeyOk ∧ affState.cleanText[0]? = some 0 ∧
    affState.cleanText ≠ [] ∧ ({ affState with textLen := 0 } : State).Inv ∧
    ({ affState with textLen := 0 } : State).cleanText = [] ∧ affState.params.emptyTextIsError = true ∧
    State.reset.Inv ∧ ¬ State.reset.affKeyOk := by
  refine ⟨affState_good, ⟨by decide, by decide⟩, by decide +kernel, by decide +kernel, by decide +kernel,
    by decide +kernel, by decide, reset_good, fun h => absurd h.1 (by decide)⟩

theorem witness_AffInvResult : Nat.gcd State.reset.affA.toNat 26 ≠ 1 ∧ Nat.gcd affState.affA.toNat 26 = 1 := by decide

theorem witness_AffRoundTrip : ∃ t u : State, affState.Inv ∧ u.Inv ∧ affState.affKeyOk ∧ affState.cleanText ≠ [] ∧
    u.affA = affState.affA ∧ u.affB = affState.affB ∧ exec .affEnc affState = .next t ∧ t.copiedToText u :=
  ⟨stateOf (exec .affEnc affState), withText ['I'] affState, affState_good, by decide +kernel,
    ⟨by decide, by decide⟩, by decide +kernel, rfl, rfl, rfl, ⟨by decide +kernel, by decide +kernel⟩⟩

theorem witness_PfRuleByPosition : (4 : Nat) < 5 ∧ ((-1 : Int) = 1 ∨ (-1 : Int) = -1) := by decide

theorem witness_PfRuleInverse : (0 : Sym) ≠ 9 ∧ (25 : Sym) ≠ 9 := by decide

theorem witness_PfSegmentation : (1 : Sym) ≠ 0 ∧ ((23, 23) : Sym × Sym) ∈ pfPairs [23] := by decide

/-- Each clause of PF.ENC, PF.DEC and PF.MAT: no keyword, no text, an odd text, a text. -/
theorem witness_PfResult : pfState.Inv ∧ pfState.cleanKey ≠ [] ∧ pfState.cleanText ≠ [] ∧
    pfState.cleanText.length % 2 = 0 ∧ (pfPairs pfState.prepared)[0]? = some (15, 11) ∧
    pfRule (pfMatrix pfState.cleanKey) 15 11 1 = (11, 0, 1) ∧
    pfState.prepared[2 * 0]? = some 15 ∧ pfState.prepared[2 * 0 + 1]? = some 11 ∧
    pfRule (pfMatrix pfState.cleanKey) 15 11 (-1) = (5, 15, 1) :=
  ⟨pfState_good, by decide +kernel⟩

/-- An implementation with a PF_CLEANUP of its own. -/
theorem witness_PfResult_custom :
    ({ pfState with params := { pfState.params with cleanup := .custom 7 } } : State).Inv := by decide +kernel

/-- The same with EMPTY_TEXT_IS_ERROR false and an empty text. -/
theorem witness_PfResult_empty_text :
    ({ pfState with textLen := 0, params := { pfState.params with cleanup := .custom 7, emptyTextIsError := false } } :
      State).Inv ∧
    ({ pfState with textLen := 0, params := { pfState.params with cleanup := .custom 7, emptyTextIsError := false } } :
      State).cleanText = [] ∧ pfState.cleanKey ≠ [] := by decide +kernel

/-- R163: an empty text gives OUT_LEN = 0 and ERR = 0, with a PF_CLEANUP of the implementation's own too. -/
theorem test_pfDec_empty_text :
    (stateOf (exec .pfDec { pfState with
      textLen := 0, params := { pfState.params with cleanup := .custom 7, emptyTextIsError := false } })).outLen = 0 ∧
    (stateOf (exec .pfDec { pfState with
      textLen := 0, params := { pfState.params with cleanup := .custom 7, emptyTextIsError := false } })).err = 0 := by
  decide +kernel

theorem witness_PfResult_errors : (withText ['P'] pfState).Inv ∧ (withText ['P'] pfState).cleanText.length % 2 = 1 ∧
    (withText ['P'] pfState).cleanKey ≠ [] ∧ State.reset.Inv ∧ State.reset.cleanKey = [] ∧
    State.reset.cleanText = [] ∧ State.reset.params.pfEmptyKeyIsError = true ∧
    State.reset.params.emptyTextIsError = true :=
  ⟨by decide +kernel, by decide +kernel, by decide +kernel, reset_good, rfl, rfl, rfl, rfl⟩

theorem witness_PfRawRoundTrip : ∃ t u : State, pfState.Inv ∧ u.Inv ∧ pfState.cleanText ≠ [] ∧
    u.cleanKey = pfState.cleanKey ∧ u.params = pfState.params ∧ exec .pfEnc pfState = .next t ∧ t.err = 0 ∧
    t.copiedToText u :=
  ⟨stateOf (exec .pfEnc pfState), withText ['L', 'A'] pfState, pfState_good, by decide +kernel, by decide +kernel,
    by decide +kernel, rfl, rfl, by decide +kernel, ⟨by decide +kernel, by decide +kernel⟩⟩

theorem witness_CleanupBounds : 2 ≤ [(0 : Sym), 23].length ∧ (23 : Sym) ∉ [(0 : Sym), 1] ∧
    sandwiched [0, 23, 0] 1 ∧ [(0 : Sym), 23] = [0] ++ [23] := by unfold sandwiched; decide

/-- The matrix of V4c: the pivot of column 0 is row 1, whose entry 1 is its own inverse. -/
theorem witness_HillPivotRule : augmented 2 [[2, 1, 1, 0], [1, 1, 0, 1]] ∧ 0 < 2 ∧
    hillPivot 2 [[2, 1, 1, 0], [1, 1, 0, 1]] 0 = some 1 ∧
    1 * (entry [[2, 1, 1, 0], [1, 1, 0, 1]] 1 0).val % 26 = 1 ∧ hillPivot 2 [[2, 13, 1, 0], [13, 2, 0, 1]] 0 = none ∧
    hillInverse 2 [[2, 1], [1, 1]] = some [[1, 25], [25, 2]] := by unfold augmented; decide +kernel

theorem witness_HillInverseCorrect : hillInverse 2 [[3, 3], [2, 5]] = some [[15, 17], [20, 9]] := by decide +kernel

theorem witness_HillRejectsSingular :
    Int.gcd (Matrix.det (Matrix.of fun (r c : Fin 2) => ((entry [[2, 4], [6, 8]] r.val c.val).val : Int))) 26 ≠ 1 := by
  rw [Matrix.det_fin_two]
  decide +kernel

theorem witness_HillPadRule : 0 < 5 := by decide

/-- A key with each outcome: bad, singular, usable with an empty text, usable with a text. -/
theorem witness_HillResult : hillState.Inv ∧ hillState.hillKeyOk ∧
    hillState.hillKeyInverse = some [[15, 17], [20, 9]] ∧ hillState.cleanText ≠ [] ∧
    hillPad 2 hillState.cleanText = [7, 4] ∧ 2 = hillState.hillN.toNat ∧
    ({ hillState with textLen := 0 } : State).Inv ∧ ({ hillState with textLen := 0 } : State).cleanText = [] ∧
    hillState.params.emptyTextIsError = true ∧
    ({ hillState with hillM := Vector.replicate 25 0 } : State).Inv ∧
    ({ hillState with hillM := Vector.replicate 25 0 } : State).hillKeyInverse = none ∧
    State.reset.Inv ∧ ¬ State.reset.hillKeyOk := by
  refine ⟨hillState_good, ⟨by decide, by decide +kernel⟩, by decide +kernel, by decide +kernel, by decide +kernel,
    by decide, by decide +kernel, by decide +kernel, by decide, by decide +kernel, by decide +kernel, reset_good,
    fun h => absurd h.1 (by decide)⟩

theorem witness_HillResult_zero_key : ({ hillState with hillM := Vector.replicate 25 0 } : State).hillKeyOk :=
  ⟨by decide, by decide +kernel⟩

theorem witness_HillRoundTrip : ∃ t u : State, hillState.Inv ∧ u.Inv ∧ hillState.cleanText ≠ [] ∧
    u.hillN = hillState.hillN ∧ u.hillM = hillState.hillM ∧ exec .hillEnc hillState = .next t ∧ t.err = 0 ∧
    t.copiedToText u :=
  ⟨stateOf (exec .hillEnc hillState), withText ['H', 'I'] hillState, hillState_good, by decide +kernel,
    by decide +kernel, rfl, rfl, rfl, by decide +kernel, ⟨by decide +kernel, by decide +kernel⟩⟩

/-- Two states that differ in KEY and in HILL_M[2][2]. -/
theorem witness_HillIgnoresUnusedOperands : ∃ u t v : State, hillState.Inv ∧ u.Inv ∧ u.params = hillState.params ∧
    u.textLen = hillState.textLen ∧
    (∀ j, j < hillState.textLen.toNat → u.readLoc (.text j) = hillState.readLoc (.text j)) ∧
    u.hillN = hillState.hillN ∧
    (∀ r, r < hillState.hillN.toNat → ∀ c, c < hillState.hillN.toNat → u.hillEntry r c = hillState.hillEntry r c) ∧
    u.hillM ≠ hillState.hillM ∧ u.keyLen ≠ hillState.keyLen ∧
    exec .hillEnc hillState = .next t ∧ exec .hillEnc u = .next v :=
  ⟨withKey ['K'] { hillState with hillM := hillState.hillM.set 12 7 }, stateOf (exec .hillEnc hillState),
    stateOf (exec .hillEnc (withKey ['K'] { hillState with hillM := hillState.hillM.set 12 7 })), hillState_good,
    by decide +kernel, rfl, rfl, by decide +kernel, rfl, by decide +kernel, by decide +kernel, by decide, rfl, rfl⟩

/-- A configuration with a plugged pair A-Z passes every check; the reset state fails the first. -/
def pluggedState : State :=
  { enigState with engPlugCnt := 1, engPlugA := Vector.replicate 13 0, engPlugB := Vector.replicate 13 25 }

theorem witness_PlugboardRule : pluggedState.plugsOk ∧ (0 : Fin 13).val < pluggedState.engPlugCnt.toNat ∧
    pluggedState.engPlugB[(0 : Fin 13)].toNat = (25 : Sym).val ∧
    ¬ ({ pluggedState with engPlugCnt := 2 } : State).plugsOk :=
  ⟨⟨by decide, by decide +kernel⟩, by decide, by decide +kernel, fun h => absurd h.2 (by decide +kernel)⟩

/-- One state for each error of ENIG.RUN: identifier 0, position 26, ring 26, a self pair, no text. -/
theorem witness_EnigErrorOrder :
    ¬ State.reset.selectionOk ∧ enigState.selectionOk ∧
    ¬ ({ enigState with engPos := #v[0, 0, 26] } : State).positionsOk ∧ enigState.positionsOk ∧
    ¬ ({ enigState with engRing := #v[26, 0, 0] } : State).ringsOk ∧ enigState.ringsOk ∧
    ¬ ({ enigState with engPlugCnt := 14 } : State).plugsOk ∧ enigState.plugsOk ∧
    ({ enigState with textLen := 0 } : State).cleanText = [] ∧ enigState.params.emptyTextIsError = true := by
  refine ⟨fun h => absurd h.1 (by decide), ⟨by decide, by decide, by decide⟩, fun h => absurd h (by unfold State.positionsOk; decide),
    by unfold State.positionsOk; decide, fun h => absurd h (by unfold State.ringsOk; decide), by unfold State.ringsOk; decide,
    fun h => absurd h.1 (by decide), ⟨by decide, by decide +kernel⟩, by decide +kernel, by decide⟩

theorem witness_SteppingRule : ((4 : Sym).val : Int) = (((4 : Sym).val : Int) - (0 : Sym).val) % 26 := by decide

theorem witness_RotorTransforms : wiringIsPermutation rotorI ∧ (rotorI[(0 : Sym)].val : Int) =
    (((4 : Sym).val : Int) + (0 : Sym).val - (0 : Sym).val) % 26 := by decide +kernel

/-- Rotor V on the left. -/
theorem witness_DoubleStep : catalogWf enigState.params.catalog ∧
    ({ enigState with engRing := #v[0, 0, 0], engRotor := #v[5, 2, 3] } : State).params = enigState.params ∧
    ({ enigState with engRing := #v[0, 0, 0], engRotor := #v[5, 2, 3] } : State).engRotor[1] = 2 ∧
    ({ enigState with engRing := #v[0, 0, 0], engRotor := #v[5, 2, 3] } : State).engRotor[2] = 3 :=
  ⟨enigState_good.1.2.2.2.2, rfl, rfl, rfl⟩

theorem witness_EnigRunResult : ∃ (plug : Plugboard) (c : EnigmaConfig), enigState.Inv ∧
    enigState.engRotor = #v[word ((0 : Fin 5).val + 1), word ((1 : Fin 5).val + 1), word ((2 : Fin 5).val + 1)] ∧
    enigState.engRefl = word ((0 : Fin 2).val + 1) ∧
    enigState.engPos = #v[word (0 : Sym).val, word (0 : Sym).val, word (20 : Sym).val] ∧
    enigState.engRing = #v[word (0 : Sym).val, word (0 : Sym).val, word (1 : Sym).val] ∧
    enigPlug enigState = .ok plug ∧ enigState.cleanText ≠ [] ∧ enigState.cleanText[2]? = some 0 ∧
    c.notchM = enigState.params.catalog.rotorNotch[(1 : Fin 5)] ∧
    c.notchR = enigState.params.catalog.rotorNotch[(2 : Fin 5)] ∧ c.ringM = 0 ∧ c.ringR = 1 :=
  ⟨noPlugs, enigConfig enigState noPlugs, enigState_good, by decide, by decide, by decide, by decide, by rfl,
    by decide +kernel, by decide +kernel, by decide +kernel, by decide +kernel, by decide +kernel, by decide +kernel⟩

theorem witness_EnigSelfReciprocal : ∃ t u : State, enigState.Inv ∧ u.Inv ∧ exec .enigRun enigState = .next t ∧
    t.err = 0 ∧ u.params = enigState.params ∧ u.engRotor = enigState.engRotor ∧ u.engRefl = enigState.engRefl ∧
    u.engPos = enigState.engPos ∧ u.engRing = enigState.engRing ∧ u.engPlugCnt = enigState.engPlugCnt ∧
    u.engPlugA = enigState.engPlugA ∧ u.engPlugB = enigState.engPlugB ∧ t.copiedToText u :=
  ⟨stateOf (exec .enigRun enigState), withText ['N', 'T', 'U'] enigState, enigState_good, by decide +kernel, rfl,
    by decide +kernel, rfl, rfl, rfl, rfl, rfl, rfl, rfl, rfl, ⟨by decide +kernel, by decide +kernel⟩⟩

theorem witness_EnigNoSelfEncipherment : ∃ t : State, enigState.Inv ∧ exec .enigRun enigState = .next t ∧ t.err = 0 ∧
    enigState.cleanText[2]? = some 0 :=
  ⟨stateOf (exec .enigRun enigState), enigState_good, rfl, by decide +kernel, by decide +kernel⟩

theorem witness_AbortChangesNothingElse : ∃ t : State, Instr.affInv ≠ .nop ∧
    exec .affInv State.reset = .next t ∧ t.err ≠ 0 :=
  ⟨stateOf (exec .affInv State.reset), by decide, rfl, by decide +kernel⟩

theorem witness_CommandFrame : exec .affDec affState = .next (stateOf (exec .affDec affState)) ∧
    Instr.vigEnc ≠ .affDec ∧ Instr.vigEnc ≠ .affInv ∧ Instr.vigEnc ≠ .clr ∧ Instr.vigEnc ≠ .hillEnc ∧
    Instr.vigEnc ≠ .hillDec ∧ Instr.vigEnc ≠ .hillInv ∧ Instr.vigEnc ≠ .pfEnc ∧ Instr.vigEnc ≠ .pfDec ∧
    Instr.vigEnc ≠ .pfMat := ⟨rfl, by decide⟩

theorem witness_RepeatedCommandChangesNothing :
    pfState.Inv ∧ exec .pfEnc pfState = .next (stateOf (exec .pfEnc pfState)) := ⟨pfState_good, rfl⟩

theorem witness_StepKeepsGood : (vigState.withFetchWord 32 0x10).Inv ∧
    step (vigState.withFetchWord 32 0x10) = .next (command 0x10 vigState) := ⟨by decide +kernel, rfl⟩

end Sys2Proof.Tests
end

section
/-! PROOFS. Totality: what a command, a port event and a step answer, each said once (00_scope.md R14). -/

namespace Sys2Proof.Machine

/-! ### What a command answers -/

/-- The body that `runOperation` runs for a command; NOP and CLR have none (46_control_ops.md R260 to R262). -/
def commandBody : Instr → Option (State → Except ErrorCode Result)
  | .nop => none
  | .clr => none
  | .vigEnc => some (vigBody vigEncLetter)
  | .vigDec => some (vigBody vigDecLetter)
  | .vigTab n => some (vigTabBody n)
  | .affEnc => some affEncBody
  | .affDec => some affDecBody
  | .affInv => some affInvBody
  | .pfEnc => some pfEncBody
  | .pfDec => some pfDecBody
  | .pfMat => some pfMatBody
  | .hillEnc => some (hillBody 0)
  | .hillDec => some (hillBody 1)
  | .hillInv => some hillInvBody
  | .enigRun => some enigBody

@[simp] theorem exec_nop (s : State) : exec .nop s = .next s := rfl

@[simp] theorem exec_clr (s : State) : exec .clr s = .next s.clearOutputs := rfl

/-- Every other command takes the one course of 46_control_ops.md R260. -/
theorem exec_of_commandBody {i : Instr} {body : State → Except ErrorCode Result} (h : commandBody i = some body)
    (s : State) : exec i s = .next (runOperation body s) := by
  cases i with
  | nop | clr => cases h
  | vigEnc | vigDec | vigTab | affEnc | affDec | affInv | pfEnc | pfDec | pfMat | hillEnc | hillDec | hillInv
  | enigRun => cases h; rfl

theorem commandBody_eq_none_iff (i : Instr) : commandBody i = none ↔ i = .nop ∨ i = .clr := by
  cases i <;> simp [commandBody]

/-- What a command can do: nothing, CLR's effect, or the common course with its own body. -/
theorem exec_cases (i : Instr) (s : State) :
    (i = .nop ∧ exec i s = .next s) ∨ (i = .clr ∧ exec i s = .next s.clearOutputs) ∨
    ∃ body, commandBody i = some body ∧ exec i s = .next (runOperation body s) := by
  cases hb : commandBody i with
  | none =>
    obtain rfl | rfl := (commandBody_eq_none_iff i).mp hb
    · exact .inl ⟨rfl, exec_nop s⟩
    · exact .inr (.inl ⟨rfl, exec_clr s⟩)
  | some body => exact .inr (.inr ⟨body, rfl, exec_of_commandBody hb s⟩)

theorem exec_completes (i : Instr) (s : State) : ∃ t, exec i s = .next t := by
  obtain ⟨-, h⟩ | ⟨-, h⟩ | ⟨body, -, h⟩ := exec_cases i s <;> exact ⟨_, h⟩

/-! ### What a port event and a step answer -/

theorem runCommand_of_ok {w : Word} {i : Instr} (h : decode w = .ok i) (s : State) :
    runCommand w s = exec i (s.storeCmd w) := by
  simp [runCommand, h]

theorem runCommand_of_error {w : Word} {r : DecodeError} (h : decode w = .error r) (s : State) :
    runCommand w s = .next (illegalCommand (s.storeCmd w)) := by
  simp [runCommand, h]

/-- An illegal command word completes too (60_exceptions.md R283). -/
theorem runCommand_completes (w : Word) (s : State) : ∃ t, runCommand w s = .next t := by
  cases h : decode w with
  | ok i => exact runCommand_of_ok h s ▸ exec_completes i (s.storeCmd w)
  | error r => exact ⟨_, runCommand_of_error h s⟩

@[simp] theorem portEvent_read (a : Addr) (s : State) :
    portEvent (.read a) s = .next { s with replies := s.replies ++ [s.hostRead a] } := rfl

@[simp] theorem portEvent_write_cmd (w : Word) (s : State) : portEvent (.write cmdAddr w) s = runCommand w s := by
  simp [portEvent]

theorem portEvent_write_of_ne {a : Addr} (h : a ≠ cmdAddr) (w : Word) (s : State) :
    portEvent (.write a w) s = .next (s.hostStore a w) := by
  simp [portEvent, h]

@[simp] theorem portEvent_reset (s : State) : portEvent .reset s = .next s.resetDevice := rfl

theorem portEvent_completes (e : PortEvent) (s : State) : ∃ t, portEvent e s = .next t := by
  cases e with
  | read a => exact ⟨_, portEvent_read a s⟩
  | write a w =>
    by_cases h : a = cmdAddr
    · rw [h, portEvent_write_cmd]
      exact runCommand_completes w s
    · exact ⟨_, portEvent_write_of_ne h w s⟩
  | reset => exact ⟨_, portEvent_reset s⟩

/-- The idle machine holds its state (60_exceptions.md R295). -/
theorem step_of_idle {s : State} (h : s.pending = []) : step s = .next s := by
  simp [step, h]

/-- A step takes the host's next access, and that access alone, off the queue (20_memory.md R69). -/
theorem step_of_pending {s : State} {e : PortEvent} {rest : List PortEvent} (h : s.pending = e :: rest) :
    step s = portEvent e { s with pending := rest } := by
  simp [step, h]

theorem step_completes (s : State) : ∃ t, step s = .next t := by
  cases h : s.pending with
  | nil => exact ⟨s, step_of_idle h⟩
  | cons e rest => exact step_of_pending h ▸ portEvent_completes e { s with pending := rest }

/-- Settles O12, by the cases of a command and, for a step, of the host's next access. -/
theorem nothingEverStops : Obligations.NothingEverStops :=
  ⟨exec_completes, step_completes, fun _ => step_of_idle⟩

end Sys2Proof.Machine
end

section
/-! PROOFS. The address map: each region's table and the locations' addresses are inverse to each other
(10_state.md R20, 20_memory.md R63), and what stands in the ROM (R39, R40). -/

namespace Sys2Proof.Machine

/-! ### A location's address maps back to it, region by region -/

theorem locateRegister_addr (l : Loc) (h : l.addr < 0x100) : locateRegister l.addr = some l := by
  cases l with
  | cmd | status | err | textLen | keyLen | outLen | traceCnt | affA | affB | affAinv | hillN | engRefl
  | engPlugCnt => rfl
  | hillM k | hillInv k | pfMat k | engRotor k | engPos k | engRing k | engPlugA k | engPlugB k =>
    clear h; revert k; decide
  | affValidA | rotorWiring | rotorNotch | reflWiring | reflName | text | key | out | trace =>
    simp only [Loc.addr, textBase, keyBase, outBase, traceBase] at h
    omega

theorem locateRom_addr (l : Loc) (hlo : 0x800 ≤ l.addr) (hhi : l.addr < 0x900) : locateRom l.addr = some l := by
  cases l with
  | affValidA j => clear hlo hhi; revert j; decide
  | rotorWiring id j | reflWiring id j => clear hlo hhi; revert id j; decide
  | rotorNotch id | reflName id => clear hlo hhi; revert id; decide
  | text | key | out | trace =>
    simp only [Loc.addr, textBase, keyBase, outBase, traceBase] at hhi
    omega
  | _ =>
    simp only [Loc.addr] at hlo
    omega

theorem outMax_le {p : Params} (hp : paramsWf p) : outMax p ≤ 6656 := by
  obtain ⟨-, ht, -, hk, -⟩ := hp
  simp only [outMax]
  omega

theorem traceMax_le {p : Params} (hp : paramsWf p) : traceMax p ≤ 2048 := hp.2.1

theorem locateBuffer_text {p : Params} {i : Nat} (h : i < p.textMax) :
    locateBuffer p (textBase + i) = some (.text i) := by
  rw [locateBuffer, if_pos (by omega), Nat.add_sub_cancel_left]

theorem locateBuffer_key {p : Params} (hp : paramsWf p) {i : Nat} (h : i < p.keyMax) :
    locateBuffer p (keyBase + i) = some (.key i) := by
  obtain ⟨-, ht, -⟩ := hp
  rw [locateBuffer, if_neg (by simp only [textBase, keyBase]; omega), if_pos (by omega), Nat.add_sub_cancel_left]

theorem locateBuffer_out {p : Params} (hp : paramsWf p) {i : Nat} (h : i < outMax p) :
    locateBuffer p (outBase + i) = some (.out i) := by
  obtain ⟨-, ht, -, hk, -⟩ := hp
  rw [locateBuffer, if_neg (by simp only [textBase, outBase]; omega), if_neg (by simp only [keyBase, outBase]; omega),
    if_pos (by omega), Nat.add_sub_cancel_left]

theorem locateBuffer_trace {p : Params} (hp : paramsWf p) {k : Nat} (h : k < traceMax p) (f : Fin 16) :
    locateBuffer p (traceBase + 16 * k + f.val) = some (.trace k f) := by
  have ho := outMax_le hp
  have hf := f.isLt
  obtain ⟨-, ht, -, hk, -⟩ := hp
  rw [locateBuffer, if_neg (by simp only [textBase, traceBase]; omega),
    if_neg (by simp only [keyBase, traceBase]; omega), if_neg (by simp only [outBase, traceBase]; omega), if_pos (by omega)]
  simp only [Option.some.injEq, Loc.trace.injEq, Fin.ext_iff]
  simp only [traceBase]
  omega

theorem locateBuffer_addr {p : Params} (hp : paramsWf p) (l : Loc) (hl : l.inRange p = true)
    (h : 0x1000 ≤ l.addr) : locateBuffer p l.addr = some l := by
  cases l with
  | text i => exact locateBuffer_text (of_decide_eq_true hl)
  | key i => exact locateBuffer_key hp (of_decide_eq_true hl)
  | out i => exact locateBuffer_out hp (of_decide_eq_true hl)
  | trace k f => exact locateBuffer_trace hp (of_decide_eq_true hl) f
  | _ =>
    simp only [Loc.addr] at h
    omega

theorem Loc.addr_lt {p : Params} (hp : paramsWf p) (l : Loc) (hl : l.inRange p = true) : l.addr < 2 ^ 16 := by
  have ho := outMax_le hp
  have ht := traceMax_le hp
  obtain ⟨-, -, -, hk, -⟩ := hp
  cases l with
  | text i | key i | out i | trace k f =>
    have hi := of_decide_eq_true hl
    simp only [traceMax] at ht hi
    simp only [Loc.addr, textBase, keyBase, outBase, traceBase]
    omega
  | _ =>
    simp only [Loc.addr]
    omega

/-- No location lies between the regions. -/
theorem Loc.addr_region (l : Loc) :
    l.addr < 0x100 ∨ (0x800 ≤ l.addr ∧ l.addr < 0x900) ∨ 0x1000 ≤ l.addr := by
  cases l <;> simp only [Loc.addr, textBase, keyBase, outBase, traceBase] <;> omega

theorem locate_ofNat_register (p : Params) {n : Nat} (h : n < 0x100) :
    locate p (BitVec.ofNat 16 n) = locateRegister n := by
  simp [locate, Nat.mod_eq_of_lt (show n < 65536 by omega), h]

theorem locate_ofNat_rom (p : Params) {n : Nat} (hlo : 0x100 ≤ n) (hhi : n < 0x1000) :
    locate p (BitVec.ofNat 16 n) = locateRom n := by
  simp [locate, Nat.mod_eq_of_lt (show n < 65536 by omega), hhi, Nat.not_lt.mpr hlo]

theorem locate_ofNat_buffer (p : Params) {n : Nat} (hlo : 0x1000 ≤ n) (hhi : n < 2 ^ 16) :
    locate p (BitVec.ofNat 16 n) = locateBuffer p n := by
  simp [locate, Nat.mod_eq_of_lt (show n < 65536 by omega), Nat.not_lt.mpr hlo, show ¬ n < 256 by omega]

theorem locate_addr {p : Params} (hp : paramsWf p) (l : Loc) (hl : l.inRange p = true) :
    locate p (BitVec.ofNat 16 l.addr) = some l := by
  have hlt := Loc.addr_lt hp l hl
  obtain h | ⟨hlo, hhi⟩ | h := l.addr_region
  · rw [locate_ofNat_register p h, locateRegister_addr l h]
  · rw [locate_ofNat_rom p (by omega) (by omega), locateRom_addr l hlo hhi]
  · rw [locate_ofNat_buffer p h hlt, locateBuffer_addr hp l hl h]

/-! ### A mapped address is its location's address, region by region -/

/-- What an address decoder answers at `n`: a location in range whose address is `n`, or nothing. -/
def AnswersAt (p : Params) (n : Nat) (o : Option Loc) : Prop :=
  ∀ l, o = some l → l.inRange p = true ∧ l.addr = n

theorem AnswersAt.none {p : Params} {n : Nat} : AnswersAt p n none := nofun

theorem AnswersAt.some {p : Params} {n : Nat} {l : Loc} (hr : l.inRange p = true) (ha : l.addr = n) :
    AnswersAt p n (some l) := fun _ h => Option.some.inj h ▸ ⟨hr, ha⟩

theorem AnswersAt.ite {p : Params} {n : Nat} {c : Prop} [Decidable c] {x y : Option Loc}
    (hx : c → AnswersAt p n x) (hy : AnswersAt p n y) : AnswersAt p n (if c then x else y) := by
  split <;> [exact hx ‹c›; exact hy]

theorem AnswersAt.dite {p : Params} {n : Nat} {c : Prop} [Decidable c] {x : c → Option Loc} {y : Option Loc}
    (hx : ∀ h : c, AnswersAt p n (x h)) (hy : AnswersAt p n y) : AnswersAt p n (if h : c then x h else y) := by
  split <;> [exact hx ‹c›; exact hy]

theorem locateRegister_answersAt (p : Params) (n : Nat) : AnswersAt p n (locateRegister n) :=
  .ite (fun h => .some rfl h.symm) <| .ite (fun h => .some rfl h.symm) <| .ite (fun h => .some rfl h.symm) <|
  .ite (fun h => .some rfl h.symm) <| .ite (fun h => .some rfl h.symm) <| .ite (fun h => .some rfl h.symm) <|
  .ite (fun h => .some rfl h.symm) <| .ite (fun h => .some rfl h.symm) <| .ite (fun h => .some rfl h.symm) <|
  .ite (fun h => .some rfl h.symm) <| .ite (fun h => .some rfl h.symm) <|
  .dite (fun h => .some rfl (Nat.add_sub_of_le h.1)) <| .dite (fun h => .some rfl (Nat.add_sub_of_le h.1)) <|
  .dite (fun h => .some rfl (Nat.add_sub_of_le h.1)) <| .dite (fun h => .some rfl (Nat.add_sub_of_le h.1)) <|
  .ite (fun h => .some rfl h.symm) <|
  .dite (fun h => .some rfl (Nat.add_sub_of_le h.1)) <| .dite (fun h => .some rfl (Nat.add_sub_of_le h.1)) <|
  .ite (fun h => .some rfl h.symm) <|
  .dite (fun h => by split <;> exact .some rfl (by simp only [Loc.addr]; omega)) .none

theorem locateRom_answersAt (p : Params) (n : Nat) : AnswersAt p n (locateRom n) := by
  unfold locateRom
  split_ifs
  case neg | neg | neg => exact .none
  all_goals exact .some rfl (by simp only [Loc.addr]; omega)

theorem locateBuffer_answersAt (p : Params) (n : Nat) : AnswersAt p n (locateBuffer p n) :=
  .ite (fun h => .some (decide_eq_true (by omega)) (Nat.add_sub_of_le h.1)) <|
  .ite (fun h => .some (decide_eq_true (by omega)) (Nat.add_sub_of_le h.1)) <|
  .ite (fun h => .some (decide_eq_true (by omega)) (Nat.add_sub_of_le h.1)) <|
  .ite (fun h => .some (decide_eq_true (by omega)) (by simp only [Loc.addr]; omega)) .none

theorem addr_of_locate {p : Params} {a : Addr} {l : Loc} (h : locate p a = some l) :
    l.inRange p = true ∧ l.addr = a.toNat := by
  unfold locate at h
  split_ifs at h
  · exact locateRegister_answersAt p _ l h
  · exact locateRom_answersAt p _ l h
  · exact locateBuffer_answersAt p _ l h

/-- Settles O10, region by region in both directions. -/
theorem addressMapAgrees : Obligations.AddressMapAgrees := fun _ hp =>
  ⟨fun l hl => ⟨Loc.addr_lt hp l hl, locate_addr hp l hl⟩, fun _ _ => addr_of_locate⟩

/-! ### The ROM -/

theorem State.hostRead_of_locate {s : State} {a : Addr} {l : Loc} (h : locate s.params a = some l) :
    s.hostRead a = s.readLoc l := by
  simp [State.hostRead, h]

theorem State.hostRead_of_unmapped {s : State} {a : Addr} (h : locate s.params a = none) : s.hostRead a = 0 := by
  simp [State.hostRead, h]

/-- A ROM location is read at its address whatever the parameters are. -/
theorem State.hostRead_rom (s : State) (l : Loc) (hlo : 0x800 ≤ l.addr) (hhi : l.addr < 0x900) :
    s.hostRead (BitVec.ofNat 16 l.addr) = s.readLoc l :=
  State.hostRead_of_locate (by rw [locate_ofNat_rom _ (by omega) (by omega), locateRom_addr l hlo hhi])

/-- The offsets 27..31 of the seven groups of 32 words name nothing (10_state.md R40). -/
theorem locateRom_group_end (id : Fin 7) (x : Fin 5) : locateRom (0x820 + 32 * id.val + 27 + x.val) = none := by
  revert id x
  decide

/-- Settles O11: each address is the address of a ROM location, whose content is the catalog's. -/
theorem romHoldsCatalog : Obligations.RomHoldsCatalog := fun s => by
  refine ⟨fun j => ?_, fun id j => ?_, fun id => ?_, fun id j => ?_, ?_, ?_, fun id x => ?_⟩
  · exact s.hostRead_rom (.affValidA j) (by simp only [Loc.addr]; omega) (by simp only [Loc.addr]; omega)
  · exact s.hostRead_rom (.rotorWiring id j) (by simp only [Loc.addr]; omega) (by simp only [Loc.addr]; omega)
  · exact s.hostRead_rom (.rotorNotch id) (by simp only [Loc.addr]; omega) (by simp only [Loc.addr]; omega)
  · exact s.hostRead_rom (.reflWiring id j) (by simp only [Loc.addr]; omega) (by simp only [Loc.addr]; omega)
  · exact s.hostRead_rom (.reflName 0) (by decide) (by decide)
  · exact s.hostRead_rom (.reflName 1) (by decide) (by decide)
  · refine State.hostRead_of_unmapped ?_
    rw [locate_ofNat_rom _ (by omega) (by omega), locateRom_group_end]

end Sys2Proof.Machine
end

section
/-! PROOFS. The reset (10_state.md R47, 70_reset_and_hazards.md R300). -/

namespace Sys2Proof.Machine

/-- A ROM location holds a constant of the parameters alone. -/
theorem State.readLoc_rom_congr {s t : State} (h : t.params = s.params) (l : Loc) (hlo : 0x800 ≤ l.addr)
    (hhi : l.addr < 0x900) : t.readLoc l = s.readLoc l := by
  cases l with
  | affValidA | rotorWiring | rotorNotch | reflWiring | reflName => simp only [State.readLoc, h]
  | text | key | out | trace =>
    simp only [Loc.addr, textBase, keyBase, outBase, traceBase] at hhi
    omega
  | _ =>
    simp only [Loc.addr] at hlo
    omega

/-- A reset device reads 0 at every register (R47). -/
theorem State.readLoc_resetDevice_register (s : State) (l : Loc) (h : l.addr < 0x9A) :
    s.resetDevice.readLoc l = 0 := by
  cases l with
  | affValidA | rotorWiring | rotorNotch | reflWiring | reflName | text | key | out | trace =>
    simp only [Loc.addr, textBase, keyBase, outBase, traceBase] at h
    omega
  | _ => simp [State.readLoc, State.resetDevice, State.reset]

/-- `State.reset` and a device reset from it differ only in the model's counter of resets. -/
theorem State.readLoc_reset_register (l : Loc) (h : l.addr < 0x9A) : State.reset.readLoc l = 0 := by
  rw [← State.reset.readLoc_resetDevice_register l h]
  cases l with
  | text | key | out | trace =>
    simp only [Loc.addr, textBase, keyBase, outBase, traceBase] at h
    omega
  | _ => rfl

theorem step_of_pending_reset {s : State} {rest : List PortEvent} (h : s.pending = .reset :: rest) :
    step s = .next ({ s with pending := rest } : State).resetDevice := by
  rw [step_of_pending h, portEvent_reset]

/-- Settles O13: the registers by `readLoc_resetDevice_register`, the ROM because the parameters stay. -/
theorem resetClearsRegisters : Obligations.ResetClearsRegisters :=
  ⟨State.readLoc_reset_register, fun _ _ h =>
    ⟨_, step_of_pending_reset h, State.readLoc_resetDevice_register _, State.readLoc_rom_congr rfl⟩⟩

theorem State.cell_resetDevice (s : State) (a : Nat) :
    s.resetDevice.cell a = Config.unwrittenCell (s.resets + 1) a := rfl

end Sys2Proof.Machine
end

section
/-! PROOFS. What the operations' bodies give: the fields of a result that ends without `raise`, said once per body,
and the bounds that 10_state.md R26 to R33 set on them. -/

namespace Sys2Proof.Machine

/-! ### The result of each body -/

theorem vigBody_ok {letter : Sym → Sym → Sym} {s : State} {r : Result} (h : vigBody letter s = .ok r) :
    r = { out := (vigSteps letter s.cleanText s.cleanKey).map VigStep.output
          trace := (vigSteps letter s.cleanText s.cleanKey).map vigRecord
          affAinv := none, hillInv := none, pfMat := none } := by
  unfold vigBody at h
  split at h <;> cases h
  rfl

theorem vigTabBody_ok {n : Nat} {s : State} {r : Result} (h : vigTabBody n s = .ok r) :
    r = { out := (s.cleanKey.take (min n s.cleanKey.length)).flatMap tableauRow
          trace := [], affAinv := none, hillInv := none, pfMat := none } := by
  unfold vigTabBody at h
  split at h <;> cases h
  rfl

theorem affEncBody_ok {s : State} {r : Result} (h : affEncBody s = .ok r) :
    r = { out := s.cleanText.map (affEncLetter s.affA.toNat s.affB.toNat)
          trace := s.cleanText.mapIdx fun i t =>
            affRecord i t s.affA.toNat s.affB (affEncLetter s.affA.toNat s.affB.toNat t) s.affA
          affAinv := none, hillInv := none, pfMat := none } := by
  unfold affEncBody at h
  split_ifs at h
  cases h
  rfl

theorem affDecBody_ok {s : State} {r : Result} (h : affDecBody s = .ok r) :
    ∃ aInv, modInv s.affA.toNat = some aInv ∧
    r = { out := s.cleanText.map (affDecLetter aInv s.affB.toNat)
          trace := s.cleanText.mapIdx fun i t => affRecord i t aInv s.affB (affDecLetter aInv s.affB.toNat t) s.affA
          affAinv := some (word aInv), hillInv := none, pfMat := none } := by
  unfold affDecBody at h
  split at h
  case isFalse => cases h
  split at h
  case h_1 => cases h
  next aInv hInv =>
    split at h <;> cases h
    exact ⟨aInv, hInv, rfl⟩

theorem affInvBody_ok {s : State} {r : Result} (h : affInvBody s = .ok r) :
    ∃ v, modInv s.affA.toNat = some v ∧
    r = { out := [], trace := [], affAinv := some (word v), hillInv := none, pfMat := none } := by
  unfold affInvBody at h
  split at h <;> cases h
  exact ⟨_, ‹_›, rfl⟩

theorem pfEncBody_ok {s : State} {r : Result} (h : pfEncBody s = .ok r) :
    r = { out := pfApply (pfMatrix s.cleanKey) 1 (pfPairs (pfPrep s.textCells))
          trace := (pfPairs (pfPrep s.textCells)).mapIdx (pfRecord (pfMatrix s.cleanKey) 1)
          affAinv := none, hillInv := none, pfMat := some (pfMatWords (pfMatrix s.cleanKey)) } := by
  unfold pfEncBody at h
  split_ifs at h
  cases h
  rfl

theorem pfDecBody_ok {s : State} {r : Result} (h : pfDecBody s = .ok r) :
    r = { out := pfDecLetters s.params.cleanup
            (pfApply (pfMatrix s.cleanKey) (-1) (pfDigraphs (pfPrep s.textCells)))
          trace := (pfDigraphs (pfPrep s.textCells)).mapIdx (pfRecord (pfMatrix s.cleanKey) (-1))
          affAinv := none, hillInv := none, pfMat := some (pfMatWords (pfMatrix s.cleanKey)) } := by
  unfold pfDecBody at h
  split_ifs at h
  cases h
  rfl

theorem pfMatBody_ok {s : State} {r : Result} (h : pfMatBody s = .ok r) :
    r = { out := [], trace := [], affAinv := none, hillInv := none
          pfMat := some (pfMatWords (pfMatrix s.cleanKey)) } := by
  unfold pfMatBody at h
  split_ifs at h
  cases h
  rfl

theorem hillBody_ok {used : Word} {s : State} {r : Result} (h : hillBody used s = .ok r) :
    s.hillKeyValid = true ∧ ∃ inv, hillInverse s.hillN.toNat s.hillKey = some inv ∧
    r = { out := (hillBlocks s.hillN.toNat (hillPad s.hillN.toNat s.cleanText)).flatMap
            (hillBlock (if used = 0 then s.hillKey else inv) s.hillN.toNat)
          trace := (hillBlocks s.hillN.toNat (hillPad s.hillN.toNat s.cleanText)).mapIdx fun k v =>
            hillRecord k s.hillN.toNat v (hillBlock (if used = 0 then s.hillKey else inv) s.hillN.toNat v) used
          affAinv := none, hillInv := some (hillInvWords s.hillN.toNat inv), pfMat := none } := by
  simp only [hillBody] at h
  split at h
  case isFalse => cases h
  next hValid =>
    split at h
    case h_1 => cases h
    next inv hInv =>
      split at h <;> cases h
      exact ⟨hValid, inv, hInv, rfl⟩

theorem hillInvBody_ok {s : State} {r : Result} (h : hillInvBody s = .ok r) :
    ∃ inv, hillInverse s.hillN.toNat s.hillKey = some inv ∧
    r = { out := [], trace := [], affAinv := none, hillInv := some (hillInvWords s.hillN.toNat inv)
          pfMat := none } := by
  simp only [hillInvBody] at h
  split at h
  case isFalse => cases h
  split at h <;> cases h
  exact ⟨_, ‹_›, rfl⟩

theorem enigBody_ok {s : State} {r : Result} (h : enigBody s = .ok r) :
    enigScalarError s = none ∧ ∃ plug, enigPlug s = .ok plug ∧
    r = { out := (enigLetters (enigConfig s plug) (enigConfig s plug).start s.cleanText).map EnigmaStep.output
          trace := (enigLetters (enigConfig s plug) (enigConfig s plug).start s.cleanText).mapIdx (enigRecord s)
          affAinv := none, hillInv := none, pfMat := none } := by
  unfold enigBody at h
  split at h
  case h_1 => cases h
  next hScalar =>
    split at h
    case h_1 => cases h
    next plug hPlug =>
      split at h <;> cases h
      exact ⟨hScalar, plug, hPlug, rfl⟩

/-! ### The output registers of a result -/

theorem mem_validMultipliers_of_modInv {a x : Nat} (h : modInv a = some x) : (word x).toNat ∈ validMultipliers := by
  obtain ⟨hlo, hhi, hax⟩ := modInv_some h
  have h2 : x % 2 ≠ 0 := fun he => by
    have : a * x % 2 = 0 := by rw [Nat.mul_mod, he]; simp
    omega
  have h13 : x ≠ 13 := by rintro rfl; omega
  have : (word x).toNat = x := by simp; omega
  rw [this]
  simp only [validMultipliers, List.mem_cons, List.not_mem_nil, or_false]
  omega

theorem word_sym_toNat (x : Sym) : (word x.val).toNat = x.val := by
  have := x.isLt
  simp
  omega

theorem hillInvWords_le (n : Nat) (inv : SymMatrix) (k : Fin 25) : (hillInvWords n inv)[k].toNat ≤ 25 := by
  simp only [hillInvWords, Fin.getElem_fin, Vector.getElem_ofFn]
  split
  · rw [word_sym_toNat]
    omega
  · simp

theorem mem_appendNew (seq : List Sym) (x y : Sym) : y ∈ appendNew seq x ↔ y ∈ seq ∨ y = x := by
  unfold appendNew
  split
  · exact ⟨.inl, fun h => h.elim id (· ▸ ‹x ∈ seq›)⟩
  · simp

theorem nodup_appendNew {seq : List Sym} (h : seq.Nodup) (x : Sym) : (appendNew seq x).Nodup := by
  unfold appendNew
  split
  · exact h
  · simpa using h.concat ‹x ∉ seq›

theorem mem_foldl_appendNew (l seq : List Sym) (y : Sym) : y ∈ l.foldl appendNew seq ↔ y ∈ seq ∨ y ∈ l := by
  induction l generalizing seq with
  | nil => simp
  | cons x l ih => rw [List.foldl_cons, ih, mem_appendNew, List.mem_cons, or_assoc]

theorem nodup_foldl_appendNew (l : List Sym) {seq : List Sym} (h : seq.Nodup) : (l.foldl appendNew seq).Nodup := by
  induction l generalizing seq with
  | nil => exact h
  | cons x l ih => exact ih (nodup_appendNew h x)

theorem mergeJ_ne_symJ (x : Sym) : mergeJ x ≠ symJ := by
  unfold mergeJ
  split
  · decide
  · assumption

/-- The matrix holds every symbol but J (43_playfair.md R161). -/
theorem mem_pfMatrix (key : List Sym) (x : Sym) : x ∈ pfMatrix key ↔ x ≠ symJ := by
  have hFilter : x ∈ allSyms.filter (· ≠ symJ) ↔ x ≠ symJ := by simp [mem_allSyms]
  rw [pfMatrix, mem_foldl_appendNew, mem_foldl_appendNew, hFilter]
  refine ⟨?_, .inr⟩
  rintro ((hNil | hKey) | h)
  · cases hNil
  · obtain ⟨y, -, rfl⟩ := List.mem_map.mp hKey
    exact mergeJ_ne_symJ y
  · exact h

theorem pfMatrix_nodup (key : List Sym) : (pfMatrix key).Nodup :=
  nodup_foldl_appendNew _ (nodup_foldl_appendNew _ List.nodup_nil)

theorem pfMatrix_length (key : List Sym) : (pfMatrix key).length = 25 := by
  have hPerm : (pfMatrix key).Perm (allSyms.filter (· ≠ symJ)) :=
    (List.perm_ext_iff_of_nodup (pfMatrix_nodup key) (by decide)).mpr fun x => by
      simp [mem_pfMatrix, mem_allSyms]
  rw [hPerm.length_eq]
  decide

theorem pfMatWords_getElem (key : List Sym) (k : Nat) (h : k < 25) :
    (pfMatWords (pfMatrix key))[k] =
      word ((pfMatrix key)[k]'((pfMatrix_length key).symm ▸ h)).val := by
  have hk : k < (pfMatrix key).length := (pfMatrix_length key).symm ▸ h
  simp [pfMatWords, hk]

/-- PF_MAT takes 25 distinct symbols other than J (10_state.md R33). -/
theorem pfMatWords_ok (key : List Sym) : (pfMatWords (pfMatrix key)).toList.Nodup ∧
    ∀ k : Fin 25, (pfMatWords (pfMatrix key))[k].toNat ≤ 25 ∧ (pfMatWords (pfMatrix key))[k].toNat ≠ 9 := by
  have hLen := pfMatrix_length key
  refine ⟨List.nodup_iff_injective_get.mpr fun a b hab => ?_, fun k => ?_⟩
  · have ha : a.val < 25 := by simpa using a.isLt
    have hb : b.val < 25 := by simpa using b.isLt
    have hWords : (pfMatWords (pfMatrix key))[a.val] = (pfMatWords (pfMatrix key))[b.val] := by simpa using hab
    rw [pfMatWords_getElem key _ ha, pfMatWords_getElem key _ hb] at hWords
    have hVal := congrArg BitVec.toNat hWords
    rw [word_sym_toNat, word_sym_toNat] at hVal
    exact Fin.ext (((pfMatrix_nodup key).getElem_inj_iff).mp (Fin.ext hVal))
  · rw [Fin.getElem_fin, pfMatWords_getElem key _ k.isLt, word_sym_toNat]
    have hJ := (mem_pfMatrix key _).mp (List.getElem_mem (l := pfMatrix key) (n := k.val) (by omega))
    exact ⟨by omega, fun h9 => hJ (Fin.ext h9)⟩

/-- Which output registers a command's result writes, and what it writes there (10_state.md R29, R32, R33). -/
structure Result.OutputsOk (i : Instr) (r : Result) : Prop where
  affAinv : ∀ w, r.affAinv = some w → (i = .affDec ∨ i = .affInv) ∧ w.toNat ∈ validMultipliers
  hillInv : ∀ v, r.hillInv = some v → (i = .hillEnc ∨ i = .hillDec ∨ i = .hillInv) ∧ ∀ k : Fin 25, v[k].toNat ≤ 25
  pfMat : ∀ v, r.pfMat = some v → (i = .pfEnc ∨ i = .pfDec ∨ i = .pfMat) ∧
    v.toList.Nodup ∧ ∀ k : Fin 25, v[k].toNat ≤ 25 ∧ v[k].toNat ≠ 9

theorem body_outputsOk {i : Instr} {body : State → Except ErrorCode Result} (hb : commandBody i = some body)
    {s : State} {r : Result} (h : body s = .ok r) : r.OutputsOk i := by
  cases i <;> cases hb
  case vigEnc | vigDec => exact vigBody_ok h ▸ ⟨nofun, nofun, nofun⟩
  case vigTab => exact vigTabBody_ok h ▸ ⟨nofun, nofun, nofun⟩
  case affEnc => exact affEncBody_ok h ▸ ⟨nofun, nofun, nofun⟩
  case affDec =>
    obtain ⟨x, hx, rfl⟩ := affDecBody_ok h
    exact ⟨fun _ e => Option.some.inj e ▸ ⟨.inl rfl, mem_validMultipliers_of_modInv hx⟩, nofun, nofun⟩
  case affInv =>
    obtain ⟨x, hx, rfl⟩ := affInvBody_ok h
    exact ⟨fun _ e => Option.some.inj e ▸ ⟨.inr rfl, mem_validMultipliers_of_modInv hx⟩, nofun, nofun⟩
  case pfEnc => exact pfEncBody_ok h ▸ ⟨nofun, nofun, fun _ e => Option.some.inj e ▸ ⟨by simp, pfMatWords_ok _⟩⟩
  case pfDec => exact pfDecBody_ok h ▸ ⟨nofun, nofun, fun _ e => Option.some.inj e ▸ ⟨by simp, pfMatWords_ok _⟩⟩
  case pfMat => exact pfMatBody_ok h ▸ ⟨nofun, nofun, fun _ e => Option.some.inj e ▸ ⟨by simp, pfMatWords_ok _⟩⟩
  case hillEnc | hillDec =>
    obtain ⟨-, inv, -, rfl⟩ := hillBody_ok h
    exact ⟨nofun, fun _ e => Option.some.inj e ▸ ⟨by simp, hillInvWords_le _ _⟩, nofun⟩
  case hillInv =>
    obtain ⟨inv, -, rfl⟩ := hillInvBody_ok h
    exact ⟨nofun, fun _ e => Option.some.inj e ▸ ⟨by simp, hillInvWords_le _ _⟩, nofun⟩
  case enigRun =>
    obtain ⟨-, plug, -, rfl⟩ := enigBody_ok h
    exact ⟨nofun, nofun, nofun⟩

/-! ### The size of a result -/

/-- What the bounds of a result rest on: the parameters' constraints and the two clamped lengths (10_state.md R24,
R25). -/
structure State.OperandsFit (s : State) : Prop where
  params : paramsWf s.params
  text : s.textLen.toNat ≤ s.params.textMax
  key : s.keyLen.toNat ≤ s.params.keyMax

theorem State.Inv.operandsFit {s : State} (h : s.Inv) : s.OperandsFit := by
  obtain ⟨hp, -, -, ⟨ht, hk, -⟩, -⟩ := h
  exact ⟨hp, ht, hk⟩

theorem State.OperandsFit.freshResult {s : State} (h : s.OperandsFit) : s.freshResult.OperandsFit :=
  ⟨h.params, h.text, h.key⟩

theorem State.OperandsFit.cleanText_le {s : State} (h : s.OperandsFit) : s.cleanText.length ≤ s.params.textMax :=
  s.cleanText_length_le.trans h.text

theorem State.OperandsFit.cleanKey_le {s : State} (h : s.OperandsFit) : s.cleanKey.length ≤ s.params.keyMax :=
  s.cleanKey_length_le.trans h.key

theorem two_mul_textMax_le (p : Params) : 2 * p.textMax + 4 ≤ outMax p := Nat.le_max_left _ _

theorem keyMax_rows_le (p : Params) : 26 * p.keyMax ≤ outMax p := Nat.le_max_right _ _

@[simp] theorem vigSteps_length (letter : Sym → Sym → Sym) (text key : List Sym) :
    (vigSteps letter text key).length = text.length := by simp [vigSteps]

@[simp] theorem tableauRow_length (k : Sym) : (tableauRow k).length = 26 := by simp [tableauRow, allSyms]

@[simp] theorem enigLetters_length (c : EnigmaConfig) (p : Positions) (text : List Sym) :
    (enigLetters c p text).length = text.length := by
  induction text generalizing p with
  | nil => rfl
  | cons x xs ih => simp [enigLetters, ih]

theorem pfPrep_length_le (cells : List Word) : (pfPrep cells).length ≤ cells.length := by
  simpa [pfPrep] using clean_length_le cells

/-- Each digraph of an encryption takes at least one letter of the text. -/
theorem pfPairs_length_le (text : List Sym) : (pfPairs text).length ≤ text.length := by
  fun_induction pfPairs text with
  | case1 | case2 => simp
  | case3 a rest ih => simp only [List.length_cons] at ih ⊢; omega
  | case4 a b rest hne ih => simp only [List.length_cons]; omega

theorem pfDigraphs_length_le (text : List Sym) : (pfDigraphs text).length ≤ text.length := by
  fun_induction pfDigraphs text with
  | case1 a b rest ih => simp only [List.length_cons]; omega
  | case2 => simp

theorem pfApply_length (seq : List Sym) (d : Int) (pairs : List (Sym × Sym)) :
    (pfApply seq d pairs).length = 2 * pairs.length := by
  simp [pfApply, List.length_flatMap, Nat.mul_comm]

theorem trimX_length_le (l : List Sym) : (trimX l).length ≤ l.length := by
  unfold trimX
  split <;> simp

theorem pfCleanup_length_le (raw : List Sym) : (pfCleanup raw).length ≤ raw.length :=
  (trimX_length_le _).trans <| (List.length_filterMap_le _ _).trans_eq List.length_range

/-- Of the default PF_CLEANUP only; another one may lengthen its argument (log entry 18). -/
theorem pfDecLetters_length_le (raw : List Sym) : (pfDecLetters .standard raw).length ≤ raw.length := by
  unfold pfDecLetters
  split
  · simp
  · exact pfCleanup_length_le raw

theorem hillKeyValid_dim {s : State} (h : s.hillKeyValid = true) : 2 ≤ s.hillN.toNat ∧ s.hillN.toNat ≤ 5 := by
  simp only [State.hillKeyValid, Bool.and_eq_true, List.contains_iff_mem, List.mem_cons, List.not_mem_nil, or_false] at h
  obtain ⟨hn, -⟩ := h
  omega

theorem hillBlocks_length (n : Nat) (text : List Sym) : (hillBlocks n text).length = text.length / n := by
  simp [hillBlocks]

theorem hillPad_length (n : Nat) (text : List Sym) :
    (hillPad n text).length = text.length + (n - text.length % n) % n := by simp [hillPad]

@[simp] theorem hillBlock_length (w : SymMatrix) (n : Nat) (v : List Sym) : (hillBlock w n v).length = n := by
  simp [hillBlock]

/-- The blocks of a padded text are no more than its letters, and together at most n − 1 letters longer. -/
theorem hillBlocks_hillPad_length_le {n : Nat} (hn : 0 < n) (text : List Sym) :
    (hillBlocks n (hillPad n text)).length ≤ text.length ∧
    n * (hillBlocks n (hillPad n text)).length < text.length + n := by
  rw [hillBlocks_length, hillPad_length]
  have hDiv := Nat.div_add_mod text.length n
  have hMod := Nat.mod_lt text.length hn
  have hLe : text.length / n ≤ n * (text.length / n) := Nat.le_mul_of_pos_left _ hn
  generalize text.length / n = q at hDiv hLe
  generalize text.length % n = r at hDiv hMod ⊢
  obtain rfl | hr := Nat.eq_zero_or_pos r
  · rw [Nat.sub_zero, Nat.mod_self, ← hDiv, Nat.add_zero, Nat.mul_div_cancel_left _ hn]
    omega
  · rw [Nat.mod_eq_of_lt (by omega : n - r < n),
      show text.length + (n - r) = n * (q + 1) by rw [Nat.mul_add]; omega, Nat.mul_div_cancel_left _ hn, Nat.mul_add]
    omega

/-- A result that fits its buffers (10_state.md R37, R38): OUT but for PF.DEC with a PF_CLEANUP of the implementation's
own (log entry 18), TRACE always. -/
structure Result.Fits (i : Instr) (p : Params) (r : Result) : Prop where
  out_le : i ≠ .pfDec ∨ p.cleanup = .standard → r.out.length ≤ outMax p
  trace_le : r.trace.length ≤ traceMax p

theorem body_fits {i : Instr} {body : State → Except ErrorCode Result} (hb : commandBody i = some body)
    {s : State} (hs : s.OperandsFit) {r : Result} (h : body s = .ok r) : r.Fits i s.params := by
  have hText := hs.cleanText_le
  have hKey := hs.cleanKey_le
  have hPrep := (pfPrep_length_le s.textCells).trans (s.textCells_length.trans_le hs.text)
  have hOut := two_mul_textMax_le s.params
  have hRows := keyMax_rows_le s.params
  cases i <;> cases hb
  case vigEnc | vigDec =>
    obtain rfl := vigBody_ok h
    exact ⟨fun _ => by simp; omega, by simpa [traceMax] using hText⟩
  case vigTab n =>
    obtain rfl := vigTabBody_ok h
    exact ⟨fun _ => by simp [List.length_flatMap]; omega, by simp⟩
  case affEnc =>
    obtain rfl := affEncBody_ok h
    exact ⟨fun _ => by simp; omega, by simpa [traceMax] using hText⟩
  case affDec =>
    obtain ⟨x, -, rfl⟩ := affDecBody_ok h
    exact ⟨fun _ => by simp; omega, by simpa [traceMax] using hText⟩
  case affInv =>
    obtain ⟨x, -, rfl⟩ := affInvBody_ok h
    exact ⟨fun _ => by simp, by simp⟩
  case pfEnc =>
    obtain rfl := pfEncBody_ok h
    have hPairs := pfPairs_length_le (pfPrep s.textCells)
    exact ⟨fun _ => by rw [pfApply_length]; omega, by simp only [List.length_mapIdx, traceMax]; omega⟩
  case pfDec =>
    obtain rfl := pfDecBody_ok h
    have hPairs := pfDigraphs_length_le (pfPrep s.textCells)
    refine ⟨fun hc => ?_, by simp only [List.length_mapIdx, traceMax]; omega⟩
    have hStd : s.params.cleanup = .standard := by simpa using hc
    have hRaw := pfDecLetters_length_le
      (pfApply (pfMatrix s.cleanKey) (-1) (pfDigraphs (pfPrep s.textCells)))
    rw [pfApply_length] at hRaw
    simp only [hStd]
    omega
  case pfMat =>
    obtain rfl := pfMatBody_ok h
    exact ⟨fun _ => by simp, by simp⟩
  case hillEnc | hillDec =>
    obtain ⟨hValid, inv, -, rfl⟩ := hillBody_ok h
    obtain ⟨hn2, hn5⟩ := hillKeyValid_dim hValid
    obtain ⟨hBlocks, hLetters⟩ := hillBlocks_hillPad_length_le (by omega : 0 < s.hillN.toNat) s.cleanText
    refine ⟨fun _ => ?_, by simp only [List.length_mapIdx, traceMax]; omega⟩
    simp only [List.length_flatMap, hillBlock_length, List.map_const', List.sum_replicate, smul_eq_mul]
    rw [Nat.mul_comm]
    omega
  case hillInv =>
    obtain ⟨inv, -, rfl⟩ := hillInvBody_ok h
    exact ⟨fun _ => by simp, by simp⟩
  case enigRun =>
    obtain ⟨-, plug, -, rfl⟩ := enigBody_ok h
    exact ⟨fun _ => by simp; omega, by simpa [traceMax] using hText⟩

end Sys2Proof.Machine
end

section
/-! PROOFS. What a command leaves: its operands, the cells outside its result, and, from a good state, a good state
(46_control_ops.md R260, 10_state.md R43). -/

namespace Sys2Proof.Machine

/-! ### Equal memories -/

theorem Memory.read?_eq_some_iff {m : Memory} (h : m.wf) (a : Nat) (w : Word) :
    Memory.read? m a = some w ↔ (a, w) ∈ m := by
  induction m with
  | nil => simp [Memory.read?]
  | cons c m ih =>
    obtain ⟨hHead, hTail⟩ := List.pairwise_cons.mp h
    obtain ⟨b, v⟩ := c
    by_cases hab : a = b
    · subst hab
      have hNot : (a, w) ∉ m := fun hm => absurd (hHead _ hm) (Nat.lt_irrefl a)
      simp [Memory.read?, hNot, eq_comm]
    · have hSkip : Memory.read? ((b, v) :: m) a = Memory.read? m a := by
        simp [Memory.read?, List.lookup_cons, beq_false_of_ne hab]
      rw [hSkip, ih hTail]
      simp [hab]

/-- Two memories in canonical form that read alike are the same list. -/
theorem Memory.eq_of_read?_eq {m n : Memory} (hm : m.wf) (hn : n.wf) (h : ∀ a, Memory.read? m a = Memory.read? n a) :
    m = n := by
  have hIrrefl : Std.Irrefl fun c d : Nat × Word => c.1 < d.1 := ⟨fun c => Nat.lt_irrefl c.1⟩
  refine List.Pairwise.eq_of_mem_iff hm hn fun c => ?_
  rw [← Memory.read?_eq_some_iff hm, ← Memory.read?_eq_some_iff hn, h]

/-- The same two blocks written again change nothing. -/
theorem Memory.writeBlock_writeBlock_again {m : Memory} (h : m.wf) (a b : Nat) (xs ys : List Word) :
    (((m.writeBlock a xs).writeBlock b ys).writeBlock a xs).writeBlock b ys = (m.writeBlock a xs).writeBlock b ys := by
  have hOnce : Memory.wf ((m.writeBlock a xs).writeBlock b ys) :=
    Memory.wf_writeBlock _ _ _ (Memory.wf_writeBlock _ _ _ h)
  refine Memory.eq_of_read?_eq (Memory.wf_writeBlock _ _ _ (Memory.wf_writeBlock _ _ _ hOnce)) hOnce fun c => ?_
  simp only [Memory.read?_writeBlock]
  split <;> [rfl; (split <;> rfl)]

/-! ### What a command never writes -/

theorem State.inputsKept_refl (s : State) : s.inputsKept s := by simp [State.inputsKept]

theorem State.inputsKept_clearOutputs (s : State) : s.inputsKept s.clearOutputs := by simp [State.inputsKept]

theorem runOperation_inputsKept (body : State → Except ErrorCode Result) (s : State) :
    s.inputsKept (runOperation body s) := by
  obtain ⟨r, -, h, -⟩ | ⟨e, -, h⟩ := runOperation_cases body s <;> rw [h] <;> simp [State.inputsKept]

theorem exec_inputsKept {i : Instr} {s t : State} (h : exec i s = .next t) : s.inputsKept t := by
  obtain ⟨-, hx⟩ | ⟨-, hx⟩ | ⟨body, -, hx⟩ := exec_cases i s <;> cases hx.symm.trans h
  · exact s.inputsKept_refl
  · exact s.inputsKept_clearOutputs
  · exact runOperation_inputsKept body s

/-- A command writes no cell below OUT. -/
theorem exec_cell_below_out {i : Instr} {s t : State} (h : exec i s = .next t) {a : Nat} (ha : a < outBase) :
    t.cell a = s.cell a := by
  obtain ⟨-, hx⟩ | ⟨-, hx⟩ | ⟨body, -, hx⟩ := exec_cases i s <;> cases hx.symm.trans h
  · rfl
  · rfl
  · obtain ⟨r, -, hr, -⟩ | ⟨e, -, he⟩ := runOperation_cases body s
    · rw [hr, State.cell_finish, State.cell_commit_of_outside _ _ _ (.inl ha)
        (.inl (by simp only [outBase, traceBase] at *; omega)), State.cell_freshResult]
    · rw [he]
      rfl

/-- An output register that a command writes is one of its own (10_state.md R29, R32, R33). -/
theorem exec_output_owner {i : Instr} {s t : State} (h : exec i s = .next t) :
    (t.affAinv = s.affAinv ∨ i = .affDec ∨ i = .affInv ∨ i = .clr) ∧
    (t.hillInv = s.hillInv ∨ i = .hillEnc ∨ i = .hillDec ∨ i = .hillInv ∨ i = .clr) ∧
    (t.pfMat = s.pfMat ∨ i = .pfEnc ∨ i = .pfDec ∨ i = .pfMat ∨ i = .clr) := by
  obtain ⟨-, hx⟩ | ⟨rfl, -⟩ | ⟨body, hb, hx⟩ := exec_cases i s
  · cases hx.symm.trans h
    exact ⟨.inl rfl, .inl rfl, .inl rfl⟩
  · simp
  · cases hx.symm.trans h
    obtain ⟨r, hr, hRun, -⟩ | ⟨e, -, hRun⟩ := runOperation_cases body s <;> rw [hRun]
    · obtain ⟨hAff, hHill, hPf⟩ := body_outputsOk hb hr
      simp only [State.finish_affAinv, State.finish_hillInv, State.finish_pfMat, State.commit_affAinv,
        State.commit_hillInv, State.commit_pfMat]
      refine ⟨?_, ?_, ?_⟩
      · cases hv : r.affAinv with
        | none => exact .inl rfl
        | some w => obtain ⟨rfl | rfl, -⟩ := hAff w hv <;> simp
      · cases hv : r.hillInv with
        | none => exact .inl rfl
        | some v => obtain ⟨rfl | rfl | rfl, -⟩ := hHill v hv <;> simp
      · cases hv : r.pfMat with
        | none => exact .inl rfl
        | some v => obtain ⟨rfl | rfl | rfl, -⟩ := hPf v hv <;> simp
    · exact ⟨.inl rfl, .inl rfl, .inl rfl⟩

/-- Settles O56. -/
theorem commandFrame : Obligations.CommandFrame := fun i s t h => by
  obtain ⟨hAff, hHill, hPf⟩ := exec_output_owner h
  exact ⟨exec_inputsKept h, fun a => exec_cell_below_out h,
    fun hDec hInv hClr => hAff.resolve_right (by simp [hDec, hInv, hClr]),
    fun hEnc hDec hInv hClr => hHill.resolve_right (by simp [hEnc, hDec, hInv, hClr]),
    fun hEnc hDec hMat hClr => hPf.resolve_right (by simp [hEnc, hDec, hMat, hClr])⟩

/-! ### The counts of a committed result -/

theorem outLength_toNat {p : Params} (hp : paramsWf p) {out : List Sym} (h : out.length ≤ outMax p) :
    (outLength out).toNat = out.length := by
  have := outMax_le hp
  rw [outLength_of_lt _ (by omega)]
  simp
  omega

theorem Result.Fits.traceCnt_toNat {i : Instr} {p : Params} {r : Result} (h : r.Fits i p) (hp : paramsWf p) :
    (word r.trace.length).toNat = r.trace.length := by
  have := traceMax_le hp
  have := h.trace_le
  simp
  omega

/-- What an operation from a good state leaves: a result that fits, committed, or an abort. -/
theorem runOperation_of_inv {i : Instr} {body : State → Except ErrorCode Result} (hb : commandBody i = some body)
    {s : State} (hs : s.Inv) :
    (∃ r, body s.freshResult = .ok r ∧ r.Fits i s.params ∧ r.OutputsOk i ∧
      runOperation body s = (s.freshResult.commit r).finish) ∨
    (∃ e, body s.freshResult = .error e ∧ runOperation body s = s.raise e) := by
  obtain ⟨r, hr, hRun, -⟩ | ⟨e, he, hRun⟩ := runOperation_cases body s
  · exact .inl ⟨r, hr, body_fits hb hs.operandsFit.freshResult hr, body_outputsOk hb hr, hRun⟩
  · exact .inr ⟨e, he, hRun⟩

/-! ### Cells outside the result -/

theorem State.cellsKept_of_cell_eq {s t : State} (h : ∀ a, t.cell a = s.cell a) (nOut nTrace : Nat) :
    s.cellsKept t nOut nTrace := fun a _ _ => h a

theorem Result.Fits.cellsKept {i : Instr} {s : State} {r : Result} (h : r.Fits i s.params) (hp : paramsWf s.params) :
    s.cellsKept (s.freshResult.commit r).finish (outMax s.params) (word r.trace.length).toNat ∧
    ((i ≠ .pfDec ∨ s.params.cleanup = .standard) →
      s.cellsKept (s.freshResult.commit r).finish (outLength r.out).toNat (word r.trace.length).toNat) := by
  rw [h.traceCnt_toNat hp]
  refine ⟨fun a hOut hTrace => ?_, fun hc a hOut hTrace => ?_⟩
  · refine State.cell_commit_of_outside s.freshResult r a ?_ hTrace
    rw [State.freshResult_params]
    omega
  · rw [outLength_toNat hp (h.out_le hc)] at hOut
    refine State.cell_commit_of_outside s.freshResult r a ?_ hTrace
    omega

theorem exec_cellsKept {i : Instr} {s t : State} (hs : s.Inv) (h : exec i s = .next t) :
    s.cellsKept t (outMax s.params) t.traceCnt.toNat ∧
    ((i ≠ .pfDec ∨ s.params.cleanup = .standard) → s.cellsKept t t.outLen.toNat t.traceCnt.toNat) := by
  obtain ⟨-, hx⟩ | ⟨-, hx⟩ | ⟨body, hb, hx⟩ := exec_cases i s <;> cases hx.symm.trans h
  · exact ⟨State.cellsKept_of_cell_eq (fun _ => rfl) _ _, fun _ => State.cellsKept_of_cell_eq (fun _ => rfl) _ _⟩
  · exact ⟨State.cellsKept_of_cell_eq s.cell_clearOutputs _ _,
      fun _ => State.cellsKept_of_cell_eq s.cell_clearOutputs _ _⟩
  · obtain ⟨r, -, hFits, -, hRun⟩ | ⟨e, -, hRun⟩ := runOperation_of_inv hb hs <;> rw [hRun]
    · exact hFits.cellsKept hs.operandsFit.params
    · exact ⟨State.cellsKept_of_cell_eq (s.cell_raise e) _ _,
        fun _ => State.cellsKept_of_cell_eq (s.cell_raise e) _ _⟩

/-- Settles O14: the reset by the free values it selects, the commands by `exec_cellsKept`. -/
theorem cellsKeepTheirValue : Obligations.CellsKeepTheirValue :=
  ⟨fun _ _ h => ⟨_, step_of_pending_reset h, State.cell_resetDevice _, rfl, rfl, rfl⟩,
    fun _ _ _ hs h => exec_cellsKept hs h⟩

/-! ### The invariant, command by command -/

theorem State.done_of_status {s : State} {b e : Bool} (h : s.status = statusWord b e) : s.done = b := by
  rw [State.done, h]
  cases b <;> cases e <;> decide

theorem State.statusOk_of_eq {s : State} {b : Bool} (h : s.status = statusWord b (errFlag s.err))
    (hb : s.err ≠ 0 → b = true) : s.statusOk := by
  have hDone := State.done_of_status h
  exact ⟨hDone.symm ▸ h, fun he => hDone.trans (hb he)⟩

theorem errFlag_errorWord (e : ErrorCode) : errFlag (errorWord e) = true := by cases e <;> decide

/-- An abort keeps the invariant (60_exceptions.md R281). -/
theorem State.Inv.raise {s : State} (h : s.Inv) (e : ErrorCode) : (s.raise e).Inv := by
  obtain ⟨hp, -, -, ⟨ht, hk, -⟩, hOutputs, hMem⟩ := h
  refine ⟨hp, State.statusOk_of_eq (b := true) ?_ fun _ => rfl, ⟨errorWord_le_ten e, fun _ => ⟨rfl, rfl⟩⟩,
    ⟨ht, hk, fun _ => Nat.zero_le _, Nat.zero_le _⟩, hOutputs, hMem⟩
  rw [State.raise_err, errFlag_errorWord, State.raise_status]

theorem replicate_zero_le (k : Fin 25) : (Vector.replicate 25 (0 : Word))[k].toNat ≤ 25 := by simp

/-- CLR keeps the invariant (46_control_ops.md R262). -/
theorem State.Inv.clearOutputs {s : State} (h : s.Inv) : s.clearOutputs.Inv := by
  obtain ⟨hp, -, -, ⟨ht, hk, -⟩, -, hMem⟩ := h
  exact ⟨hp, State.statusOk_of_eq (b := false) (by simp) fun he => absurd rfl he,
    ⟨Nat.zero_le _, fun he => absurd rfl he⟩, ⟨ht, hk, fun _ => Nat.zero_le _, Nat.zero_le _⟩,
    ⟨.inl rfl, replicate_zero_le, .inl rfl⟩, hMem⟩

/-- A block written over cells of the buffers keeps the memory in order. -/
theorem memOk_writeBlock {p : Params} {m : Memory} {base : Nat} {ws : List Word}
    (h : m.wf ∧ ∀ c ∈ m, (locateBuffer p c.1).isSome = true)
    (hBlock : ∀ a, base ≤ a → a < base + ws.length → (locateBuffer p a).isSome = true) :
    (m.writeBlock base ws).wf ∧ ∀ c ∈ m.writeBlock base ws, (locateBuffer p c.1).isSome = true := by
  obtain ⟨hWf, hCells⟩ := h
  refine ⟨Memory.wf_writeBlock m base ws hWf, fun c hc => ?_⟩
  obtain hOld | ⟨hlo, hhi⟩ := Memory.mem_writeBlock m base ws c hc
  · exact hCells c hOld
  · exact hBlock c.1 hlo hhi

theorem memOk_write {p : Params} {m : Memory} {a : Nat} {w : Word}
    (h : m.wf ∧ ∀ c ∈ m, (locateBuffer p c.1).isSome = true) (ha : (locateBuffer p a).isSome = true) :
    (m.write a w).wf ∧ ∀ c ∈ m.write a w, (locateBuffer p c.1).isSome = true :=
  memOk_writeBlock h fun b hlo hhi => by
    obtain rfl : b = a := by simp at hhi; omega
    exact ha

theorem locateBuffer_isSome_out {p : Params} (hp : paramsWf p) {a : Nat} (hlo : outBase ≤ a)
    (hhi : a < outBase + outMax p) : (locateBuffer p a).isSome = true := by
  obtain ⟨i, rfl⟩ := Nat.exists_eq_add_of_le hlo
  exact Option.isSome_of_eq_some (locateBuffer_out hp (by omega))

theorem locateBuffer_isSome_trace {p : Params} (hp : paramsWf p) {a : Nat} (hlo : traceBase ≤ a)
    (hhi : a < traceBase + 16 * traceMax p) : (locateBuffer p a).isSome = true := by
  have ha : a = traceBase + 16 * ((a - traceBase) / 16) + (⟨(a - traceBase) % 16, by omega⟩ : Fin 16).val := by
    simp only
    omega
  exact ha ▸ Option.isSome_of_eq_some (locateBuffer_trace hp (by omega) _)

theorem getD_of_forall {α : Type} {P : α → Prop} {o : Option α} {d : α} (hd : P d) (ho : ∀ v, o = some v → P v) :
    P (o.getD d) := by
  cases o with
  | none => exact hd
  | some v => exact ho v rfl

/-- The commit of a result that fits keeps the invariant (46_control_ops.md R260). -/
theorem State.Inv.commit {i : Instr} {s : State} (h : s.Inv) {r : Result} (hFits : r.Fits i s.params)
    (hOut : r.OutputsOk i) : (s.freshResult.commit r).finish.Inv := by
  obtain ⟨hp, -, -, ⟨ht, hk, -⟩, ⟨hAff, hHill, hPf⟩, hMem⟩ := h
  refine ⟨hp, State.statusOk_of_eq (b := true) rfl fun _ => rfl, ⟨Nat.zero_le _, fun he => absurd rfl he⟩,
    ⟨ht, hk, fun hc => ?_, ?_⟩, ⟨?_, ?_, ?_⟩, ?_⟩
  · have hLe := hFits.out_le (.inr hc)
    exact (outLength_toNat hp hLe).trans_le hLe
  · exact (hFits.traceCnt_toNat hp).trans_le hFits.trace_le
  · exact getD_of_forall (P := fun w : Word => w = 0 ∨ w.toNat ∈ validMultipliers) hAff
      fun w hw => .inr (hOut.affAinv w hw).2
  · exact getD_of_forall (P := fun v : Vector Word 25 => ∀ k : Fin 25, v[k].toNat ≤ 25) hHill
      fun v hv => (hOut.hillInv v hv).2
  · exact getD_of_forall (P := fun v : Vector Word 25 => v = Vector.replicate 25 0 ∨
      (v.toList.Nodup ∧ ∀ k : Fin 25, v[k].toNat ≤ 25 ∧ v[k].toNat ≠ 9)) hPf fun v hv => .inr (hOut.pfMat v hv).2
  · refine memOk_writeBlock (memOk_writeBlock hMem fun a hlo hhi => ?_) fun a hlo hhi => ?_
    · rw [outCells_length] at hhi
      refine locateBuffer_isSome_out hp hlo ?_
      simp only [State.freshResult_params] at hhi
      omega
    · rw [flatMap_toList_length] at hhi
      have := hFits.trace_le
      exact locateBuffer_isSome_trace hp hlo (by omega)

theorem exec_inv {i : Instr} {s t : State} (hs : s.Inv) (h : exec i s = .next t) : t.Inv := by
  obtain ⟨-, hx⟩ | ⟨-, hx⟩ | ⟨body, hb, hx⟩ := exec_cases i s <;> cases hx.symm.trans h
  · exact hs
  · exact hs.clearOutputs
  · obtain ⟨r, -, hFits, hOut, hRun⟩ | ⟨e, -, hRun⟩ := runOperation_of_inv hb hs <;> rw [hRun]
    · exact hs.commit hFits hOut
    · exact hs.raise e

theorem exec_params {i : Instr} {s t : State} (h : exec i s = .next t) : t.params = s.params := (exec_inputsKept h).1

/-! ### The invariant, step by step -/

/-- A reset gives a good state from any state whose parameters keep their constraints (R47). -/
theorem State.resetDevice_inv {s : State} (hp : paramsWf s.params) : s.resetDevice.Inv :=
  ⟨hp, State.statusOk_of_eq (b := false) statusWord_false_false.symm fun he => absurd rfl he,
    ⟨Nat.zero_le _, fun he => absurd rfl he⟩,
    ⟨Nat.zero_le _, Nat.zero_le _, fun _ => Nat.zero_le _, Nat.zero_le _⟩, ⟨.inl rfl, replicate_zero_le, .inl rfl⟩,
    List.Pairwise.nil, nofun⟩

/-- Settles O58: `State.reset` is a device reset from itself but for the count of resets, which the invariant does not
read. -/
theorem resetIsGood : Obligations.ResetIsGood :=
  State.resetDevice_inv (s := State.reset) (by decide)

/-- A host's write to a location keeps the invariant (20_memory.md R62). -/
theorem State.Inv.writeLoc {s : State} (h : s.Inv) {l : Loc} (hl : l.inRange s.params = true) (w : Word) :
    (s.writeLoc l w).Inv := by
  obtain ⟨hp, hStatus, hErr, ⟨ht, hk, hLens⟩, hOutputs, hMem⟩ := h
  have htm := hp.2.1
  have hkm := hp.2.2.2.1
  cases l with
  | textLen =>
    refine ⟨hp, hStatus, hErr, ⟨?_, hk, hLens⟩, hOutputs, hMem⟩
    simp [State.writeLoc]
    omega
  | keyLen =>
    refine ⟨hp, hStatus, hErr, ⟨ht, ?_, hLens⟩, hOutputs, hMem⟩
    simp [State.writeLoc]
    omega
  | text i =>
    refine ⟨hp, hStatus, hErr, ⟨ht, hk, hLens⟩, hOutputs, ?_⟩
    exact memOk_write hMem (Option.isSome_of_eq_some (locateBuffer_text (of_decide_eq_true hl)))
  | key i =>
    refine ⟨hp, hStatus, hErr, ⟨ht, hk, hLens⟩, hOutputs, ?_⟩
    exact memOk_write hMem (Option.isSome_of_eq_some (locateBuffer_key hp (of_decide_eq_true hl)))
  | _ => exact ⟨hp, hStatus, hErr, ⟨ht, hk, hLens⟩, hOutputs, hMem⟩

@[simp] theorem State.writeLoc_params (s : State) (l : Loc) (w : Word) : (s.writeLoc l w).params = s.params := by
  cases l <;> rfl

theorem State.hostStore_of_locate {s : State} {a : Addr} {l : Loc} (h : locate s.params a = some l) (w : Word) :
    s.hostStore a w = s.writeLoc l w := by
  simp [State.hostStore, h]

theorem State.hostStore_of_unmapped {s : State} {a : Addr} (h : locate s.params a = none) (w : Word) :
    s.hostStore a w = s := by
  simp [State.hostStore, h]

theorem State.Inv.hostStore {s : State} (h : s.Inv) (a : Addr) (w : Word) :
    (s.hostStore a w).Inv ∧ (s.hostStore a w).params = s.params := by
  cases hl : locate s.params a with
  | none =>
    rw [State.hostStore_of_unmapped hl]
    exact ⟨h, rfl⟩
  | some l =>
    rw [State.hostStore_of_locate hl]
    exact ⟨h.writeLoc (addr_of_locate hl).1 w, s.writeLoc_params l w⟩

theorem runCommand_inv {w : Word} {s t : State} (hs : s.Inv) (h : runCommand w s = .next t) :
    t.Inv ∧ t.params = s.params := by
  have hStored : (s.storeCmd w).Inv := hs
  cases hw : decode w with
  | ok i =>
    rw [runCommand_of_ok hw] at h
    have hParams := exec_params h
    exact ⟨exec_inv hStored h, hParams⟩
  | error r =>
    cases (runCommand_of_error hw s).symm.trans h
    exact ⟨hStored.raise .illegalCommand, rfl⟩

theorem portEvent_inv {e : PortEvent} {s t : State} (hs : s.Inv) (h : portEvent e s = .next t) :
    t.Inv ∧ t.params = s.params := by
  cases e with
  | read a =>
    cases h
    exact ⟨hs, rfl⟩
  | write a w =>
    by_cases ha : a = cmdAddr
    · rw [ha, portEvent_write_cmd] at h
      exact runCommand_inv hs h
    · cases (portEvent_write_of_ne ha w s).symm.trans h
      exact hs.hostStore a w
  | reset =>
    cases h
    exact ⟨State.resetDevice_inv hs.1, rfl⟩

/-- Settles O59, by the host's next access. -/
theorem stepKeepsGood : Obligations.StepKeepsGood := fun s t hs h => by
  cases hPending : s.pending with
  | nil =>
    cases (step_of_idle hPending).symm.trans h
    exact ⟨hs, rfl⟩
  | cons e rest =>
    rw [step_of_pending hPending] at h
    exact portEvent_inv (s := { s with pending := rest }) hs h

end Sys2Proof.Machine
end

section
/-! PROOFS. A command depends on its operands alone: issued again it changes nothing (10_state.md R43), and a Hill
operation reads no more than TEXT, HILL_N and the n×n corner of HILL_M (R31, 93_implementation_defined.md U10). -/

namespace Sys2Proof.Machine

/-! ### The bodies depend on the operands alone -/

/-- The operands of the Hill operations in two states. -/
structure State.SameHillOperands (s u : State) : Prop where
  params : u.params = s.params
  text : u.textCells = s.textCells
  dim : u.hillN = s.hillN
  corner : ∀ r, r < s.hillN.toNat → ∀ c, c < s.hillN.toNat → u.hillEntry r c = s.hillEntry r c

namespace State.SameHillOperands

variable {s u : State}

theorem cleanText (h : s.SameHillOperands u) : u.cleanText = s.cleanText := by
  simp only [State.cleanText, h.text]

theorem hillKeyValid (h : s.SameHillOperands u) : u.hillKeyValid = s.hillKeyValid := by
  rw [Bool.eq_iff_iff]
  simp only [State.hillKeyValid, h.dim, Bool.and_eq_true, List.all_eq_true, List.mem_range]
  exact and_congr_right fun _ => forall₂_congr fun r hr => forall₂_congr fun c hc => by rw [h.corner r hr c hc]

theorem hillKey (h : s.SameHillOperands u) : u.hillKey = s.hillKey := by
  simp only [State.hillKey, h.dim]
  refine List.map_congr_left fun r hr => List.map_congr_left fun c hc => ?_
  rw [h.corner r (List.mem_range.mp hr) c (List.mem_range.mp hc)]

theorem hillBody (h : s.SameHillOperands u) (used : Word) : hillBody used u = hillBody used s := by
  simp only [Machine.hillBody, h.hillKeyValid, h.hillKey, h.dim, h.cleanText, h.params]

theorem hillInvBody (h : s.SameHillOperands u) : hillInvBody u = hillInvBody s := by
  simp only [Machine.hillInvBody, h.hillKeyValid, h.hillKey, h.dim]

end State.SameHillOperands

/-- Every operand of every operation in two states (10_state.md R43). -/
structure State.SameOperands (s u : State) : Prop where
  params : u.params = s.params
  textCells : u.textCells = s.textCells
  keyCells : u.keyCells = s.keyCells
  affA : u.affA = s.affA
  affB : u.affB = s.affB
  hillN : u.hillN = s.hillN
  hillM : u.hillM = s.hillM
  engRotor : u.engRotor = s.engRotor
  engRefl : u.engRefl = s.engRefl
  engPos : u.engPos = s.engPos
  engRing : u.engRing = s.engRing
  engPlugCnt : u.engPlugCnt = s.engPlugCnt
  engPlugA : u.engPlugA = s.engPlugA
  engPlugB : u.engPlugB = s.engPlugB

namespace State.SameOperands

variable {s u : State}

theorem cleanText (h : s.SameOperands u) : u.cleanText = s.cleanText := by
  simp only [State.cleanText, h.textCells]

theorem cleanKey (h : s.SameOperands u) : u.cleanKey = s.cleanKey := by
  simp only [State.cleanKey, h.keyCells]

theorem hill (h : s.SameOperands u) : s.SameHillOperands u :=
  ⟨h.params, h.textCells, h.hillN, fun r _ c _ => by simp only [State.hillEntry, h.hillM]⟩

theorem emptyTextRaises (h : s.SameOperands u) : u.emptyTextRaises = s.emptyTextRaises := by
  funext text
  simp only [State.emptyTextRaises, h.params]

theorem emptyKeywordRaises (h : s.SameOperands u) : u.emptyKeywordRaises = s.emptyKeywordRaises := by
  simp only [State.emptyKeywordRaises, h.cleanKey, h.params]

theorem emptyPrepRaises (h : s.SameOperands u) : u.emptyPrepRaises = s.emptyPrepRaises := by
  simp only [State.emptyPrepRaises, h.textCells, h.params]

theorem enigBody (h : s.SameOperands u) : enigBody u = enigBody s := by
  have hScalar : enigScalarError u = enigScalarError s := by
    simp only [enigScalarError, h.engRotor, h.engRefl, h.engPos, h.engRing]
  have hPlug : enigPlug u = enigPlug s := by
    simp only [enigPlug, State.plugPairs, h.engPlugCnt, h.engPlugA, h.engPlugB]
  have hConfig : enigConfig u = enigConfig s := by
    funext plug
    simp only [enigConfig, h.params, h.engRotor, h.engRefl, h.engPos, h.engRing]
  have hRecord : enigRecord u = enigRecord s := by
    funext i e
    simp only [enigRecord, h.engRotor, h.engRefl, h.engRing]
  simp only [Machine.enigBody, hScalar, hPlug, hConfig, hRecord, h.cleanText, h.params]

/-- No body reads more than the operands. -/
theorem body (h : s.SameOperands u) {i : Instr} {body : State → Except ErrorCode Result}
    (hb : commandBody i = some body) : body u = body s := by
  cases i <;> cases hb
  case vigEnc | vigDec => simp only [vigBody, h.cleanText, h.cleanKey]
  case vigTab => simp only [vigTabBody, h.cleanKey]
  case affEnc => simp only [affEncBody, h.emptyTextRaises, h.cleanText, h.affA, h.affB]
  case affDec => simp only [affDecBody, h.emptyTextRaises, h.cleanText, h.affA, h.affB]
  case affInv => simp only [affInvBody, h.affA]
  case pfEnc => simp only [pfEncBody, h.emptyKeywordRaises, h.emptyPrepRaises, h.cleanKey, h.textCells]
  case pfDec => simp only [pfDecBody, h.emptyKeywordRaises, h.emptyPrepRaises, h.cleanKey, h.textCells, h.params]
  case pfMat => simp only [pfMatBody, h.emptyKeywordRaises, h.cleanKey]
  case hillEnc | hillDec => exact h.hill.hillBody _
  case hillInv => exact h.hill.hillInvBody
  case enigRun => exact h.enigBody

end State.SameOperands

/-! ### A command issued again -/

/-- TEXT and KEY lie below OUT, so a command leaves every operand as it was. -/
theorem exec_sameOperands {i : Instr} {s t : State} (hs : s.Inv) (h : exec i s = .next t) :
    s.freshResult.SameOperands t.freshResult := by
  obtain ⟨⟨-, htm, -, hkm, -⟩, -, -, ⟨ht, hk, -⟩, -⟩ := hs
  obtain ⟨hParams, -, -, -, -, hText, hKey, hA, hB, hN, hM, hRotor, hRefl, hPos, hRing, hCnt, hPlugA, hPlugB⟩ :=
    exec_inputsKept h
  refine ⟨hParams, ?_, ?_, hA, hB, hN, hM, hRotor, hRefl, hPos, hRing, hCnt, hPlugA, hPlugB⟩
  · simp only [State.textCells, State.freshResult_textLen, hText, State.cell_freshResult]
    refine List.map_congr_left fun j hj => exec_cell_below_out h ?_
    have := List.mem_range.mp hj
    simp only [textBase, outBase]
    omega
  · simp only [State.keyCells, State.freshResult_keyLen, hKey, State.cell_freshResult]
    refine List.map_congr_left fun j hj => exec_cell_below_out h ?_
    have := List.mem_range.mp hj
    simp only [keyBase, outBase]
    omega

/-- The same result committed again. -/
theorem State.commit_again {s : State} (h : s.mem.wf) (r : Result) :
    ((s.freshResult.commit r).finish.freshResult.commit r).finish = (s.freshResult.commit r).finish := by
  have hMem := Memory.writeBlock_writeBlock_again h outBase traceBase (outCells s.params r.out)
    (r.trace.flatMap Vector.toList)
  have hGetD : ∀ {α : Type} (o : Option α) (d : α), o.getD (o.getD d) = o.getD d := fun o d => by cases o <;> rfl
  simp only [State.commit, State.finish, State.freshResult, hMem, hGetD]

theorem runOperation_again {i : Instr} {body : State → Except ErrorCode Result} (hb : commandBody i = some body)
    {s : State} (hs : s.Inv) : runOperation body (runOperation body s) = runOperation body s := by
  have hBody : body (runOperation body s).freshResult = body s.freshResult :=
    (exec_sameOperands hs (exec_of_commandBody hb s)).body hb
  obtain ⟨r, hr, hRun, -⟩ | ⟨e, he, hRun⟩ := runOperation_cases body s
  · rw [runOperation_of_ok body _ r (hBody.trans hr), hRun]
    obtain ⟨-, -, -, -, -, hWf, -⟩ := hs
    exact State.commit_again hWf r
  · rw [runOperation_of_error body _ e (hBody.trans he), hRun]

/-- Settles O57: the operands are as they were, so the body gives the same result, whose commit changes nothing. -/
theorem repeatedCommandChangesNothing : Obligations.RepeatedCommandChangesNothing := fun i s t hs h => by
  obtain ⟨rfl, -⟩ | ⟨rfl, hx⟩ | ⟨body, hb, hx⟩ := exec_cases i s
  · exact exec_nop t
  · cases hx.symm.trans h
    rfl
  · cases hx.symm.trans h
    rw [exec_of_commandBody hb, runOperation_again hb hs]

/-! ### The unused operands of the Hill operations -/

/-- A result that fits is read in OUT and TRACE alike, whatever state it is committed to. -/
theorem Result.Fits.readLoc_eq {i : Instr} {s u : State} {r : Result} (h : r.Fits i s.params) (hi : i ≠ .pfDec)
    (hp : paramsWf s.params) (hParams : u.params = s.params) :
    (∀ j, j < (outLength r.out).toNat → (u.freshResult.commit r).finish.readLoc (.out j) =
      (s.freshResult.commit r).finish.readLoc (.out j)) ∧
    (∀ k f, k < (word r.trace.length).toNat → (u.freshResult.commit r).finish.readLoc (.trace k f) =
      (s.freshResult.commit r).finish.readLoc (.trace k f)) := by
  have hOut := h.out_le (.inl hi)
  have hMax := outMax_le hp
  rw [outLength_toNat hp hOut, h.traceCnt_toNat hp]
  refine ⟨fun j hj => ?_, fun k f hk => ?_⟩
  · exact (State.readLoc_out_commit u.freshResult r j hj (hParams ▸ by omega) (hParams ▸ by omega)).trans
      (State.readLoc_out_commit s.freshResult r j hj (by simp only [State.freshResult_params]; omega)
        (by simp only [State.freshResult_params]; omega)).symm
  · exact (State.readLoc_trace_commit u.freshResult r k f hk).trans
      (State.readLoc_trace_commit s.freshResult r k f hk).symm

/-- A Hill operation depends on its operands alone, and on success writes HILL_INV (10_state.md R32). -/
theorem commandBody_hill {i : Instr} (hi : i = .hillEnc ∨ i = .hillDec ∨ i = .hillInv) :
    ∃ body, commandBody i = some body ∧ (∀ s u : State, s.SameHillOperands u → body u = body s) ∧
      ∀ s r, body s = .ok r → ∃ v, r.hillInv = some v := by
  obtain rfl | rfl | rfl := hi
  case inr.inr =>
    refine ⟨_, rfl, fun _ _ h => h.hillInvBody, fun s r h => ?_⟩
    obtain ⟨inv, -, rfl⟩ := hillInvBody_ok h
    exact ⟨_, rfl⟩
  all_goals
    refine ⟨_, rfl, fun _ _ h => h.hillBody _, fun s r h => ?_⟩
    obtain ⟨-, inv, -, rfl⟩ := hillBody_ok h
    exact ⟨_, rfl⟩

theorem State.sameHillOperands_of_readLoc {s u : State} (hParams : u.params = s.params)
    (hLen : u.textLen = s.textLen)
    (hText : ∀ j, j < s.textLen.toNat → u.readLoc (.text j) = s.readLoc (.text j)) (hN : u.hillN = s.hillN)
    (hCorner : ∀ r, r < s.hillN.toNat → ∀ c, c < s.hillN.toNat → u.hillEntry r c = s.hillEntry r c) :
    s.SameHillOperands u := by
  refine ⟨hParams, ?_, hN, hCorner⟩
  simp only [State.textCells, hLen]
  exact List.map_congr_left fun j hj => hText j (List.mem_range.mp hj)

/-- Settles O46: equal operands give equal results, and a result shows alike in both states. -/
theorem hillIgnoresUnusedOperands : Obligations.HillIgnoresUnusedOperands := by
  intro i s u t v hi hs hu hParams hLen hText hN hCorner ht hv
  obtain ⟨body, hb, hCongr, hWrites⟩ := commandBody_hill hi
  have hOperands := State.sameHillOperands_of_readLoc hParams hLen hText hN hCorner
  have hBody : body u.freshResult = body s.freshResult :=
    hCongr _ _ ⟨hOperands.params, hOperands.text, hOperands.dim, hOperands.corner⟩
  have hNotDec : i ≠ .pfDec := by rintro rfl; simp at hi
  cases (exec_of_commandBody hb s).symm.trans ht
  cases (exec_of_commandBody hb u).symm.trans hv
  obtain ⟨r, hr, hFits, -, hRun⟩ | ⟨e, he, hRun⟩ := runOperation_of_inv hb hs
  · obtain ⟨w, hw⟩ := hWrites _ _ hr
    obtain ⟨hOut, hTrace⟩ := hFits.readLoc_eq hNotDec hs.operandsFit.params hParams
    rw [hRun, runOperation_of_ok body u r (hBody.trans hr)]
    exact ⟨rfl, rfl, rfl, fun _ => by simp [hw], hOut, hTrace⟩
  · rw [hRun, runOperation_of_error body u e (hBody.trans he)]
    exact ⟨rfl, rfl, rfl, fun h => absurd h (errorWord_ne_zero e), fun j hj => absurd hj (Nat.not_lt_zero j),
      fun k _ hk => absurd hk (Nat.not_lt_zero k)⟩

end Sys2Proof.Machine
end

section
/-! PROOFS. The host's accesses: a read has no effect but its reply (20_memory.md R61), and a write acts on the one
location that its address names, if any (R62, R64). -/

namespace Sys2Proof.Machine

/-! ### Reads -/

theorem run_succ_of_step {s t : State} (h : step s = .next t) (n : Nat) : run (n + 1) s = run n t := by
  simp [run, h]

/-- What a location holds does not depend on the host's queue or on the replies it holds. -/
@[simp] theorem State.readLoc_with_queue (s : State) (events : List PortEvent) (words : List Word) (l : Loc) :
    ({ s with pending := events, replies := words } : State).readLoc l = s.readLoc l := by
  cases l <;> rfl

@[simp] theorem State.hostRead_with_queue (s : State) (events : List PortEvent) (words : List Word) (a : Addr) :
    ({ s with pending := events, replies := words } : State).hostRead a = s.hostRead a := by
  simp [State.hostRead]

@[simp] theorem State.memRead_with_queue (s : State) (events : List PortEvent) (words : List Word) (a : Addr)
    (n : Nat) : ({ s with pending := events, replies := words } : State).memRead a n = s.memRead a n := by
  simp [State.memRead]

/-- The accesses at `a`, `a + 1`, … are the one at `a` and those that start at `a + 1`. -/
theorem map_range_succ_addr {α : Type} (f : Addr → α) (a : Addr) (n : Nat) :
    (List.range (n + 1)).map (fun k => f (a + BitVec.ofNat 16 k)) =
      f a :: (List.range n).map fun k => f (a + 1 + BitVec.ofNat 16 k) := by
  have hShift (k : Nat) : a + BitVec.ofNat 16 (k + 1) = a + 1 + BitVec.ofNat 16 k := by
    rw [Nat.add_comm k 1, BitVec.ofNat_add, ← BitVec.add_assoc]
    rfl
  rw [List.range_succ_eq_map, List.map_cons, List.map_map]
  exact congrArg₂ _ (congrArg f (BitVec.add_zero a)) (List.map_congr_left fun k _ => congrArg f (hShift k))

theorem memReadEvents_succ (a : Addr) (n : Nat) : memReadEvents a (n + 1) = .read a :: memReadEvents (a + 1) n :=
  map_range_succ_addr PortEvent.read a n

theorem State.memRead_succ (s : State) (a : Addr) (n : Nat) :
    s.memRead a (n + 1) = s.hostRead a :: s.memRead (a + 1) n :=
  map_range_succ_addr s.hostRead a n

theorem step_of_pending_read {s : State} {a : Addr} {rest : List PortEvent} (h : s.pending = .read a :: rest) :
    step s = .next { s with pending := rest, replies := s.replies ++ [s.hostRead a] } := by
  rw [step_of_pending h, portEvent_read]
  simp

theorem run_memReadEvents (n : Nat) (s : State) (a : Addr) (rest : List PortEvent)
    (h : s.pending = memReadEvents a n ++ rest) :
    run n s = .next { s with pending := rest, replies := s.replies ++ s.memRead a n } := by
  induction n generalizing s a with
  | zero =>
    have hRest : rest = s.pending := h.symm
    simp [run, State.memRead, hRest]
  | succ n ih =>
    rw [memReadEvents_succ] at h
    rw [run_succ_of_step (step_of_pending_read h), ih _ (a + 1) rfl, State.memRead_with_queue, State.memRead_succ]
    simp

@[simp] theorem State.memRead_length (s : State) (a : Addr) (n : Nat) : (s.memRead a n).length = n := by
  simp [State.memRead]

theorem State.memRead_getElem? (s : State) (a : Addr) {n k : Nat} (h : k < n) :
    (s.memRead a n)[k]? = some (s.hostRead (a + BitVec.ofNat 16 k)) := by
  simp [State.memRead, h]

/-- Settles O7, by induction on the number of reads. -/
theorem readsReturnInOrder : Obligations.ReadsReturnInOrder := fun n s a rest h =>
  ⟨run_memReadEvents n s a rest h, s.memRead_length a n, fun _ hk => s.memRead_getElem? a hk⟩

/-! ### A step on a write that is no command -/

theorem locate_cmdAddr (p : Params) : locate p cmdAddr = some .cmd := rfl

/-- A write to an address that does not name CMD is a plain store. -/
theorem step_of_pending_write {s : State} {a : Addr} {w : Word} {rest : List PortEvent}
    (h : s.pending = .write a w :: rest) (hCmd : locate s.params a ≠ some .cmd) :
    step s = .next (({ s with pending := rest } : State).hostStore a w) := by
  have ha : a ≠ cmdAddr := by
    rintro rfl
    exact hCmd (locate_cmdAddr s.params)
  rw [step_of_pending h, portEvent_write_of_ne ha]

theorem step_of_pending_store {s : State} {a : Addr} {w : Word} {rest : List PortEvent} {l : Loc}
    (h : s.pending = .write a w :: rest) (hLocate : locate s.params a = some l) (hCmd : l ≠ .cmd) :
    step s = .next (({ s with pending := rest } : State).writeLoc l w) := by
  rw [step_of_pending_write h (by simp [hLocate, hCmd]),
    State.hostStore_of_locate (s := { s with pending := rest }) hLocate]

theorem step_of_pending_unmapped_write {s : State} {a : Addr} {w : Word} {rest : List PortEvent}
    (h : s.pending = .write a w :: rest) (hNone : locate s.params a = none) :
    step s = .next { s with pending := rest } := by
  rw [step_of_pending_write h (by simp [hNone]), State.hostStore_of_unmapped (s := { s with pending := rest }) hNone]

/-! ### What a write to a location does -/

@[simp] theorem State.writeLoc_pending (s : State) (l : Loc) (w : Word) : (s.writeLoc l w).pending = s.pending := by
  cases l <;> rfl

@[simp] theorem State.writeLoc_replies (s : State) (l : Loc) (w : Word) : (s.writeLoc l w).replies = s.replies := by
  cases l <;> rfl

@[simp] theorem State.writeLoc_resets (s : State) (l : Loc) (w : Word) : (s.writeLoc l w).resets = s.resets := by
  cases l <;> rfl

theorem State.writeLoc_of_readOnly {l : Loc} (h : l.access = .readOnly) (s : State) (w : Word) :
    s.writeLoc l w = s := by
  cases l with
  | status | err | outLen | traceCnt | affAinv | hillInv | pfMat | affValidA | rotorWiring | rotorNotch | reflWiring
  | reflName | out | trace => rfl
  | _ => cases h

/-- One word written to a buffer cell, read back at every cell. -/
theorem State.cell_memWrite (s : State) (a b : Nat) (w : Word) :
    ({ s with mem := s.mem.write a w } : State).cell b = if b = a then w else s.cell b := by
  simp only [State.cell, Memory.read?_write]
  split <;> rfl

/-- A read-write location takes the word, the two lengths the clamped one (10_state.md R24, R25). -/
theorem State.readLoc_writeLoc_self (s : State) {l : Loc} (h : l.access = .readWrite) (w : Word) :
    (s.writeLoc l w).readLoc l = if l = .textLen then word (min w.toNat s.params.textMax)
      else if l = .keyLen then word (min w.toNat s.params.keyMax) else w := by
  cases l with
  | cmd | textLen | keyLen | affA | affB | hillN | engRefl | engPlugCnt => rfl
  | hillM k | engRotor k | engPos k | engRing k | engPlugA k | engPlugB k =>
    simp [State.writeLoc, State.readLoc]
  | text i | key i => simp [State.writeLoc, State.readLoc, State.cell_memWrite]
  | _ => cases h

/-- Two locations in range have different addresses, since the address map finds each from its own. -/
theorem Loc.addr_ne {p : Params} (hp : paramsWf p) {l l' : Loc} (hl : l.inRange p = true)
    (hl' : l'.inRange p = true) (h : l' ≠ l) : l'.addr ≠ l.addr := fun hAddr =>
  h (Option.some.inj (by rw [← locate_addr hp l' hl', hAddr, locate_addr hp l hl]))

/-- Writing the buffer cell at one address leaves every location with another address as it was. -/
theorem State.readLoc_memWrite_of_ne (s : State) {l : Loc} {a : Nat} (h : l.addr ≠ a) (w : Word) :
    ({ s with mem := s.mem.write a w } : State).readLoc l = s.readLoc l := by
  cases l with
  | text | key | out | trace => exact (s.cell_memWrite _ _ w).trans (if_neg h)
  | _ => rfl

/-- A write to one location leaves every other location as it was (20_memory.md R62): a buffer cell because addresses
differ, a register because only a location of the same register, or of another index of its array, reads that field. -/
theorem State.readLoc_writeLoc_of_ne {s : State} (hp : paramsWf s.params) {l l' : Loc}
    (hl : l.inRange s.params = true) (hl' : l'.inRange s.params = true) (h : l' ≠ l) (w : Word) :
    (s.writeLoc l w).readLoc l' = s.readLoc l' := by
  have hAddr := Loc.addr_ne hp hl hl' h
  cases l with
  | text i | key i => exact s.readLoc_memWrite_of_ne hAddr w
  | cmd | textLen | keyLen | affA | affB | hillN | engRefl | engPlugCnt =>
    cases l' <;> try rfl
    exact absurd rfl h
  | hillM k | engRotor k | engPos k | engRing k | engPlugA k | engPlugB k =>
    cases l' <;> try rfl
    next k' =>
      have hk : k.val ≠ k'.val := fun hk => h (Fin.ext hk ▸ rfl)
      exact Vector.getElem_set_ne k.isLt k'.isLt hk
  | _ => rfl

/-- Settles O8: the write is a plain store at the location that its address names. -/
theorem writeSetsOneLocation : Obligations.WriteSetsOneLocation := by
  intro s l w rest hp hl hAccess hCmd hPending
  have hStep := step_of_pending_store hPending (locate_addr hp l hl) hCmd
  refine ⟨_, hStep, State.readLoc_writeLoc_self _ hAccess w, fun l' hNe hl' => ?_, by simp, by simp, by simp, by simp⟩
  rw [State.readLoc_writeLoc_of_ne (s := { s with pending := rest }) hp hl hl' hNe, State.readLoc_with_queue]

/-- Settles O9: no unmapped and no read-only address is CMD's, and such a write stores nothing. -/
theorem unmappedAndReadOnly : Obligations.UnmappedAndReadOnly := by
  refine ⟨fun s a => State.hostRead_of_unmapped, fun s a w rest hPending h => ?_⟩
  obtain hNone | ⟨l, hLocate, hAccess⟩ := h
  · exact step_of_pending_unmapped_write hPending hNone
  · have hCmd : l ≠ .cmd := by
      rintro rfl
      cases hAccess
    rw [step_of_pending_store hPending hLocate hCmd, State.writeLoc_of_readOnly hAccess]

end Sys2Proof.Machine
end

section
/-! PROOFS. The command word: what a row of the opcode map selects, said once in terms of the word's fields, and from
it that decoding and encoding agree and which words are illegal (30_encoding.md R80 to R84). -/

namespace Sys2Proof

/-! ### The fields of a word -/

theorem toNat_eq_fields (w : Word) :
    w.toNat = 65536 * (rsvField w).toNat + 256 * (argField w).toNat + (opcField w).toNat := by
  have hw := w.isLt
  simp only [rsvField, argField, opcField, BitVec.extractLsb'_toNat, Nat.shiftRight_eq_div_pow]
  omega

theorem word_eq_iff_fields (v w : Word) :
    v = w ↔ rsvField v = rsvField w ∧ argField v = argField w ∧ opcField v = opcField w := by
  refine ⟨by rintro rfl; exact ⟨rfl, rfl, rfl⟩, fun ⟨hRsv, hArg, hOpc⟩ => BitVec.eq_of_toNat_eq ?_⟩
  rw [toNat_eq_fields v, toNat_eq_fields w, hRsv, hArg, hOpc]

@[simp] theorem rsvField_and (v w : Word) : rsvField (v &&& w) = rsvField v &&& rsvField w := BitVec.extractLsb'_and

@[simp] theorem argField_and (v w : Word) : argField (v &&& w) = argField v &&& argField w := BitVec.extractLsb'_and

@[simp] theorem opcField_and (v w : Word) : opcField (v &&& w) = opcField v &&& opcField w := BitVec.extractLsb'_and

/-- RSV and ARG of VIG.TAB's word are `Laws.FieldsOfWord.vigTab`. -/
theorem opcField_encode_vigTab (n : Nat) : opcField (encode (.vigTab n)) = 0x12 := by
  apply BitVec.eq_of_toNat_eq
  simp [opcField, encode, word, BitVec.extractLsb'_toNat]

/-! ### What a row of the opcode map selects -/

/-- The row of VIG.TAB, the only one of format N. -/
def vigTabRow : OpcodeRow := ⟨0x00000012#32, 0xFFFF00FF#32, .vigTab⟩

theorem vigTabRow_mem : vigTabRow ∈ opcodeMap := by simp [opcodeMap, vigTabRow]

/-- A row of format Z: one word, all of whose bits count, for one command. -/
structure OpcodeRow.IsFormatZ (row : OpcodeRow) : Prop where
  mask_eq : row.mask = 0xFFFFFFFF#32
  bits_fields : rsvField row.bits = 0 ∧ argField row.bits = 0 ∧ opcField row.bits ≠ 0x12
  make_wf : ∀ n, (row.make n).wf = true
  encode_make : ∀ n, encode (row.make n) = row.bits

theorem opcodeMap_formats {row : OpcodeRow} (h : row ∈ opcodeMap) : row.IsFormatZ ∨ row = vigTabRow := by
  simp only [opcodeMap, List.mem_cons, List.not_mem_nil, or_false] at h
  rcases h with rfl | rfl | rfl | rfl | rfl | rfl | rfl | rfl | rfl | rfl | rfl | rfl | rfl | rfl | rfl
  case inr.inr.inr.inr.inl => exact .inr rfl
  all_goals exact .inl ⟨rfl, by decide, fun _ => rfl, fun _ => rfl⟩

theorem OpcodeRow.IsFormatZ.selects_iff {row : OpcodeRow} (h : row.IsFormatZ) (w : Word) :
    row.selects w = true ↔ w = row.bits := by
  have hOnes : w &&& 0xFFFFFFFF#32 = w := BitVec.and_allOnes
  simp [OpcodeRow.selects, h.mask_eq, hOnes]

theorem vigTabRow_selects_iff (w : Word) : vigTabRow.selects w = true ↔ rsvField w = 0 ∧ opcField w = 0x12 := by
  have hMask (v : Word) : rsvField (v &&& 0xFFFF00FF#32) = rsvField v ∧ argField (v &&& 0xFFFF00FF#32) = 0 ∧
      opcField (v &&& 0xFFFF00FF#32) = opcField v := by
    rw [rsvField_and, argField_and, opcField_and]
    exact ⟨BitVec.and_allOnes, BitVec.and_zero, BitVec.and_allOnes⟩
  have hBits : rsvField 0x12#32 = 0 ∧ argField 0x12#32 = 0 ∧ opcField 0x12#32 = 0x12 := by decide
  simp [OpcodeRow.selects, vigTabRow, word_eq_iff_fields, hMask, hBits]

/-- A row selects the words with its OPC whose RSV is 0 and, but for VIG.TAB, whose ARG is 0. -/
theorem selects_iff_fields {row : OpcodeRow} (h : row ∈ opcodeMap) (w : Word) :
    row.selects w = true ↔
      rsvField w = 0 ∧ opcField w = opcField row.bits ∧ (opcField w = 0x12 ∨ argField w = 0) := by
  obtain hZ | rfl := opcodeMap_formats h
  · obtain ⟨hRsv, hArg, hOpc⟩ := hZ.bits_fields
    rw [hZ.selects_iff, word_eq_iff_fields, hRsv, hArg]
    grind
  · have hOpc : opcField vigTabRow.bits = 0x12 := by decide
    rw [vigTabRow_selects_iff, hOpc]
    tauto

/-- A row's instruction is well formed, and its word is the word that selected the row. -/
theorem encode_make_of_selects {row : OpcodeRow} (h : row ∈ opcodeMap) {w : Word} (hSel : row.selects w = true) :
    (row.make (argField w).toNat).wf = true ∧ encode (row.make (argField w).toNat) = w := by
  obtain hZ | rfl := opcodeMap_formats h
  · exact ⟨hZ.make_wf _, (hZ.encode_make _).trans ((hZ.selects_iff w).mp hSel).symm⟩
  · obtain ⟨hRsv, hOpc⟩ := (vigTabRow_selects_iff w).mp hSel
    have hWf : (Instr.vigTab (argField w).toNat).wf = true := decide_eq_true (argField w).isLt
    obtain ⟨hRsv', hArg'⟩ := Laws.FieldsOfWord.vigTab (argField w).toNat hWf
    refine ⟨hWf, (word_eq_iff_fields _ w).mpr ⟨hRsv'.trans hRsv.symm, hArg'.trans (by simp), ?_⟩⟩
    exact (opcField_encode_vigTab _).trans hOpc.symm

/-- The OPC column of 30_encoding.md R83. -/
theorem opcodeMap_opcodes : opcodeMap.map (fun row => opcField row.bits) =
    [0x00#8, 0x01#8, 0x10#8, 0x11#8, 0x12#8, 0x20#8, 0x21#8, 0x22#8, 0x30#8, 0x31#8, 0x32#8, 0x40#8, 0x41#8, 0x42#8,
      0x50#8] := by decide

/-- No two rows have one OPC, so at most one row selects a word. -/
theorem eq_of_selects {row row' : OpcodeRow} (h : row ∈ opcodeMap) (h' : row' ∈ opcodeMap) {w : Word}
    (hSel : row.selects w = true) (hSel' : row'.selects w = true) : row = row' := by
  have hNodup : (opcodeMap.map fun row => opcField row.bits).Nodup := by rw [opcodeMap_opcodes]; decide
  obtain ⟨-, hOpc, -⟩ := (selects_iff_fields h w).mp hSel
  obtain ⟨-, hOpc', -⟩ := (selects_iff_fields h' w).mp hSel'
  exact List.inj_on_of_nodup_map hNodup h h' (hOpc.symm.trans hOpc')

/-! ### The decoder -/

theorem decode_of_selects {row : OpcodeRow} (h : row ∈ opcodeMap) {w : Word} (hSel : row.selects w = true) :
    decode w = .ok (row.make (argField w).toNat) := by
  obtain ⟨row', hFind⟩ := Option.isSome_iff_exists.mp (List.find?_isSome (p := (·.selects w)).mpr ⟨row, h, hSel⟩)
  have hSel' : row'.selects w = true := List.find?_some (p := fun r : OpcodeRow => r.selects w) hFind
  obtain rfl := eq_of_selects h (List.mem_of_find?_eq_some hFind) hSel hSel'
  simp [decode, hFind]

theorem decode_of_not_selects {w : Word} (h : ∀ row ∈ opcodeMap, ¬ row.selects w = true) :
    decode w = .error (decodeError w) := by
  simp [decode, List.find?_eq_none.mpr h]

/-- What the decoder can answer: the instruction of the row that selects the word, or the reason why none does. -/
theorem decode_cases (w : Word) :
    (∃ row ∈ opcodeMap, row.selects w = true ∧ decode w = .ok (row.make (argField w).toNat)) ∨
    ((∀ row ∈ opcodeMap, ¬ row.selects w = true) ∧ decode w = .error (decodeError w)) := by
  by_cases h : ∃ row ∈ opcodeMap, row.selects w = true
  · obtain ⟨row, hMem, hSel⟩ := h
    exact .inl ⟨row, hMem, hSel, decode_of_selects hMem hSel⟩
  · have hNone : ∀ row ∈ opcodeMap, ¬ row.selects w = true := fun row hMem hSel => h ⟨row, hMem, hSel⟩
    exact .inr ⟨hNone, decode_of_not_selects hNone⟩

/-- A word is legal when its RSV is 0, its OPC is one of the fifteen, and its ARG is 0 but for VIG.TAB
(30_encoding.md R84). -/
theorem selected_iff_fields (w : Word) : (∃ row ∈ opcodeMap, row.selects w = true) ↔
    rsvField w = 0 ∧ opcField w ∈ opcodeMap.map (fun row => opcField row.bits) ∧
      (opcField w = 0x12 ∨ argField w = 0) := by
  rw [List.mem_map]
  constructor
  · rintro ⟨row, hMem, hSel⟩
    obtain ⟨hRsv, hOpc, hArg⟩ := (selects_iff_fields hMem w).mp hSel
    exact ⟨hRsv, ⟨row, hMem, hOpc.symm⟩, hArg⟩
  · rintro ⟨hRsv, ⟨row, hMem, hOpc⟩, hArg⟩
    exact ⟨row, hMem, (selects_iff_fields hMem w).mpr ⟨hRsv, hOpc.symm, hArg⟩⟩

theorem decode_eq_error_iff (w : Word) : (∃ e, decode w = .error e) ↔
    ¬ ∃ row ∈ opcodeMap, row.selects w = true := by
  obtain ⟨row, hMem, hSel, hOk⟩ | ⟨hNone, hError⟩ := decode_cases w
  · simp only [hOk, reduceCtorEq, exists_false, false_iff, not_not]
    exact ⟨row, hMem, hSel⟩
  · exact iff_of_true ⟨_, hError⟩ fun ⟨row, hMem, hSel⟩ => hNone row hMem hSel

/-! ### Decoding and encoding agree -/

theorem decode_encode_vigTab {n : Nat} (h : (Instr.vigTab n).wf = true) :
    decode (encode (.vigTab n)) = .ok (.vigTab n) := by
  obtain ⟨hRsv, hArg⟩ := Laws.FieldsOfWord.vigTab n h
  have hCount : (argField (encode (.vigTab n))).toNat = n :=
    (congrArg BitVec.toNat hArg).trans (Nat.mod_eq_of_lt (of_decide_eq_true h))
  rw [decode_of_selects vigTabRow_mem ((vigTabRow_selects_iff _).mpr ⟨hRsv, opcField_encode_vigTab n⟩), hCount]
  rfl

/-- Settles O1, by cases on the command: fourteen have one word each, and VIG.TAB has one for every count. -/
theorem decodeOfEncode : Obligations.DecodeOfEncode := fun i hWf => by
  cases i with
  | vigTab n => exact decode_encode_vigTab hWf
  | nop | clr | vigEnc | vigDec | affEnc | affDec | affInv | pfEnc | pfDec | pfMat | hillEnc | hillDec | hillInv
  | enigRun => rfl

/-- Settles O2: the word selected a row, whose instruction has that word. -/
theorem encodeOfDecode : Obligations.EncodeOfDecode := fun w i h => by
  obtain ⟨row, hMem, hSel, hOk⟩ | ⟨-, hError⟩ := decode_cases w
  · obtain rfl : row.make (argField w).toNat = i := Except.ok.inj (hOk.symm.trans h)
    exact encode_make_of_selects hMem hSel
  · cases hError.symm.trans h

/-! ### Illegal words -/

theorem decode_eq_error_iff_fields (w : Word) : (∃ e, decode w = .error e) ↔
    rsvField w ≠ 0 ∨ opcField w ∉ opcodeMap.map (fun row => opcField row.bits) ∨
      (opcField w ≠ 0x12 ∧ argField w ≠ 0) := by
  rw [decode_eq_error_iff, selected_iff_fields]
  tauto

/-- The OPC ranges that 30_encoding.md R84 lists as illegal. -/
def illegalOpcRange (opc : Nat) : Prop :=
  0x02 ≤ opc ∧ opc ≤ 0x0F ∨ 0x13 ≤ opc ∧ opc ≤ 0x1F ∨ 0x23 ≤ opc ∧ opc ≤ 0x2F ∨ 0x33 ≤ opc ∧ opc ≤ 0x3F ∨
    0x43 ≤ opc ∧ opc ≤ 0x4F ∨ 0x51 ≤ opc

theorem opcodes_not_in_illegalOpcRange :
    ∀ opc ∈ opcodeMap.map (fun row => opcField row.bits), ¬ illegalOpcRange opc.toNat := by
  rw [opcodeMap_opcodes]
  unfold illegalOpcRange
  decide

open Machine in
/-- The body of 46_control_ops.md R263, after CMD has taken the word. -/
theorem portEvent_write_cmd_of_error {w : Word} {e : DecodeError} (h : decode w = .error e) (s : State) :
    portEvent (.write cmdAddr w) s = .next { s with cmd := w, outLen := 0, traceCnt := 0, err := 10, status := 3 } := by
  rw [portEvent_write_cmd, runCommand_of_error h]
  rfl

/-- Settles O3, from the fields of the words that the opcode map selects. -/
theorem illegalWordsExactly : Obligations.IllegalWordsExactly := by
  refine ⟨fun w => ?_, ?_, fun s w e h => portEvent_write_cmd_of_error h s⟩
  · rw [← opcodeMap_opcodes]
    exact decode_eq_error_iff_fields w
  · rintro w _ rfl hRange
    exact (decode_eq_error_iff_fields w).mpr (.inr (.inl fun hMem => opcodes_not_in_illegalOpcRange _ hMem hRange))

/-- Settles O4: seven of the words are their command's own, and the other three select no row. -/
theorem tabledWordsDecode : Obligations.TabledWordsDecode :=
  ⟨decodeOfEncode .clr rfl, decodeOfEncode .vigDec rfl, decodeOfEncode (.vigTab 2) rfl, decodeOfEncode .affInv rfl,
    decodeOfEncode .pfDec rfl, decodeOfEncode .hillEnc rfl, decodeOfEncode .enigRun rfl,
    decode_of_not_selects (by decide), decode_of_not_selects (by decide), decode_of_not_selects (by decide)⟩

end Sys2Proof
end

section
/-! PROOFS. The Alphabet Utilities: which symbol a code stands for and what cleaning keeps, the remainder, and the
inverses mod 26 (40_alphabet_utilities.md R100 to R105). -/

namespace Sys2Proof.Machine

/-! ### Inverses mod 26 -/

/-- Two inverses of one number agree: `x = x * (a * y) = y * (a * x) = y` mod 26. -/
theorem inverse_mod26_unique {a x y : Nat} (hx : x < 26) (hy : y < 26) (hax : a * x % 26 = 1)
    (hay : a * y % 26 = 1) : x = y := by
  have hax' : a * x ≡ 1 [MOD 26] := hax
  have hay' : a * y ≡ 1 [MOD 26] := hay
  have hxy : x ≡ y [MOD 26] := calc
    x = x * 1 := (Nat.mul_one x).symm
    _ ≡ x * (a * y) [MOD 26] := hay'.symm.mul_left x
    _ = y * (a * x) := by ring
    _ ≡ y * 1 [MOD 26] := hax'.mul_left y
    _ = y := Nat.mul_one y
  exact hxy.eq_of_lt_of_lt hx hy

/-- The search covers all of 1..25, so it misses no inverse. -/
theorem modInv_isSome_of_inverse {a x : Nat} (hlo : 1 ≤ x) (hhi : x ≤ 25) (hax : a * x % 26 = 1) :
    (modInv a).isSome = true := by
  rw [modInv, List.find?_isSome]
  refine ⟨x, List.mem_range'_1.mpr ⟨hlo, by omega⟩, ?_⟩
  simp only [mod, beq_iff_eq]
  exact_mod_cast hax

theorem modInv_eq_some_iff (a x : Nat) : modInv a = some x ↔ 1 ≤ x ∧ x ≤ 25 ∧ a * x % 26 = 1 := by
  refine ⟨modInv_some, fun ⟨hlo, hhi, hax⟩ => ?_⟩
  obtain ⟨y, hy⟩ := Option.isSome_iff_exists.mp (modInv_isSome_of_inverse hlo hhi hax)
  obtain ⟨-, hyhi, hay⟩ := modInv_some hy
  rw [hy, inverse_mod26_unique (by omega) (by omega) hay hax]

theorem isUnit_iff_coprime (v : Nat) : isUnit v = true ↔ Nat.gcd v 26 = 1 := by
  rw [isUnit, Option.isSome_iff_exists]
  constructor
  · rintro ⟨x, hx⟩
    obtain ⟨-, -, hvx⟩ := modInv_some hx
    exact Nat.coprime_of_mul_modEq_one x hvx
  · intro hCoprime
    obtain ⟨x, hlt, hvx⟩ := Nat.exists_mul_mod_eq_one_of_coprime hCoprime (by decide)
    have hPos : 0 < x := Nat.pos_of_ne_zero fun h => by simp [h] at hvx
    exact ⟨x, (modInv_eq_some_iff v x).mpr ⟨hPos, by omega, hvx⟩⟩

/-- The twelve residues of 40_alphabet_utilities.md R105. -/
theorem coprime_residues : ∀ v : Nat, v ≤ 25 →
    (Nat.gcd v 26 = 1 ↔ v ∈ [1, 3, 5, 7, 9, 11, 15, 17, 19, 21, 23, 25]) := by decide

/-- Settles O18, from the inverses that the search finds and their uniqueness. -/
theorem modularInverseRule : Obligations.ModularInverseRule :=
  ⟨modInv_eq_some_iff, isUnit_iff_coprime, fun v hv => (isUnit_iff_coprime v).trans (coprime_residues v hv)⟩

/-! ### Cleaning -/

theorem symOf_eq_some_iff (c : Word) (x : Sym) :
    symOf c = some x ↔ c.toNat = 0x41 + x.val ∨ c.toNat = 0x61 + x.val := by
  unfold symOf
  split_ifs with hUpper hLower
  · simp only [Option.some.injEq, Fin.ext_iff]
    omega
  · simp only [Option.some.injEq, Fin.ext_iff]
    omega
  · exact iff_of_false nofun (by omega)

theorem symOf_eq_none_iff (c : Word) :
    symOf c = none ↔ ¬ (0x41 ≤ c.toNat ∧ c.toNat ≤ 0x5A) ∧ ¬ (0x61 ≤ c.toNat ∧ c.toNat ≤ 0x7A) := by
  unfold symOf
  split_ifs with hUpper hLower
  · exact iff_of_false nofun fun ⟨hNotUpper, _⟩ => hNotUpper hUpper
  · exact iff_of_false nofun fun ⟨_, hNotLower⟩ => hNotLower hLower
  · exact iff_of_true rfl ⟨hUpper, hLower⟩

/-- Settles O16: cleaning filters the cells by `symOf`, and `chr` gives the codes that the last part lists. -/
theorem cleanKeepsLetters : Obligations.CleanKeepsLetters :=
  ⟨rfl, fun c _ x hc => List.filterMap_cons_some ((symOf_eq_some_iff c x).mpr hc),
    fun c _ hUpper hLower => List.filterMap_cons_none ((symOf_eq_none_iff c).mpr ⟨hUpper, hLower⟩), clean_map_chr⟩

/-! ### The remainder -/

/-- A number in `[0, m)` is its own remainder, and `m` dividing `n - r` says that `n` has the same one. -/
theorem eq_mod_of_dvd_sub {n m r : Int} (hlo : 0 ≤ r) (hhi : r < m) (hdvd : m ∣ n - r) : r = mod n m :=
  calc
    r = r % m := (Int.emod_eq_of_lt hlo hhi).symm
    _ = n % m := Int.modEq_iff_dvd.mpr hdvd

/-- Settles O17: the model's remainder is that of the Euclidean division. -/
theorem modIsRemainder : Obligations.ModIsRemainder := fun n _ hm =>
  ⟨Int.emod_nonneg n hm.ne', Int.emod_lt_of_pos n hm, Int.dvd_self_sub_emod, fun _ => eq_mod_of_dvd_sub⟩

end Sys2Proof.Machine
end

section
/-! PROOFS. What a command that completes leaves, said once for every command: the state after the commit of its
result, and the text of a host that copies the result (46_control_ops.md R260, 10_state.md R37, R38). -/

namespace Sys2Proof.Machine

/-! ### The state after an abort or a commit -/

/-- `t` is what a completed command with the result `r` leaves of `s`: the result in OUT and TRACE, the output registers
that `r` writes, and the frame. -/
structure State.Delivers (s t : State) (r : Result) : Prop where
  succeeded : s.succeeded t r.out.length r.trace.length
  outIs : t.outIs r.out
  recordIs : ∀ {k : Nat} {fields : List Word}, r.trace[k]? = some (record fields) → t.recordIs k fields
  affAinv : t.affAinv = r.affAinv.getD s.affAinv
  hillInv : t.hillInv = r.hillInv.getD s.hillInv
  pfMat : t.pfMat = r.pfMat.getD s.pfMat

theorem State.Delivers.err {s t : State} {r : Result} (h : s.Delivers t r) : t.err = 0 := by
  obtain ⟨⟨hErr, -⟩, -⟩ := h.succeeded
  exact hErr

theorem State.commit_cellsKept (s : State) (r : Result) :
    s.cellsKept (s.freshResult.commit r).finish r.out.length r.trace.length := fun a hOut hTrace =>
  State.cell_commit_of_outside s.freshResult r a (by omega) hTrace

theorem State.commit_recordIs (s : State) {r : Result} {k : Nat} {fields : List Word}
    (h : r.trace[k]? = some (record fields)) : (s.freshResult.commit r).finish.recordIs k fields := fun f => by
  obtain ⟨hk, hRecord⟩ := List.getElem?_eq_some_iff.mp h
  calc
    (s.freshResult.commit r).readLoc (.trace k f) = r.trace[k][f] := State.readLoc_trace_commit _ r k f hk
    _ = fields.getD f.val 0 := by rw [hRecord, record_getElem]

/-- A result that fits OUT is delivered by its commit. -/
theorem State.delivers_commit {s : State} (hp : paramsWf s.params) {r : Result} (h : r.out.length ≤ outMax s.params) :
    s.Delivers (s.freshResult.commit r).finish r := by
  have hMax := outMax_le hp
  have hLen : outLength r.out = word r.out.length := outLength_of_lt _ (by omega)
  have hInputs : s.inputsKept (s.freshResult.commit r).finish := by simp [State.inputsKept]
  exact {
    succeeded := ⟨⟨rfl, statusWord_true_false, rfl, hInputs, s.commit_cellsKept r⟩, hLen⟩
    outIs := ⟨hLen, fun j hj => State.readLoc_out_commit s.freshResult r j hj (hj.trans_le h) (by simp; omega)⟩
    recordIs := s.commit_recordIs
    affAinv := rfl
    hillInv := rfl
    pfMat := rfl }

/-- A command whose body gives a result delivers it. PF.DEC is left out: its result may not fit OUT (log entry 18). -/
theorem exec_of_body_ok {i : Instr} {body : State → Except ErrorCode Result} (hb : commandBody i = some body)
    (hi : i ≠ .pfDec) {s : State} (hs : s.Inv) {r : Result} (h : body s.freshResult = .ok r) :
    ∃ t, exec i s = .next t ∧ s.Delivers t r := by
  have hFits : r.Fits i s.params := body_fits hb hs.operandsFit.freshResult h
  refine ⟨_, ?_, State.delivers_commit hs.operandsFit.params (hFits.out_le (.inl hi))⟩
  rw [exec_of_commandBody hb, runOperation_of_ok body s r h]

/-- A command whose body raises an error aborts (60_exceptions.md R281). -/
theorem exec_of_body_error {i : Instr} {body : State → Except ErrorCode Result} (hb : commandBody i = some body)
    {s : State} {e : ErrorCode} (h : body s.freshResult = .error e) :
    exec i s = .next (s.aborted (errorWord e)) := by
  rw [exec_of_commandBody hb, runOperation_of_error body s e h]
  rfl

/-! ### Letters in OUT, and a result copied to TEXT -/

theorem State.outIs.readLoc {t : State} {letters : List Sym} (h : t.outIs letters) {j : Nat} {x : Sym}
    (hj : letters[j]? = some x) : t.readLoc (.out j) = word (0x41 + x.val) := by
  obtain ⟨hLt, rfl⟩ := List.getElem?_eq_some_iff.mp hj
  exact h.2 j hLt

/-- The host that copies letters from OUT to TEXT gets them back by cleaning, for the codes in OUT are letters
(40_alphabet_utilities.md R102). -/
theorem State.cleanText_of_copied {t u : State} {letters : List Sym} (hOut : t.outIs letters)
    (hLen : letters.length < 2 ^ 32) (hCopy : t.copiedToText u) : u.cleanText = letters := by
  obtain ⟨hOutLen, hLetters⟩ := hOut
  obtain ⟨hTextLen, hText⟩ := hCopy
  have hCount : t.outLen.toNat = letters.length := by
    rw [hOutLen, BitVec.toNat_ofNat, Nat.mod_eq_of_lt hLen]
  have hCells : u.textCells = letters.map chr := by
    refine List.ext_getElem (by simp [State.textCells_length, hTextLen, hCount]) fun j hj hj' => ?_
    have hLt : j < letters.length := by simpa using hj'
    calc
      u.textCells[j] = u.readLoc (.text j) := by simp [State.textCells, State.readLoc]
      _ = t.readLoc (.out j) := hText j (hCount ▸ hLt)
      _ = (letters.map chr)[j] := by rw [hLetters j hLt, List.getElem_map]; rfl
  rw [State.cleanText, hCells, clean_map_chr]

end Sys2Proof.Machine
end

section
/-! PROOFS. The Vigenère operations: VIG.ENC and VIG.DEC, which differ in the rule for one letter only, their round
trip, and the tableau (41_vigenere.md R121 to R127). -/

namespace Sys2Proof.Machine

/-! ### The rule for one letter -/

theorem vigEncLetter_val (x k : Sym) : (vigEncLetter x k).val = (x.val + k.val) % 26 := by
  have := mod26_val (x.val + k.val)
  unfold vigEncLetter
  omega

theorem vigDecLetter_val (x k : Sym) : ((vigDecLetter x k).val : Int) = ((x.val : Int) - k.val) % 26 := mod26_val _

theorem vigDecLetter_vigEncLetter (x k : Sym) : vigDecLetter (vigEncLetter x k) k = x := by
  have hEnc := vigEncLetter_val x k
  rw [vigDecLetter, mod26_eq_iff]
  omega

theorem vigEncLetter_vigDecLetter (x k : Sym) : vigEncLetter (vigDecLetter x k) k = x := by
  have hDec := vigDecLetter_val x k
  rw [vigEncLetter, mod26_eq_iff]
  omega

/-! ### The result of a text under a key -/

/-- What VIG.ENC and VIG.DEC give for a non-empty text and key (41_vigenere.md R123 to R125). -/
def vigResult (letter : Sym → Sym → Sym) (text key : List Sym) : Result where
  out := (vigSteps letter text key).map VigStep.output
  trace := (vigSteps letter text key).map vigRecord
  affAinv := none
  hillInv := none
  pfMat := none

theorem vigBody_of_empty {letter : Sym → Sym → Sym} {s : State} (h : s.cleanText = [] ∨ s.cleanKey = []) :
    vigBody letter s = .error .emptyInput := if_pos h

theorem vigBody_of_ne_nil {letter : Sym → Sym → Sym} {s : State} (hText : s.cleanText ≠ []) (hKey : s.cleanKey ≠ []) :
    vigBody letter s = .ok (vigResult letter s.cleanText s.cleanKey) := if_neg (not_or.mpr ⟨hText, hKey⟩)

@[simp] theorem vigResult_out_length (letter : Sym → Sym → Sym) (text key : List Sym) :
    (vigResult letter text key).out.length = text.length := by simp [vigResult]

@[simp] theorem vigResult_trace_length (letter : Sym → Sym → Sym) (text key : List Sym) :
    (vigResult letter text key).trace.length = text.length := by simp [vigResult]

/-- Letter and record `j` of the result (41_vigenere.md R123, R124). -/
theorem vigResult_getElem? (letter : Sym → Sym → Sym) {text key : List Sym} {j : Nat} {x k : Sym}
    (hx : text[j]? = some x) (hk : key[j % key.length]? = some k) :
    (vigResult letter text key).out[j]? = some (letter x k) ∧
    (vigResult letter text key).trace[j]? = some
      (record [word j, word x.val, word (j % key.length), word k.val, word (letter x k).val]) := by
  have hStep : (vigSteps letter text key)[j]? =
      some { index := j, input := x, keyIndex := j % key.length, shift := k, output := letter x k } := by
    simp [vigSteps, hx, hk]
  simp [vigResult, hStep, vigRecord]

/-- Letter by letter, a rule undoes one whose inverse it is under every key letter (41_vigenere.md R126). -/
theorem vigResult_vigResult_out {f g : Sym → Sym → Sym} (hInv : ∀ x k, g (f x k) k = x) (text key : List Sym) :
    (vigResult g (vigResult f text key).out key).out = text := by
  refine List.ext_getElem (by simp) fun j hj hj' => ?_
  simp [vigResult, vigSteps, hInv]

/-! ### VIG.ENC and VIG.DEC -/

theorem exec_vig_of_empty {i : Instr} {letter : Sym → Sym → Sym} (hb : commandBody i = some (vigBody letter))
    {s : State} (h : s.cleanText = [] ∨ s.cleanKey = []) : exec i s = .next (s.aborted 1) :=
  exec_of_body_error hb (vigBody_of_empty h)

theorem exec_vig_of_ne_nil {i : Instr} {letter : Sym → Sym → Sym} (hb : commandBody i = some (vigBody letter))
    (hi : i ≠ .pfDec) {s : State} (hs : s.Inv) (hText : s.cleanText ≠ []) (hKey : s.cleanKey ≠ []) :
    ∃ t, exec i s = .next t ∧ s.Delivers t (vigResult letter s.cleanText s.cleanKey) :=
  exec_of_body_ok hb hi hs (vigBody_of_ne_nil hText hKey)

/-- The effect of both operations, with the output symbol as the rule for one letter gives it. -/
theorem exec_vig_effect {i : Instr} {letter : Sym → Sym → Sym} (hb : commandBody i = some (vigBody letter))
    (hi : i ≠ .pfDec) {s : State} (hs : s.Inv) (hText : s.cleanText ≠ []) (hKey : s.cleanKey ≠ []) :
    ∃ t, exec i s = .next t ∧ s.succeeded t s.cleanText.length s.cleanText.length ∧ s.outputsKept t ∧
      ∀ (j : Nat) (x k : Sym) (y : Nat), s.cleanText[j]? = some x → s.cleanKey[j % s.cleanKey.length]? = some k →
        y = (letter x k).val → t.readLoc (.out j) = word (0x41 + y) ∧
        t.recordIs j [word j, word x.val, word (j % s.cleanKey.length), word k.val, word y] := by
  obtain ⟨t, hExec, hDel⟩ := exec_vig_of_ne_nil hb hi hs hText hKey
  refine ⟨t, hExec, by simpa using hDel.succeeded, ⟨hDel.affAinv, hDel.hillInv, hDel.pfMat⟩, ?_⟩
  rintro j x k _ hx hk rfl
  obtain ⟨hOut, hTrace⟩ := vigResult_getElem? letter hx hk
  exact ⟨hDel.outIs.readLoc hOut, hDel.recordIs hTrace⟩

/-- Settles O21. -/
theorem vigEncResult : Obligations.VigEncResult := by
  refine ⟨decodeOfEncode .vigEnc rfl, fun s hs => ⟨exec_vig_of_empty rfl, fun hText hKey => ?_⟩⟩
  obtain ⟨t, hExec, hSucceeded, hOutputs, hLetters⟩ := exec_vig_effect (i := .vigEnc) rfl nofun hs hText hKey
  exact ⟨t, hExec, hSucceeded, hOutputs, fun j x k y hx hk hy =>
    hLetters j x k y hx hk (hy.trans (vigEncLetter_val x k).symm)⟩

/-- Settles O22. -/
theorem vigDecResult : Obligations.VigDecResult := by
  refine ⟨decodeOfEncode .vigDec rfl, fun s hs => ⟨exec_vig_of_empty rfl, fun hText hKey => ?_⟩⟩
  obtain ⟨t, hExec, hSucceeded, hOutputs, hLetters⟩ := exec_vig_effect (i := .vigDec) rfl nofun hs hText hKey
  exact ⟨t, hExec, hSucceeded, hOutputs, fun j x k y hx hk hy =>
    hLetters j x k y hx hk (Int.ofNat.inj (hy.trans (vigDecLetter_val x k).symm))⟩

/-! ### The round trip -/

/-- A Vigenère operation on the copied result of another whose rule it inverts gives the cleaned text back. -/
theorem exec_vig_undoes {i j : Instr} {f g : Sym → Sym → Sym} (hi : commandBody i = some (vigBody f))
    (hj : commandBody j = some (vigBody g)) (hi' : i ≠ .pfDec) (hj' : j ≠ .pfDec) (hInv : ∀ x k, g (f x k) k = x)
    {s t u : State} (hs : s.Inv) (hu : u.Inv) (hText : s.cleanText ≠ []) (hKey : s.cleanKey ≠ [])
    (hSameKey : u.cleanKey = s.cleanKey) (hCopy : t.copiedToText u) (h : exec i s = .next t) :
    ∃ v, exec j u = .next v ∧ v.err = 0 ∧ v.outIs s.cleanText := by
  obtain ⟨t', hExec, hDel⟩ := exec_vig_of_ne_nil hi hi' hs hText hKey
  cases hExec.symm.trans h
  have hCopied : u.cleanText = (vigResult f s.cleanText s.cleanKey).out := by
    refine State.cleanText_of_copied hDel.outIs ?_ hCopy
    rw [vigResult_out_length]
    exact s.cleanText_length_le.trans_lt s.textLen.isLt
  have hTextU : u.cleanText ≠ [] := by
    rw [hCopied, ← List.length_pos_iff, vigResult_out_length]
    exact List.length_pos_iff.mpr hText
  obtain ⟨v, hExecU, hDelU⟩ := exec_vig_of_ne_nil hj hj' hu hTextU (hSameKey ▸ hKey)
  have hOut := hDelU.outIs
  rw [hCopied, hSameKey, vigResult_vigResult_out hInv] at hOut
  exact ⟨v, hExecU, hDelU.err, hOut⟩

/-- Settles O24, once for either order of the two operations. -/
theorem vigRoundTrip : Obligations.VigRoundTrip := fun _ _ _ hs hu hText hKey hSameKey hCopy =>
  ⟨exec_vig_undoes (i := .vigEnc) (j := .vigDec) rfl rfl nofun nofun vigDecLetter_vigEncLetter hs hu hText hKey
      hSameKey hCopy,
    exec_vig_undoes (i := .vigDec) (j := .vigEnc) rfl rfl nofun nofun vigEncLetter_vigDecLetter hs hu hText hKey
      hSameKey hCopy⟩

/-! ### The tableau -/

theorem allSyms_getElem? : ∀ x : Sym, allSyms[x.val]? = some x := by decide

/-- Column `c` of a tableau row is the ciphertext letter of `c` under the row's key letter (41_vigenere.md R127). -/
theorem tableauRow_getElem? (k c : Sym) : (tableauRow k)[c.val]? = some (vigEncLetter c k) := by
  simp [tableauRow, allSyms_getElem?, vigEncLetter]

/-- Rows of one length `m`, laid end to end: entry `c` of row `j` is at `m * j + c`. -/
theorem getElem?_flatMap_rows {α β : Type} {f : α → List β} {m : Nat} (hRow : ∀ a, (f a).length = m) {l : List α}
    {j c : Nat} {a : α} (hj : l[j]? = some a) (hc : c < m) : (l.flatMap f)[m * j + c]? = (f a)[c]? := by
  induction l generalizing j with
  | nil => simp at hj
  | cons b l ih =>
    rw [List.flatMap_cons]
    cases j with
    | zero =>
      obtain rfl : b = a := by simpa using hj
      rw [Nat.mul_zero, Nat.zero_add, List.getElem?_append_left (by rwa [hRow])]
    | succ j =>
      have hRest : m * (j + 1) + c = m + (m * j + c) := by rw [Nat.mul_succ]; omega
      rw [hRest, List.getElem?_append_right (by rw [hRow]; omega), hRow, Nat.add_sub_cancel_left]
      exact ih (by simpa using hj)

/-- What VIG.TAB gives for a non-empty key (41_vigenere.md R127). -/
def tableauResult (n : Nat) (key : List Sym) : Result where
  out := (key.take (min n key.length)).flatMap tableauRow
  trace := []
  affAinv := none
  hillInv := none
  pfMat := none

theorem vigTabBody_of_empty {n : Nat} {s : State} (h : s.cleanKey = []) :
    vigTabBody n s = .error .emptyInput := if_pos h

theorem vigTabBody_of_ne_nil {n : Nat} {s : State} (h : s.cleanKey ≠ []) :
    vigTabBody n s = .ok (tableauResult n s.cleanKey) := if_neg h

@[simp] theorem tableauResult_out_length (n : Nat) (key : List Sym) :
    (tableauResult n key).out.length = 26 * min n key.length := by
  simp [tableauResult, List.length_flatMap, Nat.mul_comm]

theorem tableauResult_out_getElem? {n : Nat} {key : List Sym} {j : Nat} {k : Sym} (hj : j < min n key.length)
    (hk : key[j]? = some k) (c : Sym) : (tableauResult n key).out[26 * j + c.val]? = some (vigEncLetter c k) := by
  have hRow : (key.take (min n key.length))[j]? = some k := by rw [List.getElem?_take_of_lt hj, hk]
  rw [tableauResult, getElem?_flatMap_rows tableauRow_length hRow c.isLt, tableauRow_getElem?]

theorem encode_vigTab_eq_word (n : Nat) : encode (.vigTab n) = word (0x12 + 256 * n) := by
  simp [encode, word, BitVec.ofNat_add, BitVec.ofNat_mul]

/-- Settles O23. -/
theorem vigTabResult : Obligations.VigTabResult := by
  refine ⟨fun n hn => ?_, fun s n hs _ => ⟨fun hKey => ?_, fun hKey => ?_⟩⟩
  · rw [← encode_vigTab_eq_word]
    exact decodeOfEncode (.vigTab n) (decide_eq_true hn)
  · exact exec_of_body_error rfl (vigTabBody_of_empty hKey)
  · obtain ⟨t, hExec, hDel⟩ := exec_of_body_ok (i := .vigTab n) rfl nofun hs (vigTabBody_of_ne_nil hKey)
    have hSucceeded := hDel.succeeded
    rw [State.cleanKey_freshResult, tableauResult_out_length] at hSucceeded
    refine ⟨t, hExec, hSucceeded, ⟨hDel.affAinv, hDel.hillInv, hDel.pfMat⟩, fun j c k hj hk hc => ?_⟩
    have hLetter := hDel.outIs.readLoc (tableauResult_out_getElem? hj hk ⟨c, hc⟩)
    rwa [vigEncLetter_val] at hLetter

end Sys2Proof.Machine
end

section
/-! PROOFS. The Affine operations: the key test, the two rules for one letter, the errors of AFF.ENC and AFF.DEC in
their order, their result, their round trip, and AFF.INV (42_affine.md R141 to R147). -/

namespace Sys2Proof.Machine

/-! ### A command that gives no letters -/

/-- A result without letters fits OUT under any parameters, so its commit delivers it from every state. -/
theorem State.delivers_commit_of_out_nil (s : State) {r : Result} (h : r.out = []) :
    s.Delivers (s.freshResult.commit r).finish r := by
  have hLen : outLength r.out = word r.out.length := outLength_of_lt _ (by simp [h])
  have hInputs : s.inputsKept (s.freshResult.commit r).finish := by simp [State.inputsKept]
  exact {
    succeeded := ⟨⟨rfl, statusWord_true_false, rfl, hInputs, s.commit_cellsKept r⟩, hLen⟩
    outIs := ⟨hLen, fun j hj => by simp [h] at hj⟩
    recordIs := s.commit_recordIs
    affAinv := rfl
    hillInv := rfl
    pfMat := rfl }

theorem exec_of_body_ok_of_out_nil {i : Instr} {body : State → Except ErrorCode Result}
    (hb : commandBody i = some body) {s : State} {r : Result} (h : body s.freshResult = .ok r) (hOut : r.out = []) :
    ∃ t, exec i s = .next t ∧ s.Delivers t r := by
  refine ⟨_, ?_, s.delivers_commit_of_out_nil hOut⟩
  rw [exec_of_commandBody hb, runOperation_of_ok body s r h]

/-! ### The test for an empty text -/

theorem State.emptyTextRaises_iff (s : State) (text : List Sym) :
    s.emptyTextRaises text = true ↔ text = [] ∧ s.params.emptyTextIsError = true := by
  simp [State.emptyTextRaises]

section
variable {i : Instr} {body : State → Except ErrorCode Result} {s : State} {r : Result}

/-- A body that comes to the test for an empty text raises EmptyInput there (42_affine.md R142). -/
theorem exec_of_text_test_of_empty (hb : commandBody i = some body)
    (h : body s.freshResult = if s.emptyTextRaises s.cleanText then .error .emptyInput else .ok r)
    (hText : s.cleanText = []) (hParam : s.params.emptyTextIsError = true) : exec i s = .next (s.aborted 1) :=
  exec_of_body_error hb (h.trans (if_pos ((s.emptyTextRaises_iff _).mpr ⟨hText, hParam⟩)))

/-- Past the test, it delivers its result. -/
theorem exec_of_text_test_of_accepted (hb : commandBody i = some body) (hi : i ≠ .pfDec) (hs : s.Inv)
    (h : body s.freshResult = if s.emptyTextRaises s.cleanText then .error .emptyInput else .ok r)
    (hText : s.cleanText ≠ [] ∨ s.params.emptyTextIsError = false) : ∃ t, exec i s = .next t ∧ s.Delivers t r := by
  refine exec_of_body_ok hb hi hs (h.trans (if_neg fun hRaises => ?_))
  obtain ⟨hEmpty, hParam⟩ := (s.emptyTextRaises_iff _).mp hRaises
  simp [hEmpty, hParam] at hText

end

/-! ### The key and its inverse -/

theorem affKeyValid_iff (s : State) : affKeyValid s.affA s.affB = true ↔ s.affKeyOk := by
  simp [affKeyValid, State.affKeyOk, validMultipliers]

theorem exists_modInv_of_coprime {a : Nat} (h : Nat.gcd a 26 = 1) : ∃ x, modInv a = some x :=
  Option.isSome_iff_exists.mp ((isUnit_iff_coprime a).mpr h)

theorem modInv_eq_none_of_not_coprime {a : Nat} (h : Nat.gcd a 26 ≠ 1) : modInv a = none :=
  Option.not_isSome_iff_eq_none.mp (mt (isUnit_iff_coprime a).mp h)

/-- The multipliers that the key test admits are the residues coprime with 26, so NoInverse is never raised after it
(40_alphabet_utilities.md R105, 42_affine.md R145). -/
theorem State.affKeyOk.exists_modInv {s : State} (h : s.affKeyOk) : ∃ x, modInv s.affA.toNat = some x := by
  obtain ⟨hMem, -⟩ := h
  have hLe : s.affA.toNat ≤ 25 := by
    simp only [List.mem_cons, List.not_mem_nil, or_false] at hMem
    omega
  exact exists_modInv_of_coprime ((coprime_residues _ hLe).mpr hMem)

/-! ### The rules for one letter -/

theorem affEncLetter_val (a b : Nat) (x : Sym) : (affEncLetter a b x).val = (a * x.val + b) % 26 := by
  have h := mod26_val (a * x.val + b)
  exact_mod_cast h

theorem affDecLetter_val (aInv b : Nat) (x : Sym) :
    ((affDecLetter aInv b x).val : Int) = (aInv * ((x.val : Int) - b)) % 26 := mod26_val _

/-- `aInv * ((a * x + b) - b) = (a * aInv) * x = x` mod 26 (42_affine.md R147 (a)). -/
theorem affDecLetter_affEncLetter {a aInv : Nat} (b : Nat) (h : a * aInv % 26 = 1) (x : Sym) :
    affDecLetter aInv b (affEncLetter a b x) = x := by
  have hInv : (a * aInv : Int) ≡ 1 [ZMOD 26] := by exact_mod_cast h
  have hEnc : ((affEncLetter a b x).val : Int) ≡ a * x.val + b [ZMOD 26] := by
    rw [affEncLetter, mod26_val]
    exact Int.mod_modEq _ _
  have hDec : (aInv : Int) * ((affEncLetter a b x).val - b) ≡ x.val [ZMOD 26] := calc
    _ ≡ aInv * (a * x.val + b - b) [ZMOD 26] := (hEnc.sub_right _).mul_left _
    _ = (a * aInv) * x.val := by ring
    _ ≡ 1 * x.val [ZMOD 26] := hInv.mul_right _
    _ = x.val := one_mul _
  rw [affDecLetter, mod26_eq_iff]
  calc
    _ = (x.val : Int) % 26 := hDec
    _ = x.val := Int.emod_eq_of_lt (by omega) (by omega)

theorem affDecLetter_comp_affEncLetter {a aInv : Nat} (b : Nat) (h : a * aInv % 26 = 1) :
    affDecLetter aInv b ∘ affEncLetter a b = id := funext (affDecLetter_affEncLetter b h)

/-! ### What the bodies give -/

/-- What AFF.ENC and AFF.DEC give of a state: the letters under a rule, the records with the multiplier used, and what
AFF_AINV takes (42_affine.md R143 to R145). -/
def affResult (letter : Sym → Sym) (used : Nat) (inv : Option Word) (s : State) : Result where
  out := s.cleanText.map letter
  trace := s.cleanText.mapIdx fun i x => affRecord i x used s.affB (letter x) s.affA
  affAinv := inv
  hillInv := none
  pfMat := none

/-- The result of AFF.ENC, which multiplies by AFF_A and leaves AFF_AINV alone (42_affine.md R143). -/
def affEncResultOf (s : State) : Result :=
  affResult (affEncLetter s.affA.toNat s.affB.toNat) s.affA.toNat none s

/-- The result of AFF.DEC with the inverse `aInv` of AFF_A (42_affine.md R145). -/
def affDecResultOf (aInv : Nat) (s : State) : Result :=
  affResult (affDecLetter aInv s.affB.toNat) aInv (some (word aInv)) s

theorem affEncBody_of_not_keyOk {s : State} (h : ¬ s.affKeyOk) : affEncBody s = .error .invalidKey :=
  if_neg (mt (affKeyValid_iff s).mp h)

theorem affEncBody_of_keyOk {s : State} (h : s.affKeyOk) :
    affEncBody s = if s.emptyTextRaises s.cleanText then .error .emptyInput else .ok (affEncResultOf s) :=
  if_pos ((affKeyValid_iff s).mpr h)

theorem affDecBody_of_not_keyOk {s : State} (h : ¬ s.affKeyOk) : affDecBody s = .error .invalidKey :=
  if_neg (mt (affKeyValid_iff s).mp h)

theorem affDecBody_of_keyOk {s : State} {aInv : Nat} (h : s.affKeyOk) (hInv : modInv s.affA.toNat = some aInv) :
    affDecBody s = if s.emptyTextRaises s.cleanText then .error .emptyInput else .ok (affDecResultOf aInv s) := by
  rw [affDecBody, if_pos ((affKeyValid_iff s).mpr h), hInv]
  rfl

theorem affInvBody_of_modInv {s : State} {v : Nat} (h : modInv s.affA.toNat = some v) : affInvBody s =
    .ok { out := [], trace := [], affAinv := some (word v), hillInv := none, pfMat := none } := by
  rw [affInvBody, h]

theorem affInvBody_of_modInv_none {s : State} (h : modInv s.affA.toNat = none) :
    affInvBody s = .error .noInverse := by
  rw [affInvBody, h]

/-! ### AFF.ENC and AFF.DEC -/

/-- What a state that delivers an Affine result holds, with the output symbol as the rule for one letter gives it. -/
theorem State.Delivers.affEffect {s t : State} {letter : Sym → Sym} {used : Nat} {inv : Option Word}
    (h : s.Delivers t (affResult letter used inv s)) :
    s.succeeded t s.cleanText.length s.cleanText.length ∧
    ∀ (j : Nat) (x : Sym) (y : Nat), s.cleanText[j]? = some x → y = (letter x).val →
      t.readLoc (.out j) = word (0x41 + y) ∧
      t.recordIs j [word j, word x.val, word used, s.affB, word y, s.affA] := by
  refine ⟨by simpa [affResult] using h.succeeded, ?_⟩
  rintro j x _ hx rfl
  have hOut : (affResult letter used inv s).out[j]? = some (letter x) := by simp [affResult, hx]
  have hTrace : (affResult letter used inv s).trace[j]? = some (affRecord j x used s.affB (letter x) s.affA) := by
    simp [affResult, hx]
  exact ⟨h.outIs.readLoc hOut, h.recordIs hTrace⟩

/-- Settles O25. -/
theorem affEncResult : Obligations.AffEncResult := by
  refine ⟨decodeOfEncode .affEnc rfl, fun s hs => ⟨fun hKey => ?_, fun hKey => ?_, fun hKey hText => ?_⟩⟩
  · exact exec_of_body_error rfl (affEncBody_of_not_keyOk hKey)
  · exact exec_of_text_test_of_empty rfl (affEncBody_of_keyOk hKey)
  · obtain ⟨t, hExec, hDel⟩ :=
      exec_of_text_test_of_accepted (i := .affEnc) rfl nofun hs (affEncBody_of_keyOk hKey) hText
    obtain ⟨hSucceeded, hLetters⟩ := hDel.affEffect
    rw [word, BitVec.ofNat_toNat, BitVec.setWidth_eq] at hLetters
    exact ⟨t, hExec, hSucceeded, ⟨hDel.affAinv, hDel.hillInv, hDel.pfMat⟩, fun j x y hx hy =>
      hLetters j x y hx (hy.trans (affEncLetter_val _ _ x).symm)⟩

/-- Settles O26. -/
theorem affDecResult : Obligations.AffDecResult := by
  refine ⟨decodeOfEncode .affDec rfl, fun s hs => ⟨fun hKey => ?_, fun hKey => ?_, fun hKey hText => ?_⟩⟩
  · exact exec_of_body_error rfl (affDecBody_of_not_keyOk hKey)
  · obtain ⟨aInv, hInv⟩ := hKey.exists_modInv
    exact exec_of_text_test_of_empty rfl (affDecBody_of_keyOk hKey hInv)
  · obtain ⟨aInv, hInv⟩ := hKey.exists_modInv
    obtain ⟨hLo, hHi, hMul⟩ := modInv_some hInv
    obtain ⟨t, hExec, hDel⟩ :=
      exec_of_text_test_of_accepted (i := .affDec) rfl nofun hs (affDecBody_of_keyOk hKey hInv) hText
    obtain ⟨hSucceeded, hLetters⟩ := hDel.affEffect
    exact ⟨t, aInv, hExec, hLo, hHi, hMul, hDel.affAinv, hSucceeded, hDel.hillInv, hDel.pfMat, fun j x y hx hy =>
      hLetters j x y hx (Int.ofNat.inj (hy.trans (affDecLetter_val _ _ x).symm))⟩

/-! ### AFF.INV -/

/-- Settles O27: the search finds an inverse exactly when the multiplier is coprime with 26. -/
theorem affInvResult : Obligations.AffInvResult := by
  refine ⟨decodeOfEncode .affInv rfl, fun s => ⟨fun hGcd => ?_, fun hGcd => ?_⟩⟩
  · exact exec_of_body_error rfl (affInvBody_of_modInv_none (modInv_eq_none_of_not_coprime hGcd))
  · obtain ⟨v, hInv⟩ := exists_modInv_of_coprime hGcd
    obtain ⟨hLo, hHi, hMul⟩ := modInv_some hInv
    obtain ⟨t, hExec, hDel⟩ := exec_of_body_ok_of_out_nil (i := .affInv) rfl (s := s) (affInvBody_of_modInv hInv) rfl
    exact ⟨t, v, hExec, hLo, hHi, hMul, hDel.affAinv, hDel.succeeded, hDel.hillInv, hDel.pfMat⟩

/-! ### The round trip -/

/-- Settles O28, letter by letter with the inverse that the valid key has. -/
theorem affRoundTrip : Obligations.AffRoundTrip := by
  intro s t u hs hu hKey hText hA hB h hCopy
  obtain ⟨aInv, hInv⟩ := hKey.exists_modInv
  obtain ⟨-, -, hMul⟩ := modInv_some hInv
  obtain ⟨t', hExec, hDel⟩ :=
    exec_of_text_test_of_accepted (i := .affEnc) rfl nofun hs (affEncBody_of_keyOk hKey) (.inl hText)
  cases hExec.symm.trans h
  have hCopied : u.cleanText = s.cleanText.map (affEncLetter s.affA.toNat s.affB.toNat) := by
    refine State.cleanText_of_copied hDel.outIs ?_ hCopy
    rw [List.length_map]
    exact s.cleanText_length_le.trans_lt s.textLen.isLt
  have hKeyU : u.affKeyOk := by rwa [State.affKeyOk, hA, hB]
  have hTextU : u.cleanText ≠ [] := by rwa [hCopied, ne_eq, List.map_eq_nil_iff]
  obtain ⟨v, hExecU, hDelU⟩ :=
    exec_of_text_test_of_accepted (i := .affDec) rfl nofun hu (affDecBody_of_keyOk hKeyU (hA ▸ hInv)) (.inl hTextU)
  have hUndone : (affDecResultOf aInv u).out = s.cleanText := calc
    u.cleanText.map (affDecLetter aInv u.affB.toNat)
      = s.cleanText.map (affDecLetter aInv s.affB.toNat ∘ affEncLetter s.affA.toNat s.affB.toNat) := by
        rw [hCopied, hB, List.map_map]
    _ = s.cleanText := by rw [affDecLetter_comp_affEncLetter _ hMul, List.map_id]
  exact ⟨v, hExecU, hDelU.err, hUndone ▸ hDelU.outIs⟩

end Sys2Proof.Machine
end

section
/-! PROOFS. The Playfair matrix, and the digraph transform by rows and columns in it (43_playfair.md R161, R166,
R178). -/

namespace Sys2Proof.Machine

/-! ### The matrix -/

theorem eraseDups_of_nodup {l : List Sym} (h : l.Nodup) : l.eraseDups = l := by
  induction l with
  | nil => rfl
  | cons x l ih =>
    obtain ⟨hNotMem, hTail⟩ := List.nodup_cons.mp h
    have hFilter : l.filter (fun y => !y == x) = l :=
      List.filter_eq_self.mpr fun y hy => by
        have : y ≠ x := fun hyx => hNotMem (hyx ▸ hy)
        simpa using this
    rw [List.eraseDups_cons, hFilter, ih hTail]

/-- Appending symbols one by one adds those that the sequence lacks, each once and in order of first appearance. -/
theorem foldl_appendNew_eq (l seq : List Sym) :
    l.foldl appendNew seq = seq ++ (l.filter (· ∉ seq)).eraseDups := by
  induction l generalizing seq with
  | nil => simp
  | cons x l ih =>
    rw [List.foldl_cons, ih, appendNew]
    split
    next hMem => rw [List.filter_cons_of_neg (by simpa using hMem)]
    next hNew =>
      have hRest : (l.filter (· ∉ seq)).filter (fun y => !y == x) = l.filter (· ∉ seq ++ [x]) := by
        rw [List.filter_filter]
        refine List.filter_congr fun y _ => ?_
        rw [Bool.eq_iff_iff]
        simp [and_comm]
      rw [List.filter_cons_of_pos (by simpa using hNew), List.eraseDups_cons, hRest, List.append_assoc]
      rfl

/-- The rest of the alphabet follows the keyword's letters; it repeats nothing, so it is appended as it is. -/
theorem pfMatrix_eq (key : List Sym) : pfMatrix key =
    (key.map mergeJ).eraseDups ++ allSyms.filter (fun x => x ≠ 9 ∧ x ∉ key.map mergeJ) := by
  have hKeyword : (key.map mergeJ).foldl appendNew [] = (key.map mergeJ).eraseDups := by
    rw [foldl_appendNew_eq, List.nil_append]
    simp
  have hNodup : (allSyms.filter fun x => x ≠ 9 ∧ x ∉ key.map mergeJ).Nodup :=
    (show allSyms.Nodup by decide).filter _
  have hRest : (allSyms.filter (· ≠ symJ)).filter (· ∉ (key.map mergeJ).eraseDups) =
      allSyms.filter fun x => x ≠ 9 ∧ x ∉ key.map mergeJ := by
    rw [List.filter_filter]
    refine List.filter_congr fun x _ => ?_
    rw [Bool.eq_iff_iff]
    simp only [List.mem_eraseDups, Bool.and_eq_true, decide_eq_true_eq]
    exact and_comm
  rw [pfMatrix, hKeyword, foldl_appendNew_eq, hRest, eraseDups_of_nodup hNodup]

/-- Settles O29. -/
theorem pfMatrixRule : Obligations.PfMatrixRule := fun key =>
  ⟨pfMatrix_eq key, pfMatrix_length key, pfMatrix_nodup key, fun hJ => (mem_pfMatrix key 9).mp hJ rfl⟩

/-! ### Rows and columns -/

theorem pfAt_eq_getElem (key : List Sym) {r c : Nat} (hr : r < 5) (hc : c < 5) :
    pfAt (pfMatrix key) r c = (pfMatrix key)[5 * r + c]'(by rw [pfMatrix_length]; omega) := by
  have hLt : 5 * r + c < (pfMatrix key).length := by rw [pfMatrix_length]; omega
  simp [pfAt, hLt]

/-- The symbols of a matrix are distinct, so the symbol in a place has that place. -/
theorem pfPos_pfAt (key : List Sym) {r c : Nat} (hr : r < 5) (hc : c < 5) :
    pfPos (pfMatrix key) (pfAt (pfMatrix key) r c) = (r, c) := by
  rw [pfAt_eq_getElem key hr hc, pfPos, (pfMatrix_nodup key).idxOf_getElem]
  exact Prod.ext (by simp only; omega) (by simp only; omega)

theorem pfAt_ne_symJ (key : List Sym) {r c : Nat} (hr : r < 5) (hc : c < 5) : pfAt (pfMatrix key) r c ≠ symJ := by
  rw [pfAt_eq_getElem key hr hc]
  exact (mem_pfMatrix key _).mp (List.getElem_mem _)

/-- Every symbol but J has a place. -/
theorem exists_pfAt (key : List Sym) {x : Sym} (hx : x ≠ symJ) :
    ∃ r c, r < 5 ∧ c < 5 ∧ x = pfAt (pfMatrix key) r c := by
  obtain ⟨j, hj, hx⟩ := List.mem_iff_getElem.mp ((mem_pfMatrix key x).mpr hx)
  have hLt : j < 25 := pfMatrix_length key ▸ hj
  have hPlace : 5 * (j / 5) + j % 5 = j := by omega
  refine ⟨j / 5, j % 5, by omega, by omega, ?_⟩
  rw [pfAt_eq_getElem key (by omega) (by omega), ← hx]
  simp only [hPlace]

/-! ### The digraph transform -/

theorem shift5_lt (x : Nat) (d : Int) : shift5 x d < 5 := by
  unfold shift5 mod
  omega

theorem shift5_inj {x y : Nat} (hx : x < 5) (hy : y < 5) (d : Int) (h : shift5 x d = shift5 y d) : x = y := by
  unfold shift5 mod at h
  omega

theorem shift5_neg_shift5 {x : Nat} (hx : x < 5) (d : Int) : shift5 (shift5 x d) (-d) = x := by
  unfold shift5 mod
  omega

section
variable (key : List Sym) {ra ca rb cb : Nat} (hra : ra < 5) (hca : ca < 5) (hrb : rb < 5) (hcb : cb < 5)
include hra hca hrb hcb

/-- The transform in terms of the places of the two letters (43_playfair.md R166). -/
theorem pfRule_pfAt (d : Int) :
    pfRule (pfMatrix key) (pfAt (pfMatrix key) ra ca) (pfAt (pfMatrix key) rb cb) d =
      if ra = rb then (pfAt (pfMatrix key) ra (shift5 ca d), pfAt (pfMatrix key) rb (shift5 cb d), 1)
      else if ca = cb then (pfAt (pfMatrix key) (shift5 ra d) ca, pfAt (pfMatrix key) (shift5 rb d) cb, 2)
      else (pfAt (pfMatrix key) ra cb, pfAt (pfMatrix key) rb ca, 3) := by
  simp only [pfRule, pfPos_pfAt key hra hca, pfPos_pfAt key hrb hcb]

/-- Two letters stay in one row, in one column, or at the corners of one rectangle, so the same rule with the opposite
direction takes them back. -/
theorem pfRule_pfRule_pfAt (d : Int) :
    ∃ r1 c1 r2 c2 rule, r1 < 5 ∧ c1 < 5 ∧ r2 < 5 ∧ c2 < 5 ∧
      pfRule (pfMatrix key) (pfAt (pfMatrix key) ra ca) (pfAt (pfMatrix key) rb cb) d =
        (pfAt (pfMatrix key) r1 c1, pfAt (pfMatrix key) r2 c2, rule) ∧
      pfRule (pfMatrix key) (pfAt (pfMatrix key) r1 c1) (pfAt (pfMatrix key) r2 c2) (-d) =
        (pfAt (pfMatrix key) ra ca, pfAt (pfMatrix key) rb cb, rule) := by
  have hcaD := shift5_lt ca d
  have hcbD := shift5_lt cb d
  have hraD := shift5_lt ra d
  have hrbD := shift5_lt rb d
  by_cases hRow : ra = rb
  · refine ⟨ra, shift5 ca d, rb, shift5 cb d, 1, hra, hcaD, hrb, hcbD, ?_, ?_⟩
    · rw [pfRule_pfAt key hra hca hrb hcb, if_pos hRow]
    · rw [pfRule_pfAt key hra hcaD hrb hcbD, if_pos hRow, shift5_neg_shift5 hca, shift5_neg_shift5 hcb]
  by_cases hCol : ca = cb
  · have hRow' : shift5 ra d ≠ shift5 rb d := fun h => hRow (shift5_inj hra hrb d h)
    refine ⟨shift5 ra d, ca, shift5 rb d, cb, 2, hraD, hca, hrbD, hcb, ?_, ?_⟩
    · rw [pfRule_pfAt key hra hca hrb hcb, if_neg hRow, if_pos hCol]
    · rw [pfRule_pfAt key hraD hca hrbD hcb, if_neg hRow', if_pos hCol, shift5_neg_shift5 hra, shift5_neg_shift5 hrb]
  · refine ⟨ra, cb, rb, ca, 3, hra, hcb, hrb, hca, ?_, ?_⟩
    · rw [pfRule_pfAt key hra hca hrb hcb, if_neg hRow, if_neg hCol]
    · rw [pfRule_pfAt key hra hcb hrb hca, if_neg hRow, if_neg (Ne.symm hCol)]

end

/-- Settles O30: the letters have their places, whatever the direction is. -/
theorem pfRuleByPosition : Obligations.PfRuleByPosition := fun key _ _ _ _ d hra hca hrb hcb _ =>
  pfRule_pfAt key hra hca hrb hcb d

/-- On letters other than J, the transform gives such letters, and the opposite direction takes them back
(43_playfair.md R178). -/
theorem pfRule_pfRule (key : List Sym) {a b : Sym} (ha : a ≠ symJ) (hb : b ≠ symJ) (d : Int) :
    ∃ a2 b2 rule, a2 ≠ symJ ∧ b2 ≠ symJ ∧ pfRule (pfMatrix key) a b d = (a2, b2, rule) ∧
      pfRule (pfMatrix key) a2 b2 (-d) = (a, b, rule) := by
  obtain ⟨ra, ca, hra, hca, hPlaceA⟩ := exists_pfAt key ha
  obtain ⟨rb, cb, hrb, hcb, hPlaceB⟩ := exists_pfAt key hb
  obtain ⟨r1, c1, r2, c2, rule, hr1, hc1, hr2, hc2, hRule, hBack⟩ := pfRule_pfRule_pfAt key hra hca hrb hcb d
  rw [← hPlaceA, ← hPlaceB] at hRule hBack
  exact ⟨pfAt (pfMatrix key) r1 c1, pfAt (pfMatrix key) r2 c2, rule, pfAt_ne_symJ key hr1 hc1,
    pfAt_ne_symJ key hr2 hc2, hRule, hBack⟩

/-- Settles O31. -/
theorem pfRuleInverse : Obligations.PfRuleInverse := fun key a b ha hb => by
  obtain ⟨a2, b2, rule, -, -, hRule, hBack⟩ := pfRule_pfRule key ha hb 1
  simp [hRule, hBack]

end Sys2Proof.Machine
end

section
/-! PROOFS. How a text is cut into digraphs, and the default cleanup of a decryption (43_playfair.md R165, R173,
R176). -/

namespace Sys2Proof.Machine

/-! ### The digraphs of an encryption -/

theorem pfPairs_cons_self (a : Sym) (r : List Sym) : pfPairs (a :: a :: r) = (a, symX) :: pfPairs (a :: r) := by
  rw [pfPairs, if_pos rfl]

theorem pfPairs_cons_of_ne {a b : Sym} (h : b ≠ a) (r : List Sym) : pfPairs (a :: b :: r) = (a, b) :: pfPairs r := by
  rw [pfPairs, if_neg h]

/-- A digraph takes at most two letters of the text. -/
theorem length_le_two_mul_pfPairs (text : List Sym) : text.length ≤ 2 * (pfPairs text).length := by
  fun_induction pfPairs text with
  | case1 | case2 => simp
  | case3 a rest ih => simp only [List.length_cons] at ih ⊢; omega
  | case4 a b rest hne ih => simp only [List.length_cons]; omega

/-- Only the filler makes a digraph of two equal letters. -/
theorem fst_eq_symX_of_mem_pfPairs (text : List Sym) : ∀ ab ∈ pfPairs text, ab.1 = ab.2 → ab.1 = symX := by
  fun_induction pfPairs text with
  | case1 => simp
  | case2 a => simp
  | case3 a rest ih => exact List.forall_mem_cons.mpr ⟨id, ih⟩
  | case4 a b rest hne ih => exact List.forall_mem_cons.mpr ⟨fun h => absurd h.symm hne, ih⟩

/-- The letters of a digraph are letters of the text, or the filler. -/
theorem forall_mem_pfPairs {P : Sym → Prop} (hX : P symX) {text : List Sym} (h : ∀ x ∈ text, P x) :
    ∀ ab ∈ pfPairs text, P ab.1 ∧ P ab.2 := by
  fun_induction pfPairs text with
  | case1 => simp
  | case2 a => simpa [hX] using h
  | case3 a rest ih =>
    obtain ⟨ha, hRest⟩ := List.forall_mem_cons.mp h
    exact List.forall_mem_cons.mpr ⟨⟨ha, hX⟩, ih hRest⟩
  | case4 a b rest hne ih =>
    obtain ⟨ha, hb, hRest⟩ := by simpa only [List.forall_mem_cons] using h
    exact List.forall_mem_cons.mpr ⟨⟨ha, hb⟩, ih hRest⟩

/-- Settles O32. -/
theorem pfSegmentation : Obligations.PfSegmentation :=
  ⟨rfl, fun _ => rfl, pfPairs_cons_self, fun _ _ r h => pfPairs_cons_of_ne h r, fun text =>
    ⟨pfPairs_length_le text, length_le_two_mul_pfPairs text, fst_eq_symX_of_mem_pfPairs text⟩⟩

/-! ### The digraphs of a decryption -/

theorem pfDigraphs_length (text : List Sym) : (pfDigraphs text).length = text.length / 2 := by
  fun_induction pfDigraphs text with
  | case1 a b rest ih => simp only [List.length_cons, ih]; omega
  | case2 text hShort =>
    match text with
    | [] | [_] => simp
    | a :: b :: rest => exact absurd rfl (hShort a b rest)

/-- Digraph `k` is made of the letters `2k` and `2k + 1`. -/
theorem pfDigraphs_getElem? {text : List Sym} {k : Nat} {a b : Sym} (ha : text[2 * k]? = some a)
    (hb : text[2 * k + 1]? = some b) : (pfDigraphs text)[k]? = some (a, b) := by
  induction k generalizing text with
  | zero =>
    match text with
    | [] | [_] => simp at hb
    | x :: y :: rest => simpa [pfDigraphs] using And.intro ha hb
  | succ k ih =>
    match text with
    | [] | [_] => simp at hb
    | x :: y :: rest =>
      rw [pfDigraphs, List.getElem?_cons_succ]
      exact ih (by simpa [Nat.mul_succ] using ha) (by simpa [Nat.mul_succ] using hb)

/-! ### The trailing X -/

theorem trimX_concat (l : List Sym) (x : Sym) : trimX (l ++ [x]) = if x = symX then l else l ++ [x] := by
  simp [trimX]

/-- A list that does not end in X stays. -/
theorem trimX_of_ne_concat {l : List Sym} (h : ∀ l', l ≠ l' ++ [symX]) : trimX l = l :=
  if_neg fun hLast => by
    obtain ⟨l', hl'⟩ := List.getLast?_eq_some_iff.mp hLast
    exact h l' hl'

/-! ### The default cleanup -/

theorem pfSandwiched_iff (raw : List Sym) (i : Nat) : pfSandwiched raw i = true ↔ sandwiched raw i :=
  decide_eq_true_iff

/-- The indices that the sandwich pass keeps. -/
def keptIndices (raw : List Sym) : List Nat := (List.range raw.length).filter fun i => !pfSandwiched raw i

/-- The elements that the sandwich pass keeps. -/
def keptLetters (raw : List Sym) : List Sym := (keptIndices raw).filterMap fun i => raw[i]?

theorem pfCleanup_eq_trimX (raw : List Sym) : pfCleanup raw = trimX (keptLetters raw) := by
  rw [pfCleanup, keptLetters, keptIndices, List.filterMap_filter]
  congr 2
  funext i
  cases pfSandwiched raw i <;> rfl

theorem mem_keptIndices (raw : List Sym) (i : Nat) :
    i ∈ keptIndices raw ↔ i < raw.length ∧ ¬ sandwiched raw i := by
  simp [keptIndices, ← pfSandwiched_iff]

theorem keptIndices_pairwise (raw : List Sym) : (keptIndices raw).Pairwise (· < ·) :=
  List.pairwise_lt_range.filter _

theorem map_some_keptLetters (raw : List Sym) :
    (keptLetters raw).map some = (keptIndices raw).map fun i => raw[i]? := by
  rw [keptLetters, List.map_filterMap_some_eq_filter_map_isSome]
  refine List.filter_eq_self.mpr fun o ho => ?_
  obtain ⟨i, hi, rfl⟩ := List.mem_map.mp ho
  obtain ⟨hLt, -⟩ := (mem_keptIndices raw i).mp hi
  simp [hLt]

/-- Of two elements or more, the sandwich pass keeps the first and the last. -/
theorem keptLetters_cons_concat (x y : Sym) (mid : List Sym) :
    ∃ l, keptLetters (x :: (mid ++ [y])) = x :: (l ++ [y]) := by
  have hFirst : pfSandwiched (x :: (mid ++ [y])) 0 = false := by simp [pfSandwiched]
  have hLast : pfSandwiched (x :: (mid ++ [y])) (mid.length + 1) = false := by simp [pfSandwiched]
  have hRange : List.range (x :: (mid ++ [y])).length =
      0 :: ((List.range mid.length).map Nat.succ ++ [mid.length + 1]) := by
    rw [List.length_cons, List.length_append, List.length_singleton, List.range_succ_eq_map, List.range_succ,
      List.map_append]
    rfl
  refine ⟨(((List.range mid.length).map Nat.succ).filter fun i => !pfSandwiched (x :: (mid ++ [y])) i).filterMap
    fun i => (x :: (mid ++ [y]))[i]?, ?_⟩
  rw [keptLetters, keptIndices, hRange]
  simp [hFirst, hLast]

theorem pfCleanup_head? {raw : List Sym} (h : 2 ≤ raw.length) : (pfCleanup raw).head? = raw.head? := by
  match raw with
  | [] | [_] => simp at h
  | x :: y :: rest =>
    obtain ⟨mid, z, hTail⟩ := (y :: rest).eq_nil_or_concat'.resolve_left (List.cons_ne_nil _ _)
    obtain ⟨l, hKept⟩ := keptLetters_cons_concat x z mid
    rw [hTail, pfCleanup_eq_trimX, hKept, ← List.cons_append, trimX_concat]
    split <;> rfl

theorem pfCleanup_of_not_mem {raw : List Sym} (h : symX ∉ raw) : pfCleanup raw = raw := by
  have hAll : keptIndices raw = List.range raw.length :=
    List.filter_eq_self.mpr fun i _ => by
      have hNot : ¬ sandwiched raw i := fun ⟨hX, _⟩ => h (List.mem_of_getElem? hX)
      simpa using mt (pfSandwiched_iff raw i).mp hNot
  have hKept : keptLetters raw = raw := by
    refine List.map_injective_iff.mpr (Option.some_injective _) ?_
    rw [map_some_keptLetters, hAll]
    refine List.ext_getElem (by simp) fun i hi hi' => ?_
    have hLt : i < raw.length := by simpa using hi
    simp [hLt]
  rw [pfCleanup_eq_trimX, hKept, trimX_of_ne_concat]
  rintro l' rfl
  exact h (by simp)

/-- Settles O37. -/
theorem cleanupBounds : Obligations.CleanupBounds := fun raw => by
  refine ⟨⟨keptIndices raw, keptLetters raw, keptIndices_pairwise raw, mem_keptIndices raw, map_some_keptLetters raw,
    fun l' hLast => ?_, fun hLast => ?_⟩, pfCleanup_length_le raw, pfCleanup_head?, pfCleanup_of_not_mem⟩
  · rw [pfCleanup_eq_trimX, hLast]
    exact (trimX_concat l' symX).trans (if_pos rfl)
  · rw [pfCleanup_eq_trimX, trimX_of_ne_concat hLast]

end Sys2Proof.Machine
end

section
/-! PROOFS. The Playfair operations: the letters and records of a list of digraphs, the errors of PF.ENC, PF.DEC and
PF.MAT in their order, their results, and the round trip up to the cleanup (43_playfair.md R163, R171 to R178). -/

namespace Sys2Proof.Machine

/-! ### The letters and records of a list of digraphs -/

theorem pfPrep_textCells (s : State) : pfPrep s.textCells = s.prepared := rfl

@[simp] theorem State.prepared_length (s : State) : s.prepared.length = s.cleanText.length := List.length_map _

theorem mergeJ_of_ne {x : Sym} (h : x ≠ symJ) : mergeJ x = x := if_neg h

/-- The text is prepared already where it has no J (43_playfair.md R164). -/
theorem State.prepared_of_no_J {s : State} (h : ∀ x ∈ s.cleanText, x ≠ symJ) : s.prepared = s.cleanText :=
  (List.map_congr_left fun x hx => mergeJ_of_ne (h x hx)).trans (List.map_id _)

theorem State.prepared_ne_symJ (s : State) : ∀ x ∈ s.prepared, x ≠ symJ := fun x hx => by
  obtain ⟨y, -, rfl⟩ := List.mem_map.mp hx
  exact mergeJ_ne_symJ y

section
variable {seq : List Sym} {d : Int} {pairs : List (Sym × Sym)} {k : Nat} {a b a2 b2 : Sym} {rule : Nat}

/-- Digraph `k` gives the letters `2k` and `2k + 1` (43_playfair.md R171, R175). -/
theorem pfApply_getElem? (hk : pairs[k]? = some (a, b)) (hRule : pfRule seq a b d = (a2, b2, rule)) :
    (pfApply seq d pairs)[2 * k]? = some a2 ∧ (pfApply seq d pairs)[2 * k + 1]? = some b2 := by
  have hLetter (c : Nat) (hc : c < 2) : (pfApply seq d pairs)[2 * k + c]? = [a2, b2][c]? := by
    rw [pfApply, getElem?_flatMap_rows (m := 2) (fun _ => rfl) hk hc, hRule]
  exact ⟨hLetter 0 (by decide), hLetter 1 (by decide)⟩

/-- Record `k` is that of digraph `k` (43_playfair.md R172). -/
theorem pfRecords_getElem? (hk : pairs[k]? = some (a, b)) (hRule : pfRule seq a b d = (a2, b2, rule)) :
    (pairs.mapIdx (pfRecord seq d))[k]? = some (record [word k, word a.val, word b.val, word rule, word a2.val,
      word b2.val, word (seq.idxOf a / 5), word (seq.idxOf a % 5), word (seq.idxOf b / 5),
      word (seq.idxOf b % 5)]) := by
  simp [hk, pfRecord, hRule, pfPos]

end

theorem pfApply_cons (seq : List Sym) (d : Int) (ab : Sym × Sym) (pairs : List (Sym × Sym)) :
    pfApply seq d (ab :: pairs) =
      (pfRule seq ab.1 ab.2 d).1 :: (pfRule seq ab.1 ab.2 d).2.1 :: pfApply seq d pairs := rfl

theorem pfMatWords_getElem_eq_getD (seq : List Sym) (k : Fin 25) :
    (pfMatWords seq)[k] = word (seq.getD k.val 0).val := by
  simp [pfMatWords]

/-! ### The digraphs of an encryption, decrypted -/

section
variable (key : List Sym) {pairs : List (Sym × Sym)} (hPairs : ∀ ab ∈ pairs, ab.1 ≠ symJ ∧ ab.2 ≠ symJ)
include hPairs

theorem pfApply_ne_symJ (d : Int) : ∀ x ∈ pfApply (pfMatrix key) d pairs, x ≠ symJ := by
  induction pairs with
  | nil => simp [pfApply]
  | cons ab pairs ih =>
    obtain ⟨⟨ha, hb⟩, hRest⟩ := List.forall_mem_cons.mp hPairs
    obtain ⟨a2, b2, rule, ha2, hb2, hRule, -⟩ := pfRule_pfRule key ha hb d
    rw [pfApply_cons, hRule]
    exact List.forall_mem_cons.mpr ⟨ha2, List.forall_mem_cons.mpr ⟨hb2, ih hRest⟩⟩

/-- Decrypting the letters of an encryption gives the letters of its digraphs (43_playfair.md R178). -/
theorem pfApply_pfDigraphs_pfApply :
    pfApply (pfMatrix key) (-1) (pfDigraphs (pfApply (pfMatrix key) 1 pairs)) =
      pairs.flatMap fun ab => [ab.1, ab.2] := by
  induction pairs with
  | nil => rfl
  | cons ab pairs ih =>
    obtain ⟨⟨ha, hb⟩, hRest⟩ := List.forall_mem_cons.mp hPairs
    obtain ⟨a2, b2, rule, -, -, hRule, hBack⟩ := pfRule_pfRule key ha hb 1
    rw [pfApply_cons, hRule, pfDigraphs, pfApply_cons, hBack, ih hRest]
    rfl

end

/-! ### What the bodies give -/

/-- The result of a Playfair operation with the given letters, digraphs and direction (43_playfair.md R171, R175,
R177). -/
def pfResult (key : List Sym) (d : Int) (pairs : List (Sym × Sym)) (out : List Sym) : Result where
  out := out
  trace := pairs.mapIdx (pfRecord (pfMatrix key) d)
  affAinv := none
  hillInv := none
  pfMat := some (pfMatWords (pfMatrix key))

/-- The result of PF.ENC (43_playfair.md R171). -/
def pfEncResultOf (s : State) : Result :=
  pfResult s.cleanKey 1 (pfPairs s.prepared) (pfApply (pfMatrix s.cleanKey) 1 (pfPairs s.prepared))

/-- The raw list of PF.DEC (43_playfair.md R175). -/
def pfRaw (s : State) : List Sym := pfApply (pfMatrix s.cleanKey) (-1) (pfDigraphs s.prepared)

/-- The result of PF.DEC (43_playfair.md R175). -/
def pfDecResultOf (s : State) : Result :=
  pfResult s.cleanKey (-1) (pfDigraphs s.prepared) (pfDecLetters s.params.cleanup (pfRaw s))

/-- The result of PF.MAT (43_playfair.md R177). -/
def pfMatResultOf (s : State) : Result := pfResult s.cleanKey 1 [] []

/-- The keyword passes its test (43_playfair.md R163 (1)). -/
def State.keywordOk (s : State) : Prop := s.cleanKey ≠ [] ∨ s.params.pfEmptyKeyIsError = false

theorem State.emptyKeywordRaises_iff (s : State) : s.emptyKeywordRaises = true ↔ ¬ s.keywordOk := by
  simp [State.emptyKeywordRaises, State.keywordOk]

theorem State.not_keywordOk {s : State} (hKey : s.cleanKey = []) (hParam : s.params.pfEmptyKeyIsError = true) :
    ¬ s.keywordOk := by
  simp [State.keywordOk, hKey, hParam]

/-- The text test of 43_playfair.md R163 (2) is that of the other units, for J as I keeps the length. -/
theorem State.emptyPrepRaises_eq (s : State) : s.emptyPrepRaises = s.emptyTextRaises s.cleanText := by
  simp [State.emptyPrepRaises, State.emptyTextRaises, pfPrep, State.cleanText]

section
variable {s : State}

theorem pfEncBody_of_not_keywordOk (h : ¬ s.keywordOk) : pfEncBody s = .error .emptyInput :=
  if_pos (s.emptyKeywordRaises_iff.mpr h)

theorem pfDecBody_of_not_keywordOk (h : ¬ s.keywordOk) : pfDecBody s = .error .emptyInput :=
  if_pos (s.emptyKeywordRaises_iff.mpr h)

theorem pfMatBody_of_not_keywordOk (h : ¬ s.keywordOk) : pfMatBody s = .error .emptyInput :=
  if_pos (s.emptyKeywordRaises_iff.mpr h)

theorem pfEncBody_of_keywordOk (h : s.keywordOk) : pfEncBody s =
    if s.emptyTextRaises s.cleanText then .error .emptyInput else .ok (pfEncResultOf s) := by
  rw [pfEncBody, if_neg fun hRaises => s.emptyKeywordRaises_iff.mp hRaises h, s.emptyPrepRaises_eq]
  rfl

theorem pfMatBody_of_keywordOk (h : s.keywordOk) : pfMatBody s = .ok (pfMatResultOf s) :=
  if_neg fun hRaises => s.emptyKeywordRaises_iff.mp hRaises h

/-- The test for an odd length comes after the one for an empty text (43_playfair.md R163). -/
theorem pfDecBody_of_keywordOk (h : s.keywordOk) : pfDecBody s =
    if s.emptyTextRaises s.cleanText then .error .emptyInput
    else if s.cleanText.length % 2 = 1 then .error .oddLength else .ok (pfDecResultOf s) := by
  rw [pfDecBody, if_neg fun hRaises => s.emptyKeywordRaises_iff.mp hRaises h, s.emptyPrepRaises_eq, pfPrep_textCells,
    s.prepared_length]
  rfl

theorem State.not_emptyTextRaises (h : s.cleanText ≠ [] ∨ s.params.emptyTextIsError = false) :
    ¬ s.emptyTextRaises s.cleanText = true := by
  rw [State.emptyTextRaises_iff]
  rintro ⟨hEmpty, hParam⟩
  simp [hEmpty, hParam] at h

theorem pfDecBody_of_odd (h : s.keywordOk) (hOdd : s.cleanText.length % 2 = 1) : pfDecBody s = .error .oddLength := by
  have hText : s.cleanText ≠ [] := fun hNil => by simp [hNil] at hOdd
  rw [pfDecBody_of_keywordOk h, if_neg (State.not_emptyTextRaises (.inl hText)), if_pos hOdd]

theorem pfDecBody_of_even (h : s.keywordOk) (hText : s.cleanText ≠ [] ∨ s.params.emptyTextIsError = false)
    (hEven : s.cleanText.length % 2 = 0) : pfDecBody s = .ok (pfDecResultOf s) := by
  rw [pfDecBody_of_keywordOk h, if_neg (State.not_emptyTextRaises hText), if_neg (by omega)]

end

/-! ### PF.MAT -/

theorem State.Delivers.pfMat_eq {s t : State} {key out : List Sym} {d : Int} {pairs : List (Sym × Sym)}
    (h : s.Delivers t (pfResult key d pairs out)) (k : Fin 25) :
    t.pfMat[k] = word ((pfMatrix key).getD k.val 0).val := by
  rw [h.pfMat]
  exact pfMatWords_getElem_eq_getD _ k

/-- Settles O35. -/
theorem pfMatResult : Obligations.PfMatResult := by
  refine ⟨decodeOfEncode .pfMat rfl, fun s => ⟨fun hKey hParam => ?_, fun hKey => ?_⟩⟩
  · exact exec_of_body_error rfl (pfMatBody_of_not_keywordOk (s := s.freshResult) (State.not_keywordOk hKey hParam))
  · obtain ⟨t, hExec, hDel⟩ := exec_of_body_ok_of_out_nil (i := .pfMat) rfl
      (pfMatBody_of_keywordOk (s := s.freshResult) hKey) rfl
    exact ⟨t, hExec, hDel.succeeded, hDel.affAinv, hDel.hillInv, hDel.pfMat_eq⟩

/-! ### PF.ENC -/

theorem exec_pfEnc_of_not_keywordOk {s : State} (h : ¬ s.keywordOk) : exec .pfEnc s = .next (s.aborted 1) :=
  exec_of_body_error rfl (pfEncBody_of_not_keywordOk (s := s.freshResult) h)

theorem exec_pfEnc_of_accepted {s : State} (hs : s.Inv) (hKey : s.keywordOk)
    (hText : s.cleanText ≠ [] ∨ s.params.emptyTextIsError = false) :
    ∃ t, exec .pfEnc s = .next t ∧ s.Delivers t (pfEncResultOf s) :=
  exec_of_text_test_of_accepted (i := .pfEnc) rfl nofun hs (pfEncBody_of_keywordOk (s := s.freshResult) hKey) hText

theorem pfEncResultOf_out_length (s : State) : (pfEncResultOf s).out.length = 2 * (pfPairs s.prepared).length :=
  pfApply_length _ _ _

theorem pfEncResultOf_trace_length (s : State) : (pfEncResultOf s).trace.length = (pfPairs s.prepared).length :=
  List.length_mapIdx

/-- Settles O33. -/
theorem pfEncResult : Obligations.PfEncResult := by
  refine ⟨decodeOfEncode .pfEnc rfl, fun s hs => ⟨fun hKey hParam => ?_, fun hText hParam => ?_, fun hKey hText => ?_⟩⟩
  · exact exec_pfEnc_of_not_keywordOk (State.not_keywordOk hKey hParam)
  · by_cases hKey : s.keywordOk
    · exact exec_of_text_test_of_empty rfl (pfEncBody_of_keywordOk (s := s.freshResult) hKey) hText hParam
    · exact exec_pfEnc_of_not_keywordOk hKey
  · obtain ⟨t, hExec, hDel⟩ := exec_pfEnc_of_accepted hs hKey hText
    have hSucceeded := hDel.succeeded
    rw [pfEncResultOf_out_length, pfEncResultOf_trace_length] at hSucceeded
    refine ⟨t, hExec, hSucceeded, hDel.affAinv, hDel.hillInv, hDel.pfMat_eq, fun k a b a2 b2 rule hk hRule => ?_⟩
    obtain ⟨hFirst, hSecond⟩ := pfApply_getElem? hk hRule
    exact ⟨hDel.outIs.readLoc hFirst, hDel.outIs.readLoc hSecond, hDel.recordIs (pfRecords_getElem? hk hRule)⟩

/-! ### A result that may not fit OUT -/

theorem State.commit_completed (s : State) (r : Result) :
    s.completed (s.freshResult.commit r).finish (min r.out.length (outMax s.params)) r.trace.length :=
  ⟨rfl, statusWord_true_false, rfl, by simp [State.inputsKept], fun a hOut hTrace =>
    State.cell_commit_of_outside s.freshResult r a hOut hTrace⟩

/-- A commit writes the letters as far as OUT has cells (log entry 18). -/
theorem State.commit_outTakes {s : State} (hp : paramsWf s.params) (r : Result) :
    (s.freshResult.commit r).finish.outTakes r.out := by
  have hMax := outMax_le hp
  exact ⟨outLength_of_lt _, fun j hj hCell => State.readLoc_out_commit s.freshResult r j hj hCell
    (by simp only [State.freshResult_params]; omega)⟩

/-! ### PF.DEC -/

theorem pfRaw_length {s : State} (hEven : s.cleanText.length % 2 = 0) : (pfRaw s).length = s.cleanText.length := by
  rw [pfRaw, pfApply_length, pfDigraphs_length, s.prepared_length]
  omega

theorem pfDecLetters_standard (raw : List Sym) : pfDecLetters .standard raw = pfCleanup raw := by
  cases raw with
  | nil => rfl
  | cons x raw => rfl

theorem pfRaw_eq_nil_iff {s : State} (hEven : s.cleanText.length % 2 = 0) : pfRaw s = [] ↔ s.cleanText = [] := by
  rw [← List.length_eq_zero_iff, pfRaw_length hEven, List.length_eq_zero_iff]

theorem pfDecResultOf_out_of_nil {s : State} (h : pfRaw s = []) : (pfDecResultOf s).out = [] := by
  rw [pfDecResultOf, h]
  exact pfDecLetters_nil s.params.cleanup

theorem pfDecResultOf_out_of_standard {s : State} (h : s.params.cleanup = .standard) :
    (pfDecResultOf s).out = pfCleanup (pfRaw s) := by
  rw [pfDecResultOf, h]
  exact pfDecLetters_standard (pfRaw s)

theorem pfDecResultOf_out_of_custom {s : State} {id : Nat} (h : s.params.cleanup = .custom id) (hRaw : pfRaw s ≠ []) :
    (pfDecResultOf s).out = Config.customCleanup id (pfRaw s) := by
  rw [pfDecResultOf, h]
  exact pfDecLetters_of_ne_nil (.custom id) (pfRaw s) hRaw

theorem pfDecResultOf_trace_length (s : State) : (pfDecResultOf s).trace.length = s.cleanText.length / 2 := by
  simp [pfDecResultOf, pfResult, pfDigraphs_length]

theorem exec_pfDec_of_not_keywordOk {s : State} (h : ¬ s.keywordOk) : exec .pfDec s = .next (s.aborted 1) :=
  exec_of_body_error rfl (pfDecBody_of_not_keywordOk (s := s.freshResult) h)

theorem exec_pfDec_of_empty_text {s : State} (hText : s.cleanText = []) (hParam : s.params.emptyTextIsError = true) :
    exec .pfDec s = .next (s.aborted 1) := by
  by_cases hKey : s.keywordOk
  · exact exec_of_body_error rfl ((pfDecBody_of_keywordOk (s := s.freshResult) hKey).trans
      (if_pos ((s.emptyTextRaises_iff _).mpr ⟨hText, hParam⟩)))
  · exact exec_pfDec_of_not_keywordOk hKey

section
variable {s : State} (hKey : s.keywordOk) (hText : s.cleanText ≠ [] ∨ s.params.emptyTextIsError = false)
  (hEven : s.cleanText.length % 2 = 0)
include hKey hText hEven

theorem exec_pfDec_of_accepted :
    exec .pfDec s = .next (s.freshResult.commit (pfDecResultOf s)).finish := by
  rw [exec_of_commandBody (i := .pfDec) rfl,
    runOperation_of_ok _ s _ (pfDecBody_of_even (s := s.freshResult) hKey hText hEven)]
  rfl

/-- The letters of the default cleanup fit OUT, so all of them are there. -/
theorem pfDec_outIs_of_standard (hs : s.Inv) (hStandard : s.params.cleanup = .standard) :
    (s.freshResult.commit (pfDecResultOf s)).finish.outIs (pfCleanup (pfRaw s)) := by
  have hFits : (pfDecResultOf s).Fits .pfDec s.params :=
    body_fits rfl hs.operandsFit (pfDecBody_of_even hKey hText hEven)
  exact pfDecResultOf_out_of_standard hStandard ▸
    (State.delivers_commit hs.operandsFit.params (hFits.out_le (.inr hStandard))).outIs

end

/-- Settles O34: the raw list and its letters are those of `pfDecResultOf`, and the commit writes what OUT can hold. -/
theorem pfDecResult : Obligations.PfDecResult := by
  refine ⟨decodeOfEncode .pfDec rfl, fun s hs => ⟨fun hKey hParam => ?_, exec_pfDec_of_empty_text,
    fun hKey hOdd => ?_, fun hKey hText hEven => ?_⟩⟩
  · exact exec_pfDec_of_not_keywordOk (State.not_keywordOk hKey hParam)
  · exact exec_of_body_error rfl (pfDecBody_of_odd (s := s.freshResult) hKey hOdd)
  · have hLength := pfRaw_length hEven
    have hCompleted := s.commit_completed (pfDecResultOf s)
    rw [pfDecResultOf_trace_length] at hCompleted
    refine ⟨_, pfRaw s, (pfDecResultOf s).out, exec_pfDec_of_accepted hKey hText hEven, hLength, fun hStandard => ?_,
      fun id hCustom hNonempty => ?_, fun hEmpty => ?_, hCompleted, State.commit_outTakes hs.operandsFit.params _, rfl,
      rfl, pfMatWords_getElem_eq_getD _, fun k a b a2 b2 rule ha hb hRule => ?_⟩
    · have hOut := pfDecResultOf_out_of_standard hStandard
      exact ⟨hOut, by rw [hOut, ← hLength]; exact pfCleanup_length_le _⟩
    · exact pfDecResultOf_out_of_custom hCustom (mt (pfRaw_eq_nil_iff hEven).mp hNonempty)
    · have hOut := pfDecResultOf_out_of_nil ((pfRaw_eq_nil_iff hEven).mpr hEmpty)
      obtain ⟨-, -, hCount, -⟩ := hCompleted
      exact ⟨hOut, (congrArg outLength hOut).trans outLength_nil, hCount.trans (by rw [hEmpty]; rfl)⟩
    · have hPair := pfDigraphs_getElem? ha hb
      obtain ⟨hFirst, hSecond⟩ := pfApply_getElem? hPair hRule
      exact ⟨hFirst, hSecond, s.commit_recordIs (pfRecords_getElem? hPair hRule)⟩

/-! ### The round trip -/

/-- The letters of PF.ENC, prepared for PF.DEC, are those letters: none of them is J. -/
theorem pfRaw_of_copied {s u : State} (hKey : u.cleanKey = s.cleanKey) (hText : u.cleanText = (pfEncResultOf s).out) :
    pfRaw u = (pfPairs s.prepared).flatMap fun ab => [ab.1, ab.2] := by
  have hPairs : ∀ ab ∈ pfPairs s.prepared, ab.1 ≠ symJ ∧ ab.2 ≠ symJ :=
    forall_mem_pfPairs (P := (· ≠ symJ)) (by decide) s.prepared_ne_symJ
  have hPrepared : u.prepared = pfApply (pfMatrix s.cleanKey) 1 (pfPairs s.prepared) :=
    (State.prepared_of_no_J (hText ▸ pfApply_ne_symJ s.cleanKey hPairs 1)).trans hText
  rw [pfRaw, hKey, hPrepared, pfApply_pfDigraphs_pfApply s.cleanKey hPairs]

/-- A PF.ENC that ends without an error has passed the keyword test. -/
theorem keywordOk_of_exec_pfEnc {s t : State} (h : exec .pfEnc s = .next t) (hErr : t.err = 0) : s.keywordOk := by
  by_contra hKey
  cases (exec_pfEnc_of_not_keywordOk hKey).symm.trans h
  exact absurd hErr (errorWord_ne_zero .emptyInput)

/-- Settles O36: PF.ENC leaves a text of even length without J, whose decryption gives its digraphs back. -/
theorem pfRawRoundTrip : Obligations.PfRawRoundTrip := by
  intro s t u hs hu hText hSameKey hParams h hErr hCopy
  have hKey := keywordOk_of_exec_pfEnc h hErr
  obtain ⟨t', hExec, hDel⟩ := exec_pfEnc_of_accepted hs hKey (.inl hText)
  cases hExec.symm.trans h
  have hLength := pfEncResultOf_out_length s
  have hShort : (pfEncResultOf s).out.length < 2 ^ 32 := by
    have hPairs := pfPairs_length_le s.prepared
    have hFit := hs.operandsFit.cleanText_le
    have hMax := traceMax_le hs.operandsFit.params
    rw [s.prepared_length] at hPairs
    unfold traceMax at hMax
    omega
  have hCopied := State.cleanText_of_copied hDel.outIs hShort hCopy
  have hKeyU : u.keywordOk := by rwa [State.keywordOk, hSameKey, hParams]
  have hEven : u.cleanText.length % 2 = 0 := by rw [hCopied, hLength]; omega
  have hRaw := pfRaw_of_copied hSameKey hCopied
  have hTextU : u.cleanText ≠ [] := by
    have hPos := List.length_pos_iff.mpr hText
    have hPairs := length_le_two_mul_pfPairs s.prepared
    rw [s.prepared_length] at hPairs
    rw [← List.length_pos_iff, hCopied, hLength]
    omega
  have hRawNe : pfRaw u ≠ [] := mt (pfRaw_eq_nil_iff hEven).mp hTextU
  refine ⟨_, _, exec_pfDec_of_accepted hKeyU (.inl hTextU) hEven, rfl, rfl, fun hStandard => ?_, fun id hCustom => ?_⟩
  · exact hRaw ▸ pfDec_outIs_of_standard hKeyU (.inl hTextU) hEven hu hStandard
  · rw [← hRaw, ← pfDecResultOf_out_of_custom hCustom hRawNe]
    exact State.commit_outTakes hu.operandsFit.params _

end Sys2Proof.Machine
end

section
/-! PROOFS. The elimination of `hillInverse`: the pivot of a column, the step that works off a column, and the run
over all columns (44_hill_matrix_inverse.md R192, R193). -/

namespace Sys2Proof.Machine

/-! ### Rows and entries -/

theorem getD_map_range {α : Type} {f : Nat → α} {n i : Nat} (h : i < n) (d : α) :
    ((List.range n).map f).getD i d = f i := by
  simp [h]

theorem augmented_iff_getD {n : Nat} {a : SymMatrix} :
    augmented n a ↔ a.length = n ∧ ∀ r, r < n → (a.getD r []).length = 2 * n := by
  refine and_congr_right fun hLength => ⟨fun h r hr => ?_, fun h row hRow => ?_⟩
  · rw [List.getD_eq_getElem _ _ (hLength ▸ hr)]
    exact h _ (List.getElem_mem _)
  · obtain ⟨r, hr, rfl⟩ := List.mem_iff_getElem.mp hRow
    rw [← List.getD_eq_getElem _ [] hr]
    exact h r (hLength ▸ hr)

theorem mod26_natCast_val (n : Nat) : (mod26 n).val = n % 26 := by
  have hVal := mod26_val n
  exact_mod_cast hVal

theorem augmented.length_eq {n : Nat} {a : SymMatrix} (h : augmented n a) : a.length = n := h.1

/-! ### [M | I] -/

theorem augmented_hillAugment (n : Nat) (m : SymMatrix) : augmented n (hillAugment n m) :=
  augmented_iff_getD.mpr ⟨by simp [hillAugment], fun r hr => by
    rw [hillAugment, getD_map_range hr]
    simp [Nat.two_mul]⟩

theorem entry_hillAugment_left {n r c : Nat} (m : SymMatrix) (hr : r < n) (hc : c < n) :
    entry (hillAugment n m) r c = entry m r c := by
  rw [entry, hillAugment, getD_map_range hr, List.getD_append _ _ _ _ (by simpa), getD_map_range hc]

theorem entry_hillAugment_right {n r c : Nat} (m : SymMatrix) (hr : r < n) (hc : c < n) :
    entry (hillAugment n m) r (n + c) = if r = c then 1 else 0 := by
  rw [entry, hillAugment, getD_map_range hr, List.getD_append_right _ _ _ _ (by simp)]
  simpa using getD_map_range hc 0

/-! ### The pivot -/

theorem hillPivot_eq_some_iff (n : Nat) (a : SymMatrix) (col p : Nat) :
    hillPivot n a col = some p ↔ col ≤ p ∧ p < n ∧ Nat.gcd (entry a p col).val 26 = 1 ∧
      ∀ r, col ≤ r → r < p → Nat.gcd (entry a r col).val 26 ≠ 1 := by
  simp only [hillPivot, List.find?_range'_eq_some, List.mem_range'_1, Bool.not_eq_true', ← Bool.not_eq_true,
    isUnit_iff_coprime]
  constructor
  · rintro ⟨hUnit, ⟨hLo, hHi⟩, hLowest⟩
    exact ⟨hLo, by omega, hUnit, hLowest⟩
  · rintro ⟨hLo, hHi, hUnit, hLowest⟩
    exact ⟨hUnit, ⟨hLo, by omega⟩, hLowest⟩

theorem hillPivot_eq_none_iff (n : Nat) (a : SymMatrix) (col : Nat) :
    hillPivot n a col = none ↔ ∀ r, col ≤ r → r < n → Nat.gcd (entry a r col).val 26 ≠ 1 := by
  simp only [hillPivot, List.find?_eq_none, List.mem_range'_1, ne_eq, isUnit_iff_coprime]
  exact ⟨fun h r hLo hHi => h r ⟨hLo, by omega⟩, fun h r hr => h r hr.1 (by omega)⟩

/-! ### Swap, scaling and elimination -/

theorem getD_swapRows {a : SymMatrix} {i j : Nat} (hi : i < a.length) (hj : j < a.length) (r : Nat) :
    (swapRows a i j).getD r [] = a.getD (Equiv.swap i j r) [] := by
  obtain rfl | hrj := eq_or_ne r j
  · simp [swapRows, hj]
  obtain rfl | hri := eq_or_ne r i
  · simp [swapRows, hi, hrj.symm]
  · simp [swapRows, hri.symm, hrj.symm, Equiv.swap_apply_of_ne_of_ne hri hrj]

theorem entry_swapRows {a : SymMatrix} {i j : Nat} (hi : i < a.length) (hj : j < a.length) (r k : Nat) :
    entry (swapRows a i j) r k = entry a (Equiv.swap i j r) k := by
  rw [entry, getD_swapRows hi hj, entry]

theorem augmented_swapRows {n : Nat} {a : SymMatrix} {i j : Nat} (h : augmented n a) (hi : i < n) (hj : j < n) :
    augmented n (swapRows a i j) := by
  obtain ⟨hLength, hRows⟩ := augmented_iff_getD.mp h
  refine augmented_iff_getD.mpr ⟨by simp [swapRows, hLength], fun r hr => ?_⟩
  rw [getD_swapRows (hLength ▸ hi) (hLength ▸ hj), Equiv.swap_apply_def]
  split_ifs
  · exact hRows j hj
  · exact hRows i hi
  · exact hRows r hr

@[simp] theorem scaleRow_length (v : Nat) (row : List Sym) : (scaleRow v row).length = row.length := by
  simp [scaleRow]

theorem getD_scaleRow (v : Nat) (row : List Sym) (k : Nat) :
    (scaleRow v row).getD k 0 = mod26 (v * (row.getD k 0).val) :=
  List.getD_map (l := row) (d := 0) (n := k) fun x : Sym => mod26 (v * x.val)

theorem getD_eliminateRow (f : Sym) {pivotRow row : List Sym} (h : row.length = pivotRow.length) (k : Nat) :
    (eliminateRow f pivotRow row).getD k 0 = mod26 ((row.getD k 0).val - f.val * (pivotRow.getD k 0).val) := by
  simp only [eliminateRow, List.getD_eq_getElem?_getD, List.getElem?_zipWith]
  by_cases hk : k < row.length
  · simp [hk, h ▸ hk]
  · simp [hk, h ▸ hk, mod26, mod]

/-- Scaling and elimination of a column whose pivot has been swapped into the diagonal row
(44_hill_matrix_inverse.md R192). -/
def hillSweep (b : SymMatrix) (col v : Nat) : SymMatrix :=
  b.mapIdx fun r row =>
    if r = col then scaleRow v (b.getD col [])
    else eliminateRow (entry b r col) (scaleRow v (b.getD col [])) row

theorem getD_hillSweep {b : SymMatrix} {r : Nat} (hr : r < b.length) (col v : Nat) :
    (hillSweep b col v).getD r [] =
      if r = col then scaleRow v (b.getD col [])
      else eliminateRow (entry b r col) (scaleRow v (b.getD col [])) (b.getD r []) := by
  simp [hillSweep, hr]

section
variable {n col v : Nat} {b : SymMatrix} (h : augmented n b) (hcol : col < n)
include h hcol

theorem augmented_hillSweep : augmented n (hillSweep b col v) := by
  obtain ⟨hLength, hRows⟩ := augmented_iff_getD.mp h
  refine augmented_iff_getD.mpr ⟨by simp [hillSweep, hLength], fun r hr => ?_⟩
  rw [getD_hillSweep (hLength ▸ hr)]
  split_ifs
  · rw [scaleRow_length, hRows col hcol]
  · rw [eliminateRow, List.length_zipWith, scaleRow_length, hRows r hr, hRows col hcol, Nat.min_self]

theorem entry_hillSweep_pivot (k : Nat) : entry (hillSweep b col v) col k = mod26 (v * (entry b col k).val) := by
  rw [entry, getD_hillSweep (h.length_eq ▸ hcol), if_pos rfl, getD_scaleRow, entry]

theorem entry_hillSweep_other {r : Nat} (hr : r < n) (hne : r ≠ col) (k : Nat) :
    entry (hillSweep b col v) r k =
      mod26 ((entry b r k).val - (entry b r col).val * (entry (hillSweep b col v) col k).val) := by
  obtain ⟨hLength, hRows⟩ := augmented_iff_getD.mp h
  have hSame : (b.getD r []).length = (scaleRow v (b.getD col [])).length := by
    rw [scaleRow_length, hRows r hr, hRows col hcol]
  rw [entry_hillSweep_pivot h hcol, entry, getD_hillSweep (hLength ▸ hr), if_neg hne, getD_eliminateRow _ hSame,
    getD_scaleRow]
  rfl

end

/-! ### The work of one column -/

/-- What the work of column `col` with the pivot row `p` and the pivot's inverse `v` makes of `a`
(44_hill_matrix_inverse.md R192). -/
structure ColumnStep (n : Nat) (a : SymMatrix) (col p v : Nat) (b : SymMatrix) : Prop where
  augmented : augmented n b
  pivotRow : ∀ k, (entry b col k).val = v * (entry a p k).val % 26
  otherRow : ∀ r, r < n → r ≠ col → ∀ k, ((entry b r k).val : Int) =
    ((entry a (Equiv.swap col p r) k).val - (entry a (Equiv.swap col p r) col).val * (entry b col k).val : Int) % 26

theorem columnStep_hillSweep {n col p : Nat} {a : SymMatrix} (ha : augmented n a) (hcol : col < n) (hp : p < n)
    (v : Nat) : ColumnStep n a col p v (hillSweep (swapRows a col p) col v) := by
  have hb := augmented_swapRows ha hcol hp
  have hSwap := entry_swapRows (ha.length_eq ▸ hcol) (ha.length_eq ▸ hp : p < a.length)
  refine ⟨augmented_hillSweep hb hcol, fun k => ?_, fun r hr hne k => ?_⟩
  · rw [entry_hillSweep_pivot hb hcol, hSwap, Equiv.swap_apply_left, ← Nat.cast_mul, mod26_natCast_val]
  · rw [entry_hillSweep_other hb hcol hr hne, mod26_val, hSwap, hSwap]

theorem hillColumn_of_no_pivot {n col : Nat} {a : SymMatrix} (h : hillPivot n a col = none) :
    hillColumn n a col = none := by
  rw [hillColumn, h]

section
variable {n col : Nat} {a : SymMatrix} (ha : augmented n a) (hcol : col < n)
include ha hcol

theorem hillColumn_of_pivot {p v : Nat} (hPivot : hillPivot n a col = some p)
    (hInv : modInv (entry a p col).val = some v) :
    hillColumn n a col = some (hillSweep (swapRows a col p) col v) := by
  obtain ⟨-, hp, -⟩ := (hillPivot_eq_some_iff ..).mp hPivot
  have hEntry : entry (swapRows a col p) col col = entry a p col := by
    rw [entry_swapRows (ha.length_eq ▸ hcol) (ha.length_eq ▸ hp), Equiv.swap_apply_left]
  simp only [hillColumn, hPivot, hEntry, hInv]
  rfl

/-- The pivot is a unit, so its inverse is there and the column is worked off (44_hill_matrix_inverse.md R192). -/
theorem exists_columnStep {p : Nat} (hPivot : hillPivot n a col = some p) :
    ∃ v b, modInv (entry a p col).val = some v ∧ hillColumn n a col = some b ∧ ColumnStep n a col p v b := by
  obtain ⟨-, hp, hUnit, -⟩ := (hillPivot_eq_some_iff ..).mp hPivot
  obtain ⟨v, hInv⟩ := exists_modInv_of_coprime hUnit
  exact ⟨v, _, hInv, hillColumn_of_pivot ha hcol hPivot hInv, columnStep_hillSweep ha hcol hp v⟩

theorem hillColumn_eq_none_iff : hillColumn n a col = none ↔ hillPivot n a col = none := by
  refine ⟨fun h => ?_, hillColumn_of_no_pivot⟩
  by_contra hPivot
  obtain ⟨p, hp⟩ := Option.ne_none_iff_exists'.mp hPivot
  obtain ⟨v, b, -, hb, -⟩ := exists_columnStep ha hcol hp
  simp [hb] at h

theorem columnStep_of_hillColumn {b : SymMatrix} (h : hillColumn n a col = some b) :
    ∃ p v, hillPivot n a col = some p ∧ modInv (entry a p col).val = some v ∧ ColumnStep n a col p v b := by
  have hPivot : hillPivot n a col ≠ none := fun hNone => by simp [hillColumn_of_no_pivot hNone] at h
  obtain ⟨p, hp⟩ := Option.ne_none_iff_exists'.mp hPivot
  obtain ⟨v, b', hInv, hb', hStep⟩ := exists_columnStep ha hcol hp
  cases h.symm.trans hb'
  exact ⟨p, v, hp, hInv, hStep⟩

end

/-! ### The run over the columns -/

theorem hillEliminate_append (n : Nat) (a : SymMatrix) (xs ys : List Nat) :
    hillEliminate n a (xs ++ ys) = (hillEliminate n a xs).bind fun b => hillEliminate n b ys := by
  induction xs generalizing a with
  | nil => rfl
  | cons col xs ih =>
    rw [List.cons_append, hillEliminate, hillEliminate]
    cases hillColumn n a col with
    | none => rfl
    | some b => exact ih b

theorem hillEliminate_singleton (n : Nat) (a : SymMatrix) (col : Nat) :
    hillEliminate n a [col] = hillColumn n a col := by
  rw [hillEliminate]
  cases hillColumn n a col <;> rfl

theorem hillEliminate_range_succ (n : Nat) (a : SymMatrix) (col : Nat) :
    hillEliminate n a (List.range (col + 1)) =
      (hillEliminate n a (List.range col)).bind fun b => hillColumn n b col := by
  simp only [List.range_succ, hillEliminate_append, hillEliminate_singleton]

/-- What holds of the first matrix and is kept by the work of every column holds after each column. -/
theorem hillEliminate_induction {n : Nat} {P : Nat → SymMatrix → Prop} {a₀ : SymMatrix} (hStart : P 0 a₀)
    (hStep : ∀ col a b, col < n → P col a → hillColumn n a col = some b → P (col + 1) b) {col : Nat} (hcol : col ≤ n)
    {a : SymMatrix} (h : hillEliminate n a₀ (List.range col) = some a) : P col a := by
  induction col generalizing a with
  | zero => exact Option.some.inj h ▸ hStart
  | succ col ih =>
    rw [hillEliminate_range_succ, Option.bind_eq_some_iff] at h
    obtain ⟨b, hb, hColumn⟩ := h
    exact hStep col b a hcol (ih (by omega) hb) hColumn

theorem augmented_of_hillEliminate {n col : Nat} {m a : SymMatrix} (hcol : col ≤ n)
    (h : hillEliminate n (hillAugment n m) (List.range col) = some a) : augmented n a := by
  refine hillEliminate_induction (P := fun _ => augmented n) (augmented_hillAugment n m) ?_ hcol h
  intro col a b hcol ha hColumn
  obtain ⟨p, v, -, -, hStep⟩ := columnStep_of_hillColumn ha hcol hColumn
  exact hStep.augmented

theorem hillEliminate_eq_none_iff {n N : Nat} (m : SymMatrix) (hN : N ≤ n) :
    hillEliminate n (hillAugment n m) (List.range N) = none ↔ ∃ (col : Nat) (a : SymMatrix), col < N ∧
      hillEliminate n (hillAugment n m) (List.range col) = some a ∧ hillPivot n a col = none := by
  induction N with
  | zero => simp [hillEliminate]
  | succ N ih =>
    have hColumn {b : SymMatrix} (hb : hillEliminate n (hillAugment n m) (List.range N) = some b) :
        hillColumn n b N = none ↔ hillPivot n b N = none :=
      hillColumn_eq_none_iff (augmented_of_hillEliminate (by omega) hb) hN
    rw [hillEliminate_range_succ]
    constructor
    · intro h
      cases hb : hillEliminate n (hillAugment n m) (List.range N) with
      | none =>
        obtain ⟨col, a, hcol, ha, hPivot⟩ := (ih (by omega)).mp hb
        exact ⟨col, a, by omega, ha, hPivot⟩
      | some b =>
        rw [hb, Option.bind_some] at h
        exact ⟨N, b, by omega, hb, (hColumn hb).mp h⟩
    · rintro ⟨col, a, hcol, ha, hPivot⟩
      obtain hLt | rfl := Nat.lt_succ_iff_lt_or_eq.mp hcol
      · rw [(ih (by omega)).mpr ⟨col, a, hLt, ha, hPivot⟩, Option.bind_none]
      · rw [ha, Option.bind_some, (hColumn ha).mpr hPivot]

/-! ### The result -/

theorem entry_map_drop (n : Nat) (a : SymMatrix) (r c : Nat) :
    entry (a.map (List.drop n)) r c = entry a r (n + c) := by
  have hRow : (a.map (List.drop n)).getD r [] = (a.getD r []).drop n := by
    simpa using List.getD_map (l := a) (d := []) (n := r) (List.drop n)
  simp only [entry, hRow, List.getD_eq_getElem?_getD, List.getElem?_drop]

theorem hillInverse_eq_none_iff (n : Nat) (m : SymMatrix) :
    hillInverse n m = none ↔ ∃ (col : Nat) (a : SymMatrix), col < n ∧
      hillEliminate n (hillAugment n m) (List.range col) = some a ∧ hillPivot n a col = none := by
  rw [hillInverse, Option.map_eq_none_iff, hillEliminate_eq_none_iff m le_rfl]

theorem hillEliminate_of_hillInverse {n : Nat} {m inv : SymMatrix} (h : hillInverse n m = some inv) :
    ∃ a, hillEliminate n (hillAugment n m) (List.range n) = some a ∧
      ∀ r c, entry inv r c = entry a r (n + c) := by
  obtain ⟨a, ha, rfl⟩ := Option.map_eq_some_iff.mp h
  exact ⟨a, ha, entry_map_drop n a⟩

/-- Settles O60, part by part: [M | I], the pivot, the work of a column, the order of the columns, the result. -/
theorem hillPivotRule : Obligations.HillPivotRule := by
  refine ⟨fun n m => ⟨augmented_hillAugment n m, fun r c hr hc =>
      ⟨entry_hillAugment_left m hr hc, entry_hillAugment_right m hr hc⟩⟩,
    fun n a col => ⟨hillPivot_eq_some_iff n a col, hillPivot_eq_none_iff n a col⟩,
    fun n a col ha hcol => ⟨hillColumn_of_no_pivot, fun p v hPivot hLo hHi hInv => ?_⟩,
    fun n a => ⟨rfl, hillEliminate_range_succ n a⟩,
    fun n m => ⟨hillInverse_eq_none_iff n m, fun inv h => ?_⟩⟩
  · obtain ⟨v', b, hInv', hColumn, hStep⟩ := exists_columnStep ha hcol hPivot
    cases hInv'.symm.trans ((modInv_eq_some_iff _ v).mpr ⟨hLo, hHi, by rwa [Nat.mul_comm]⟩)
    refine ⟨b, hColumn, hStep.augmented, fun k _ => ⟨hStep.pivotRow k, ?_⟩⟩
    rintro r _ hr hne rfl
    rw [hStep.otherRow r hr hne, Equiv.swap_apply_def, if_neg hne]
  · obtain ⟨a, ha, hEntry⟩ := hillEliminate_of_hillInverse h
    exact ⟨a, ha, fun r c _ _ => hEntry r c⟩

/-- Settles O40, by evaluation of the elimination on the matrices named. -/
theorem hillRejectsSomeInvertible : Obligations.HillRejectsSomeInvertible := by
  unfold Obligations.HillRejectsSomeInvertible
  decide +kernel

end Sys2Proof.Machine
end

section
/-! PROOFS. What `hillInverse` returns, over the ring of residues mod 26: the elimination keeps every row of [M | I] in
the form [x·M | x] and turns the left half into I, so the right half is a left inverse of M, which for square matrices
over a commutative ring is the inverse (44_hill_matrix_inverse.md R193, R194). -/

namespace Sys2Proof.Machine

/-! ### Matrices over the residues -/

/-- The n×n corner of a matrix, over the residues mod 26. -/
def residues (n : Nat) (m : SymMatrix) : Matrix (Fin n) (Fin n) (ZMod 26) :=
  Matrix.of fun r c => ((entry m r c).val : ZMod 26)

theorem residues_apply (n : Nat) (m : SymMatrix) (r c : Fin n) : residues n m r c = ((entry m r c).val : ZMod 26) := rfl

theorem sym_eq_of_residue_eq {x y : Sym} (h : (x.val : ZMod 26) = (y.val : ZMod 26)) : x = y := by
  have hMod := (ZMod.natCast_eq_natCast_iff' _ _ _).mp h
  exact Fin.ext (by omega)

theorem residue_emod (x : Int) : ((x % 26 : Int) : ZMod 26) = x := ZMod.intCast_mod x 26

theorem residues_mul_apply (n : Nat) (a b : SymMatrix) (r c : Fin n) : (residues n a * residues n b) r c =
    ((∑ j ∈ Finset.range n, (entry a r j).val * (entry b j c).val : Nat) : ZMod 26) := by
  simp only [Matrix.mul_apply, residues_apply, Finset.sum_range]
  push_cast
  rfl

/-- The product of two matrices is the identity, said element by element in the natural numbers as R194 does. -/
theorem residues_mul_eq_one_iff (n : Nat) (a b : SymMatrix) : residues n a * residues n b = 1 ↔
    ∀ r c, r < n → c < n →
      (∑ j ∈ Finset.range n, (entry a r j).val * (entry b j c).val) % 26 = if r = c then 1 else 0 := by
  have hEntry (r c : Fin n) : (residues n a * residues n b) r c = (1 : Matrix (Fin n) (Fin n) (ZMod 26)) r c ↔
      (∑ j ∈ Finset.range n, (entry a r j).val * (entry b j c).val) % 26 = if r.val = c.val then 1 else 0 := by
    have hOne : (1 : Matrix (Fin n) (Fin n) (ZMod 26)) r c = ((if r.val = c.val then 1 else 0 : Nat) : ZMod 26) := by
      simp [Matrix.one_apply, Fin.ext_iff]
    have hLt : (if r.val = c.val then 1 else 0) < 26 := by split_ifs <;> decide
    rw [residues_mul_apply, hOne, ZMod.natCast_eq_natCast_iff', Nat.mod_eq_of_lt hLt]
  simp only [← Matrix.ext_iff, hEntry]
  exact ⟨fun h r c hr hc => h ⟨r, hr⟩ ⟨c, hc⟩, fun h r c => h r c r.isLt c.isLt⟩

/-! ### The rows of the elimination -/

/-- Row r of the n columns from `off` on, over the residues: the left half for `off = 0`, the right one for
`off = n`. -/
def halfRow (n : Nat) (a : SymMatrix) (off r : Nat) : Fin n → ZMod 26 := fun c => ((entry a r (off + c)).val : ZMod 26)

section
variable {n col p v : Nat} {a b : SymMatrix} (h : ColumnStep n a col p v b)
include h

theorem ColumnStep.halfRow_pivot (off : Nat) :
    halfRow n b off col = (v : ZMod 26) • halfRow n a off p := by
  funext c
  simp [halfRow, h.pivotRow]

theorem ColumnStep.halfRow_other (off : Nat) {r : Nat} (hr : r < n) (hne : r ≠ col) :
    halfRow n b off r = halfRow n a off (Equiv.swap col p r) -
      ((entry a (Equiv.swap col p r) col).val : ZMod 26) • halfRow n b off col := by
  funext c
  have hVal := congrArg (Int.cast : Int → ZMod 26) (h.otherRow r hr hne (off + c))
  rw [residue_emod] at hVal
  simpa [halfRow] using hVal

/-- The column that was worked off is the unit column of its index. -/
theorem ColumnStep.entry_col (hInv : (entry a p col).val * v % 26 = 1) {r : Nat} (hr : r < n) :
    entry b r col = if r = col then 1 else 0 := by
  have hPivot : (entry b col col).val = 1 := by rw [h.pivotRow, Nat.mul_comm, hInv]
  split_ifs with hrc
  · exact Fin.ext (hrc ▸ hPivot)
  · have hVal := h.otherRow r hr hrc col
    rw [hPivot] at hVal
    exact Fin.ext (by simpa using hVal)

/-- A unit column left of it stays as it was, for the two rows that are swapped are below its 1. -/
theorem ColumnStep.entry_lt_col (hcol : col ≤ p) (hp : p < n) {c : Nat} (hc : c < col)
    (hUnit : ∀ r, r < n → entry a r c = if r = c then 1 else 0) {r : Nat} (hr : r < n) :
    entry b r c = if r = c then 1 else 0 := by
  have hZero {q : Nat} (hq : col ≤ q) (hqn : q < n) : entry a q c = 0 := by
    rw [hUnit q hqn, if_neg (by omega)]
  have hPivot : (entry b col c).val = 0 := by rw [h.pivotRow, hZero hcol hp]; rfl
  obtain rfl | hne := eq_or_ne r col
  · rw [if_neg (by omega)]
    exact Fin.ext hPivot
  · have hVal := h.otherRow r hr hne c
    rw [hPivot] at hVal
    have hSame : entry b r c = entry a (Equiv.swap col p r) c := Fin.ext (by omega)
    rw [hSame]
    obtain rfl | hrp := eq_or_ne r p
    · rw [Equiv.swap_apply_right, hZero le_rfl (by omega), if_neg (by omega)]
    · rw [Equiv.swap_apply_of_ne_of_ne hne hrp, hUnit r hr]

end

/-! ### The invariant of the elimination -/

/-- After `col` columns: every row has the form [x·M | x], and the columns left of `col` are those of the identity. -/
structure Reduced (n : Nat) (m : SymMatrix) (col : Nat) (a : SymMatrix) : Prop where
  augmented : augmented n a
  rows : ∀ r, r < n → Matrix.vecMul (halfRow n a n r) (residues n m) = halfRow n a 0 r
  unitColumns : ∀ c, c < col → ∀ r, r < n → entry a r c = if r = c then 1 else 0

theorem reduced_hillAugment (n : Nat) (m : SymMatrix) : Reduced n m 0 (hillAugment n m) := by
  refine ⟨augmented_hillAugment n m, fun r hr => ?_, nofun⟩
  have hRight : halfRow n (hillAugment n m) n r = Pi.single ⟨r, hr⟩ 1 := by
    funext c
    rw [halfRow, entry_hillAugment_right m hr c.isLt, Pi.single_apply]
    split_ifs <;> simp_all [Fin.ext_iff]
  rw [hRight, Matrix.single_one_vecMul]
  funext c
  rw [halfRow, Nat.zero_add, entry_hillAugment_left m hr c.isLt]
  rfl

/-- Both halves of a row are combined alike, so a row stays of the form [x·M | x]. -/
theorem Reduced.hillColumn {n col : Nat} {m a b : SymMatrix} (h : Reduced n m col a) (hcol : col < n)
    (hColumn : hillColumn n a col = some b) : Reduced n m (col + 1) b := by
  obtain ⟨p, v, hPivot, hInv, hStep⟩ := columnStep_of_hillColumn h.augmented hcol hColumn
  obtain ⟨hLe, hp, -⟩ := (hillPivot_eq_some_iff ..).mp hPivot
  obtain ⟨-, -, hInv⟩ := modInv_some hInv
  have hPivotRow : Matrix.vecMul (halfRow n b n col) (residues n m) = halfRow n b 0 col := by
    rw [hStep.halfRow_pivot, hStep.halfRow_pivot, Matrix.smul_vecMul, h.rows p hp]
  refine ⟨hStep.augmented, fun r hr => ?_, fun c hc r hr => ?_⟩
  · obtain rfl | hne := eq_or_ne r col
    · exact hPivotRow
    · have hSource : Equiv.swap col p r < n := by
        rw [Equiv.swap_apply_def]
        split_ifs <;> assumption
      rw [hStep.halfRow_other n hr hne, hStep.halfRow_other 0 hr hne, Matrix.sub_vecMul, Matrix.smul_vecMul, hPivotRow,
        h.rows _ hSource]
  · obtain hLt | rfl := Nat.lt_succ_iff_lt_or_eq.mp hc
    · exact hStep.entry_lt_col hLe hp hLt (h.unitColumns c hLt) hr
    · exact hStep.entry_col hInv hr

theorem reduced_of_hillEliminate {n col : Nat} {m a : SymMatrix} (hcol : col ≤ n)
    (h : hillEliminate n (hillAugment n m) (List.range col) = some a) : Reduced n m col a :=
  hillEliminate_induction (P := Reduced n m) (reduced_hillAugment n m) (fun _ _ _ hcol ha => ha.hillColumn hcol) hcol h

/-! ### The inverse -/

section
variable {n : Nat} {m inv : SymMatrix} (h : hillInverse n m = some inv)
include h

/-- The rows of the last matrix are [x·M | x] with the left half I. -/
theorem hillInverse_mul : residues n inv * residues n m = 1 := by
  obtain ⟨a, ha, hEntry⟩ := hillEliminate_of_hillInverse h
  have hReduced := reduced_of_hillEliminate le_rfl ha
  funext r
  have hRight : residues n inv r = halfRow n a n r := funext fun c => by rw [residues_apply, hEntry]; rfl
  calc
    (residues n inv * residues n m) r = Matrix.vecMul (residues n inv r) (residues n m) :=
      Matrix.mul_apply_eq_vecMul ..
    _ = halfRow n a 0 r := by rw [hRight, hReduced.rows r r.isLt]
    _ = (1 : Matrix (Fin n) (Fin n) (ZMod 26)) r := funext fun c => by
      rw [halfRow, Nat.zero_add, hReduced.unitColumns c c.isLt r r.isLt, Matrix.one_apply]
      split_ifs <;> simp_all [Fin.ext_iff]

theorem mul_hillInverse : residues n m * residues n inv = 1 := mul_eq_one_comm.mp (hillInverse_mul h)

/-- Any right inverse is the inverse: `x = inv·(m·x) = inv`. -/
theorem eq_residues_of_mul_eq_one {x : Matrix (Fin n) (Fin n) (ZMod 26)} (hx : residues n m * x = 1) :
    x = residues n inv :=
  (left_inv_eq_right_inv (hillInverse_mul h) hx).symm

end

/-- Settles O38: the product of the right half with M is I on either side, and an inverse is unique. -/
theorem hillInverseCorrect : Obligations.HillInverseCorrect := by
  intro n m inv h
  have hRight := (residues_mul_eq_one_iff n m inv).mp (mul_hillInverse h)
  have hLeft := (residues_mul_eq_one_iff n inv m).mp (hillInverse_mul h)
  refine ⟨fun r c hr hc => ⟨hRight r c hr hc, hLeft r c hr hc⟩, fun x hx r c hr hc => ?_⟩
  have hEq := eq_residues_of_mul_eq_one h ((residues_mul_eq_one_iff n m x).mpr hx)
  exact sym_eq_of_residue_eq (congrFun₂ hEq ⟨r, hr⟩ ⟨c, hc⟩)

theorem residues_eq_map (n : Nat) (m : SymMatrix) : residues n m =
    (Int.castRingHom (ZMod 26)).mapMatrix (Matrix.of fun (r c : Fin n) => ((entry m r c).val : Int)) := by
  ext r c
  simp [residues_apply]

/-- Settles O39: an accepted matrix has an inverse over the residues, so its determinant is a unit there. -/
theorem hillRejectsSingular : Obligations.HillRejectsSingular := by
  intro n m hGcd
  by_contra hSome
  obtain ⟨inv, hInv⟩ := Option.ne_none_iff_exists'.mp hSome
  have hUnit : IsUnit (residues n m).det := Matrix.isUnit_det_of_right_inverse (mul_hillInverse hInv)
  rw [residues_eq_map, ← RingHom.map_det] at hUnit
  have hCoprime := (ZMod.coe_int_isUnit_iff_isCoprime _ 26).mp hUnit
  exact hGcd (Int.isCoprime_iff_gcd_eq_one.mp hCoprime.symm)

end Sys2Proof.Machine
end

section
/-! PROOFS. The Hill operations: the padding and the blocks of a text, the product of a matrix with a block, the errors
of HILL.ENC, HILL.DEC and HILL.INV in their order, their results, and the round trip (44_hill_matrix_inverse.md R191,
R195 to R203). -/

namespace Sys2Proof.Machine

/-! ### The padding -/

/-- Settles O41: `n - len(t) % n` X's fill up the last block, and none where it is full. -/
theorem hillPadRule : Obligations.HillPadRule := by
  intro n t hn
  refine ⟨_, Nat.mod_lt (n - t.length % n) hn, rfl, ?_⟩
  have hMod := Nat.mod_lt t.length hn
  rw [hillPad_length, Nat.add_mod_mod, ← Nat.mod_add_mod, Nat.add_sub_cancel' hMod.le, Nat.mod_self]

theorem hillPad_length_mod {n : Nat} (hn : 0 < n) (text : List Sym) : (hillPad n text).length % n = 0 := by
  obtain ⟨k, -, -, hMod⟩ := hillPadRule n text hn
  exact hMod

theorem hillPad_length_lt {n : Nat} (hn : 0 < n) (text : List Sym) : (hillPad n text).length < text.length + n := by
  obtain ⟨k, hk, hPad, -⟩ := hillPadRule n text hn
  rw [hPad, List.length_append, List.length_replicate]
  omega

/-- A text whose last block is full takes no padding. -/
theorem hillPad_of_length_mod {n : Nat} {text : List Sym} (h : text.length % n = 0) : hillPad n text = text := by
  simp [hillPad, h]

/-! ### The blocks -/

/-- Block `k` of a text. -/
def textBlock (n : Nat) (text : List Sym) (k : Nat) : List Sym := (text.drop (n * k)).take n

theorem hillBlocks_getElem? {n k : Nat} {text : List Sym} (hk : k < text.length / n) :
    (hillBlocks n text)[k]? = some (textBlock n text k) := by
  simp [hillBlocks, textBlock, hk]

theorem getD_textBlock {n j : Nat} (text : List Sym) (k : Nat) (hj : j < n) :
    (textBlock n text k).getD j 0 = text.getD (n * k + j) 0 := by
  simp [textBlock, hj]

theorem hillBlocks_append {n : Nat} (hn : 0 < n) {v : List Sym} (hv : v.length = n) (text : List Sym) :
    hillBlocks n (v ++ text) = v :: hillBlocks n text := by
  have hCount : (v ++ text).length / n = text.length / n + 1 := by
    rw [List.length_append, hv, Nat.add_comm, Nat.add_div_right _ hn]
  simp only [hillBlocks, hCount, List.range_succ_eq_map, List.map_cons, List.map_map]
  congr 1
  · simp [← hv]
  · refine List.map_congr_left fun k _ => ?_
    simp [Nat.mul_succ, ← hv, Nat.add_comm, ← List.drop_drop]

/-- Cutting a text that is put together from whole blocks gives the blocks back. -/
theorem hillBlocks_flatten {n : Nat} (hn : 0 < n) {blocks : List (List Sym)} (h : ∀ v ∈ blocks, v.length = n) :
    hillBlocks n blocks.flatten = blocks := by
  induction blocks with
  | nil => simp [hillBlocks]
  | cons v blocks ih =>
    obtain ⟨hv, hRest⟩ := List.forall_mem_cons.mp h
    rw [List.flatten_cons, hillBlocks_append hn hv, ih hRest]

/-- The blocks of a text that fills them put together are the text. -/
theorem flatten_hillBlocks {n q : Nat} (hn : 0 < n) {text : List Sym} (h : text.length = n * q) :
    (hillBlocks n text).flatten = text := by
  induction q generalizing text with
  | zero =>
    obtain rfl := List.eq_nil_of_length_eq_zero h
    simp [hillBlocks]
  | succ q ih =>
    rw [Nat.mul_succ] at h
    rw [← List.take_append_drop n text, hillBlocks_append hn (by simp; omega), List.flatten_cons,
      ih (by simp; omega)]

theorem length_of_mem_hillBlocks {n : Nat} {text v : List Sym} (h : v ∈ hillBlocks n text) : v.length = n := by
  obtain ⟨k, hk, rfl⟩ := List.mem_map.mp h
  have hFit : n * (k + 1) ≤ text.length := calc
    n * (k + 1) ≤ n * (text.length / n) := Nat.mul_le_mul_left n (List.mem_range.mp hk)
    _ ≤ text.length := Nat.mul_div_le _ _
  rw [Nat.mul_succ] at hFit
  rw [List.length_take, List.length_drop]
  omega

/-! ### The product with a block -/

theorem hillBlock_getD_val (w : SymMatrix) {n i : Nat} (v : List Sym) (hi : i < n) :
    ((hillBlock w n v).getD i 0).val =
      (∑ j ∈ Finset.range n, (entry w i j).val * (v.getD j 0).val) % 26 := by
  have hSum : ((List.range n).map fun j => ((entry w i j).val * (v.getD j 0).val : Int)).sum =
      ((∑ j ∈ Finset.range n, (entry w i j).val * (v.getD j 0).val : Nat) : Int) := by
    push_cast
    rfl
  rw [hillBlock, getD_map_range hi, hSum, mod26_natCast_val]

/-- A block as a vector over the residues mod 26. -/
def residueVec (n : Nat) (v : List Sym) : Fin n → ZMod 26 := fun i => ((v.getD i 0).val : ZMod 26)

theorem eq_of_residueVec_eq {n : Nat} {v w : List Sym} (hv : v.length = n) (hw : w.length = n)
    (h : residueVec n v = residueVec n w) : v = w := by
  refine List.ext_getElem (hv.trans hw.symm) fun i hi hi' => ?_
  have hEntry := sym_eq_of_residue_eq (congrFun h ⟨i, hv ▸ hi⟩)
  rwa [List.getD_eq_getElem _ _ hi, List.getD_eq_getElem _ _ hi'] at hEntry

theorem residueVec_hillBlock (w : SymMatrix) (n : Nat) (v : List Sym) :
    residueVec n (hillBlock w n v) = Matrix.mulVec (residues n w) (residueVec n v) := by
  funext i
  rw [residueVec, hillBlock_getD_val w v i.isLt, ZMod.natCast_mod, Finset.sum_range]
  push_cast
  rfl

/-- The inverse undoes the key on every block: `inv·(m·v) = (inv·m)·v = v` (44_hill_matrix_inverse.md R203 (a)). -/
theorem hillBlock_hillBlock {n : Nat} {m inv : SymMatrix} (h : hillInverse n m = some inv) {v : List Sym}
    (hv : v.length = n) : hillBlock inv n (hillBlock m n v) = v := by
  refine eq_of_residueVec_eq (hillBlock_length _ _ _) hv ?_
  rw [residueVec_hillBlock, residueVec_hillBlock, Matrix.mulVec_mulVec, hillInverse_mul h, Matrix.one_mulVec]

/-! ### The letters of a text under a matrix -/

/-- The letters that a matrix makes of a padded text (44_hill_matrix_inverse.md R199, R201). -/
def hillLetters (w : SymMatrix) (n : Nat) (text : List Sym) : List Sym :=
  (hillBlocks n (hillPad n text)).flatMap (hillBlock w n)

section
variable {n : Nat} (hn : 0 < n) (w : SymMatrix) (text : List Sym)

/-- Letter `i` of block `k`. -/
theorem hillLetters_getElem? {k i : Nat} (hk : k < (hillPad n text).length / n) (hi : i < n) :
    (hillLetters w n text)[n * k + i]? = some ((hillBlock w n (textBlock n (hillPad n text) k)).getD i 0) := by
  have hLt : i < (hillBlock w n (textBlock n (hillPad n text) k)).length := by rwa [hillBlock_length]
  rw [hillLetters, getElem?_flatMap_rows (hillBlock_length w n) (hillBlocks_getElem? hk) hi,
    List.getElem?_eq_getElem hLt, List.getD_eq_getElem _ _ hLt]

include hn

theorem hillLetters_length : (hillLetters w n text).length = (hillPad n text).length := by
  have hMod := hillPad_length_mod hn text
  simp only [hillLetters, List.length_flatMap, hillBlock_length, List.map_const', List.sum_replicate, smul_eq_mul,
    hillBlocks_length]
  exact Nat.div_mul_cancel (Nat.dvd_of_mod_eq_zero hMod)

theorem hillBlocks_hillLetters :
    hillBlocks n (hillPad n (hillLetters w n text)) = (hillBlocks n (hillPad n text)).map (hillBlock w n) := by
  rw [hillPad_of_length_mod (by rw [hillLetters_length hn, hillPad_length_mod hn]), hillLetters, List.flatMap_def]
  refine hillBlocks_flatten hn fun v hv => ?_
  obtain ⟨u, -, rfl⟩ := List.mem_map.mp hv
  exact hillBlock_length _ _ _

/-- Block by block, the inverse gives the padded text back; the padding stays (44_hill_matrix_inverse.md R201,
R203 (a)). -/
theorem hillLetters_hillLetters {m inv : SymMatrix} (h : hillInverse n m = some inv) :
    hillLetters inv n (hillLetters m n text) = hillPad n text := by
  have hUndone : ∀ v ∈ hillBlocks n (hillPad n text), (hillBlock inv n ∘ hillBlock m n) v = v := fun v hv =>
    hillBlock_hillBlock h (length_of_mem_hillBlocks hv)
  calc
    hillLetters inv n (hillLetters m n text)
      = ((hillBlocks n (hillPad n text)).map (hillBlock inv n ∘ hillBlock m n)).flatten := by
        rw [hillLetters, hillBlocks_hillLetters hn, List.flatMap_def, List.map_map]
    _ = (hillBlocks n (hillPad n text)).flatten := by rw [List.map_congr_left hUndone, List.map_id']
    _ = hillPad n text :=
        flatten_hillBlocks hn (Nat.mul_div_cancel' (Nat.dvd_of_mod_eq_zero (hillPad_length_mod hn text))).symm

end

/-! ### The key -/

theorem State.hillKeyValid_iff (s : State) : s.hillKeyValid = true ↔ s.hillKeyOk := by
  simp [State.hillKeyValid, State.hillKeyOk]

theorem State.hillKeyOk.dim {s : State} (h : s.hillKeyOk) : 2 ≤ s.hillN.toNat ∧ s.hillN.toNat ≤ 5 :=
  hillKeyValid_dim (s.hillKeyValid_iff.mpr h)

theorem State.hillKeyOk.dim_pos {s : State} (h : s.hillKeyOk) : 0 < s.hillN.toNat :=
  Nat.zero_lt_of_lt h.dim.1

/-- The elements of a key that passes its test are residues already (44_hill_matrix_inverse.md R190, R191). -/
theorem State.hillKeyOk.entry_hillKey {s : State} (h : s.hillKeyOk) {r c : Nat} (hr : r < s.hillN.toNat)
    (hc : c < s.hillN.toNat) : (entry s.hillKey r c).val = (s.hillEntry r c).toNat := by
  obtain ⟨-, hEntries⟩ := h
  have hLe := hEntries r hr c hc
  rw [entry, State.hillKey, getD_map_range hr, getD_map_range hc, mod26_natCast_val, Nat.mod_eq_of_lt (by omega)]

/-! ### What the bodies give -/

/-- The result of HILL.ENC and HILL.DEC with the matrix `w` and the inverse `inv` (44_hill_matrix_inverse.md R199 to
R201). -/
def hillResult (used : Word) (w inv : SymMatrix) (s : State) : Result where
  out := hillLetters w s.hillN.toNat s.cleanText
  trace := (hillBlocks s.hillN.toNat (hillPad s.hillN.toNat s.cleanText)).mapIdx fun k v =>
    hillRecord k s.hillN.toNat v (hillBlock w s.hillN.toNat v) used
  affAinv := none
  hillInv := some (hillInvWords s.hillN.toNat inv)
  pfMat := none

/-- The result of HILL.INV (44_hill_matrix_inverse.md R202). -/
def hillInvResultOf (inv : SymMatrix) (s : State) : Result where
  out := []
  trace := []
  affAinv := none
  hillInv := some (hillInvWords s.hillN.toNat inv)
  pfMat := none

section
variable {s : State} (used : Word)

theorem hillBody_of_not_keyOk (h : ¬ s.hillKeyOk) : hillBody used s = .error .invalidKey :=
  if_neg (mt s.hillKeyValid_iff.mp h)

theorem hillInvBody_of_not_keyOk (h : ¬ s.hillKeyOk) : hillInvBody s = .error .invalidKey :=
  if_neg (mt s.hillKeyValid_iff.mp h)

theorem hillBody_of_singular (h : s.hillKeyOk) (hInv : s.hillKeyInverse = none) :
    hillBody used s = .error .singularMatrix := by
  rw [State.hillKeyInverse] at hInv
  simp only [hillBody, s.hillKeyValid_iff.mpr h, hInv, if_true]

theorem hillInvBody_of_singular (h : s.hillKeyOk) (hInv : s.hillKeyInverse = none) :
    hillInvBody s = .error .singularMatrix := by
  rw [State.hillKeyInverse] at hInv
  simp only [hillInvBody, s.hillKeyValid_iff.mpr h, hInv, if_true]

theorem hillBody_of_inverse {inv : SymMatrix} (h : s.hillKeyOk) (hInv : s.hillKeyInverse = some inv) :
    hillBody used s = if s.emptyTextRaises s.cleanText then .error .emptyInput
      else .ok (hillResult used (if used = 0 then s.hillKey else inv) inv s) := by
  rw [State.hillKeyInverse] at hInv
  simp only [hillBody, s.hillKeyValid_iff.mpr h, hInv, if_true]
  rfl

theorem hillInvBody_of_inverse {inv : SymMatrix} (h : s.hillKeyOk) (hInv : s.hillKeyInverse = some inv) :
    hillInvBody s = .ok (hillInvResultOf inv s) := by
  rw [State.hillKeyInverse] at hInv
  simp only [hillInvBody, s.hillKeyValid_iff.mpr h, hInv, if_true]
  rfl

end

/-! ### The errors, in the order of 44_hill_matrix_inverse.md R197 -/

section
variable {i : Instr} {used : Word} (hb : commandBody i = some (hillBody used)) {s : State}
include hb

theorem exec_hill_of_not_keyOk (h : ¬ s.hillKeyOk) : exec i s = .next (s.aborted 2) :=
  exec_of_body_error hb (hillBody_of_not_keyOk (s := s.freshResult) used h)

theorem exec_hill_of_singular (h : s.hillKeyOk) (hInv : s.hillKeyInverse = none) : exec i s = .next (s.aborted 8) :=
  exec_of_body_error hb (hillBody_of_singular (s := s.freshResult) used h hInv)

theorem exec_hill_of_empty (h : s.hillKeyOk) (hInv : s.hillKeyInverse ≠ none) (hText : s.cleanText = [])
    (hParam : s.params.emptyTextIsError = true) : exec i s = .next (s.aborted 1) := by
  obtain ⟨inv, hSome⟩ := Option.ne_none_iff_exists'.mp hInv
  exact exec_of_text_test_of_empty hb (hillBody_of_inverse (s := s.freshResult) used h hSome) hText hParam

theorem exec_hill_of_accepted (hi : i ≠ .pfDec) (hs : s.Inv) {inv : SymMatrix} (h : s.hillKeyOk)
    (hInv : s.hillKeyInverse = some inv) (hText : s.cleanText ≠ [] ∨ s.params.emptyTextIsError = false) :
    ∃ t, exec i s = .next t ∧ s.Delivers t (hillResult used (if used = 0 then s.hillKey else inv) inv s) :=
  exec_of_text_test_of_accepted hb hi hs (hillBody_of_inverse (s := s.freshResult) used h hInv) hText

end

/-! ### HILL_INV -/

theorem State.holdsInverse_of_hillInv {t : State} {n : Nat} {inv : SymMatrix} (h : t.hillInv = hillInvWords n inv) :
    t.holdsInverse n inv := fun r c => by
  have hRow : (5 * r.val + c.val) / 5 = r := by omega
  have hCol : (5 * r.val + c.val) % 5 = c := by omega
  simp [State.readLoc, h, hillInvWords, hRow, hCol]

/-- Settles O44. -/
theorem hillInvResult : Obligations.HillInvResult := by
  refine ⟨decodeOfEncode .hillInv rfl, fun s => ⟨fun hKey => ?_, fun hKey hInv => ?_, fun inv hKey hInv => ?_⟩⟩
  · exact exec_of_body_error rfl (hillInvBody_of_not_keyOk (s := s.freshResult) hKey)
  · exact exec_of_body_error rfl (hillInvBody_of_singular (s := s.freshResult) hKey hInv)
  · obtain ⟨t, hExec, hDel⟩ := exec_of_body_ok_of_out_nil (i := .hillInv) rfl
      (hillInvBody_of_inverse (s := s.freshResult) hKey hInv) rfl
    exact ⟨t, hExec, hDel.succeeded, hDel.affAinv, hDel.pfMat, State.holdsInverse_of_hillInv hDel.hillInv⟩

/-! ### HILL.ENC and HILL.DEC -/

/-- Row `i` of a matrix of numbers times block `k` of a text, mod 26 (44_hill_matrix_inverse.md R196). -/
def hillProduct (f : Nat → Nat → Nat) (n : Nat) (pt : List Sym) (k i : Nat) : Nat :=
  (∑ j ∈ Finset.range n, f i j * (pt.getD (n * k + j) 0).val) % 26

/-- The five words of a vector of n numbers in a record, 0 beyond n (44_hill_matrix_inverse.md R200). -/
def paddedWords (n : Nat) (f : Nat → Nat) : List Word := (List.range 5).map fun i => if i < n then word (f i) else 0

theorem paddedWords_congr {n : Nat} {f g : Nat → Nat} (h : ∀ i, i < n → f i = g i) :
    paddedWords n f = paddedWords n g :=
  List.map_congr_left fun i _ => by
    by_cases hi : i < n
    · rw [if_pos hi, if_pos hi, h i hi]
    · rw [if_neg hi, if_neg hi]

theorem hillRecord_eq (k n : Nat) (v w : List Sym) (used : Word) : hillRecord k n v w used =
    record ([word k, word n] ++ paddedWords n (fun i => (v.getD i 0).val) ++
      paddedWords n (fun i => (w.getD i 0).val) ++ [used]) := rfl

section
variable {w : SymMatrix} {n : Nat} {f : Nat → Nat → Nat} (hw : ∀ i, i < n → ∀ j, j < n → (entry w i j).val = f i j)
include hw

theorem hillBlock_textBlock_getD_val (pt : List Sym) (k : Nat) {i : Nat} (hi : i < n) :
    ((hillBlock w n (textBlock n pt k)).getD i 0).val = hillProduct f n pt k i := by
  rw [hillBlock_getD_val w _ hi, hillProduct]
  congr 1
  refine Finset.sum_congr rfl fun j hj => ?_
  have hj := Finset.mem_range.mp hj
  rw [getD_textBlock pt k hj, hw i hi j hj]

theorem hillRecord_textBlock (pt : List Sym) (k : Nat) (used : Word) :
    hillRecord k n (textBlock n pt k) (hillBlock w n (textBlock n pt k)) used =
      record ([word k, word n] ++ paddedWords n (fun i => (pt.getD (n * k + i) 0).val) ++
        paddedWords n (hillProduct f n pt k) ++ [used]) := by
  rw [hillRecord_eq, paddedWords_congr fun i hi => congrArg Fin.val (getD_textBlock pt k hi),
    paddedWords_congr fun i hi => hillBlock_textBlock_getD_val hw pt k hi]

end

/-- What a state that delivers a Hill result holds, with the elements of the matrix used as `f` gives them. -/
theorem State.Delivers.hillEffect {s t : State} {used : Word} {w inv : SymMatrix} {f : Nat → Nat → Nat} {n : Nat}
    {pt : List Sym} (h : s.Delivers t (hillResult used w inv s)) (hn : n = s.hillN.toNat) (hPos : 0 < n)
    (hpt : pt = hillPad n s.cleanText) (hw : ∀ i, i < n → ∀ j, j < n → (entry w i j).val = f i j) :
    s.succeeded t pt.length (pt.length / n) ∧ t.affAinv = s.affAinv ∧ t.pfMat = s.pfMat ∧ t.holdsInverse n inv ∧
    ∀ k, k < pt.length / n →
      (∀ i, i < n → t.readLoc (.out (n * k + i)) = word (0x41 + hillProduct f n pt k i)) ∧
      t.recordIs k ([word k, word n] ++ paddedWords n (fun i => (pt.getD (n * k + i) 0).val) ++
        paddedWords n (hillProduct f n pt k) ++ [used]) := by
  subst hn hpt
  have hSucceeded := h.succeeded
  have hOut : (hillResult used w inv s).out.length = (hillPad s.hillN.toNat s.cleanText).length :=
    hillLetters_length hPos w _
  have hTrace : (hillResult used w inv s).trace.length =
      (hillPad s.hillN.toNat s.cleanText).length / s.hillN.toNat :=
    List.length_mapIdx.trans (hillBlocks_length _ _)
  rw [hOut, hTrace] at hSucceeded
  refine ⟨hSucceeded, h.affAinv, h.pfMat, State.holdsInverse_of_hillInv h.hillInv, fun k hk => ⟨fun i hi => ?_, ?_⟩⟩
  · rw [h.outIs.readLoc (hillLetters_getElem? w s.cleanText hk hi), hillBlock_textBlock_getD_val hw _ k hi]
  · refine h.recordIs ?_
    rw [← hillRecord_textBlock hw]
    simp [hillResult, hillBlocks_getElem? hk]

/-- Settles O42. -/
theorem hillEncResult : Obligations.HillEncResult := by
  refine ⟨decodeOfEncode .hillEnc rfl, fun s hs => ⟨exec_hill_of_not_keyOk rfl, exec_hill_of_singular rfl,
    exec_hill_of_empty rfl, ?_⟩⟩
  rintro inv n pt hKey hInv hText rfl hpt
  obtain ⟨t, hExec, hDel⟩ := exec_hill_of_accepted (i := .hillEnc) rfl nofun hs hKey hInv hText
  exact ⟨t, hExec, hDel.hillEffect rfl hKey.dim_pos hpt fun _ hi _ hj => hKey.entry_hillKey hi hj⟩

/-- Settles O43. -/
theorem hillDecResult : Obligations.HillDecResult := by
  refine ⟨decodeOfEncode .hillDec rfl, fun s hs => ⟨exec_hill_of_not_keyOk rfl, exec_hill_of_singular rfl,
    exec_hill_of_empty rfl, ?_⟩⟩
  rintro inv n pt hKey hInv hText rfl hpt
  obtain ⟨t, hExec, hDel⟩ := exec_hill_of_accepted (i := .hillDec) rfl nofun hs hKey hInv hText
  exact ⟨t, hExec, hDel.hillEffect rfl hKey.dim_pos hpt fun _ _ _ _ => rfl⟩

/-! ### The round trip -/

/-- A Hill operation that ends without an error has passed the key test and found the inverse. -/
theorem hillKeyOk_of_exec_hill {i : Instr} {used : Word} (hb : commandBody i = some (hillBody used)) {s t : State}
    (h : exec i s = .next t) (hErr : t.err = 0) : s.hillKeyOk ∧ ∃ inv, s.hillKeyInverse = some inv := by
  have hKey : s.hillKeyOk := by
    by_contra hKey
    cases (exec_hill_of_not_keyOk hb hKey).symm.trans h
    exact absurd hErr (errorWord_ne_zero .invalidKey)
  refine ⟨hKey, Option.ne_none_iff_exists'.mp fun hNone => ?_⟩
  cases (exec_hill_of_singular hb hKey hNone).symm.trans h
  exact absurd hErr (errorWord_ne_zero .singularMatrix)

/-- Settles O45: the copied letters fill their blocks, so they take no padding, and the inverse undoes the key block by
block. -/
theorem hillRoundTrip : Obligations.HillRoundTrip := by
  intro s t u hs hu hText hN hM h hErr hCopy
  obtain ⟨hKey, inv, hInv⟩ := hillKeyOk_of_exec_hill (i := .hillEnc) rfl h hErr
  obtain ⟨t', hExec, hDel⟩ := exec_hill_of_accepted (i := .hillEnc) rfl nofun hs hKey hInv (.inl hText)
  cases hExec.symm.trans h
  have hPos := hKey.dim_pos
  have hShort : (hillLetters s.hillKey s.hillN.toNat s.cleanText).length < 2 ^ 32 := by
    have hPad := hillPad_length_lt hPos s.cleanText
    have hDim := hKey.dim
    have hFit := hs.operandsFit.cleanText_le
    have hMax := traceMax_le hs.operandsFit.params
    unfold traceMax at hMax
    rw [hillLetters_length hPos]
    omega
  have hCopied : u.cleanText = hillLetters s.hillKey s.hillN.toNat s.cleanText :=
    State.cleanText_of_copied hDel.outIs hShort hCopy
  have hEntry : u.hillEntry = s.hillEntry := by funext r c; simp only [State.hillEntry, hM]
  have hKeyU : u.hillKeyOk := by rwa [State.hillKeyOk, hEntry, hN]
  have hInvU : u.hillKeyInverse = some inv := by
    rwa [State.hillKeyInverse, State.hillKey, hEntry, hN]
  have hTextU : u.cleanText ≠ [] := by
    rw [hCopied, ← List.length_pos_iff, hillLetters_length hPos, hillPad_length]
    exact Nat.add_pos_left (List.length_pos_iff.mpr hText) _
  obtain ⟨v, hExecU, hDelU⟩ := exec_hill_of_accepted (i := .hillDec) rfl nofun hu hKeyU hInvU (.inl hTextU)
  have hOut : v.outIs (hillLetters inv u.hillN.toNat u.cleanText) := hDelU.outIs
  rw [hCopied, hN, hillLetters_hillLetters hPos _ hInv] at hOut
  exact ⟨v, hExecU, hDelU.err, hOut⟩

end Sys2Proof.Machine
end

section
/-! PROOFS. The rotors of the Enigma: stepping with its double step, and the forward and backward transforms, which undo
each other in every permutation wiring (45_enigma_rotor_path.md R228 to R230, R235). -/

namespace Sys2Proof.Machine

/-! ### Stepping -/

theorem atNotch_iff (notch ring pos : Sym) :
    atNotch notch ring pos = true ↔ (pos.val : Int) = ((notch.val : Int) - ring.val) % 26 := by
  rw [atNotch, decide_eq_true_iff, eq_comm, mod26_eq_iff, eq_comm]

/-- With the ring at A the notch is where the catalog has it. -/
theorem atNotch_zero (notch pos : Sym) : atNotch notch 0 pos = decide (pos = notch) := by
  simp [atNotch, mod26_natCast]

theorem advance_val (pos : Sym) : (advance pos).val = (pos.val + 1) % 26 := by
  have := mod26_val (pos.val + 1)
  unfold advance
  omega

/-- The stepping reads no more of a configuration than the notches and rings of the middle and the right rotor. -/
theorem enigStep_congr {c d : EnigmaConfig} (hNotchM : c.notchM = d.notchM) (hNotchR : c.notchR = d.notchR)
    (hRingM : c.ringM = d.ringM) (hRingR : c.ringR = d.ringR) : enigStep c = enigStep d := by
  funext p
  simp only [enigStep, hNotchM, hNotchR, hRingM, hRingR]

/-- Settles O49, by the two notch tests on the old positions. -/
theorem steppingRule : Obligations.SteppingRule := by
  intro c p mid right hMid hRight
  rw [← atNotch_iff] at hMid hRight
  simp only [enigStep, hMid, hRight]
  refine ⟨fun h => ?_, fun h => if_neg h, fun h => ?_, fun hm hr => if_neg ?_, advance_val p.right⟩
  · rw [if_pos h, advance_val]
  · rw [if_pos (by simpa using h.symm), advance_val]
  · simp [hm, hr]

/-- The stepping of rotor II in the middle and rotor III on the right with rings at A: the notches are E = 4 and V = 21
(45_enigma_rotor_path.md R222 (d)). -/
theorem enigStep_of_notches_E_V {c : EnigmaConfig} (hNotchM : c.notchM = 4) (hNotchR : c.notchR = 21)
    (hRingM : c.ringM = 0) (hRingR : c.ringR = 0) (p : Positions) : enigStep c p =
      { left := if p.middle = 4 then advance p.left else p.left
        middle := if p.right = 21 ∨ p.middle = 4 then advance p.middle else p.middle
        right := advance p.right } := by
  simp only [enigStep, hNotchM, hNotchR, hRingM, hRingR, atNotch_zero, Bool.or_eq_true, decide_eq_true_iff]

/-- Settles O51: the right rotor at V takes the middle one to its notch E, from where it steps again. -/
theorem doubleStep : Obligations.DoubleStep := by
  rintro s ⟨-, -, hNotchII, hNotchIII⟩ hMiddle hRight hRings plug c rfl
  have hNotchM : (enigConfig s plug).notchM = 4 := by
    simp only [enigConfig, hMiddle]
    exact hNotchII
  have hNotchR : (enigConfig s plug).notchR = 21 := by
    simp only [enigConfig, hRight]
    exact hNotchIII
  have hRingM : (enigConfig s plug).ringM = 0 := by
    rw [enigConfig, hRings]
    rfl
  have hRingR : (enigConfig s plug).ringR = 0 := by
    rw [enigConfig, hRings]
    rfl
  simp only [enigStep_of_notches_E_V hNotchM hNotchR hRingM hRingR]
  decide

/-! ### Into a rotor's wiring and out of it -/

/-- The contact of the wiring at which the index `n` enters a rotor (45_enigma_rotor_path.md R229). -/
def rotorIn (pos ring n : Sym) : Sym := mod26 (n.val + pos.val - ring.val)

/-- The index at which the contact `j` of the wiring leaves a rotor (45_enigma_rotor_path.md R229). -/
def rotorOut (pos ring j : Sym) : Sym := mod26 (j.val - pos.val + ring.val)

theorem rotorIn_eq_iff (pos ring n j : Sym) :
    rotorIn pos ring n = j ↔ (j.val : Int) = ((n.val : Int) + pos.val - ring.val) % 26 := by
  rw [rotorIn, mod26_eq_iff, eq_comm]

theorem rotorOut_val (pos ring j : Sym) :
    ((rotorOut pos ring j).val : Int) = ((j.val : Int) - pos.val + ring.val) % 26 := mod26_val _

theorem rotorIn_rotorOut (pos ring j : Sym) : rotorIn pos ring (rotorOut pos ring j) = j := by
  have := rotorOut_val pos ring j
  rw [rotorIn_eq_iff]
  omega

theorem rotorOut_rotorIn (pos ring n : Sym) : rotorOut pos ring (rotorIn pos ring n) = n := by
  have := (rotorIn_eq_iff pos ring n _).mp rfl
  rw [rotorOut, mod26_eq_iff]
  omega

theorem enigFwd_eq (w : Wiring) (pos ring n : Sym) : enigFwd w pos ring n = rotorOut pos ring w[rotorIn pos ring n] :=
  rfl

/-! ### The transforms of a permutation wiring -/

section
variable {w : Wiring} (hw : wiringIsPermutation w)
include hw

/-- In a permutation the search for a symbol finds the one contact that is wired to it. -/
theorem idxOf_wiring (j : Sym) : w.toList.idxOf w[j] = j.val := by
  have h := hw.idxOf_getElem j.val (by simp)
  simpa using h

theorem wiring_surjective (n : Sym) : ∃ j : Sym, w[j] = n := by
  have hInjective : Function.Injective fun j : Sym => w[j] := fun i j h => by
    have hIdx := congrArg w.toList.idxOf h
    exact Fin.ext (by simpa only [idxOf_wiring hw] using hIdx)
  exact Finite.injective_iff_surjective.mp hInjective n

theorem enigBwd_of_wired {pos ring n j : Sym} (hj : w[j] = rotorIn pos ring n) :
    enigBwd w pos ring n = rotorOut pos ring j := by
  rw [rotorIn] at hj
  rw [enigBwd, ← hj, idxOf_wiring hw, rotorOut]

theorem enigBwd_enigFwd (pos ring n : Sym) : enigBwd w pos ring (enigFwd w pos ring n) = n := by
  rw [enigFwd_eq, enigBwd_of_wired hw (rotorIn_rotorOut pos ring _).symm, rotorOut_rotorIn]

theorem enigFwd_enigBwd (pos ring n : Sym) : enigFwd w pos ring (enigBwd w pos ring n) = n := by
  obtain ⟨j, hj⟩ := wiring_surjective hw (rotorIn pos ring n)
  simp only [enigBwd_of_wired hw hj, enigFwd_eq, rotorIn_rotorOut, hj, rotorOut_rotorIn]

end

/-- Settles O50. -/
theorem rotorTransforms : Obligations.RotorTransforms := by
  intro w pos ring n hw
  refine ⟨fun j hj => ?_, fun j hj => ?_, enigBwd_enigFwd hw pos ring n, enigFwd_enigBwd hw pos ring n⟩
  · obtain rfl := (rotorIn_eq_iff pos ring n j).mpr hj
    exact rotorOut_val pos ring _
  · rw [enigBwd_of_wired hw ((rotorIn_eq_iff pos ring n _).mpr hj).symm]
    exact rotorOut_val pos ring j

end Sys2Proof.Machine
end

section
/-! PROOFS. The plugboard: what its check admits, and the map of the pairs that pass it (45_enigma_rotor_path.md
R226). -/

namespace Sys2Proof.Machine

/-! ### The check of a list of pairs -/

/-- A pair that the loop admits: two different symbols, neither used before. -/
def PairFresh (used : List Nat) (p : Word × Word) : Prop :=
  p.1.toNat ≤ 25 ∧ p.2.toNat ≤ 25 ∧ p.1 ≠ p.2 ∧ p.1.toNat ∉ used ∧ p.2.toNat ∉ used

/-- Two pairs that share no letter. -/
def PairsApart (p q : Word × Word) : Prop := p.1 ≠ q.1 ∧ p.1 ≠ q.2 ∧ p.2 ≠ q.1 ∧ p.2 ≠ q.2

/-- The pairs that `enigPlug` admits after the letters `used`. -/
def PlugsAdmitted (used : List Nat) (pairs : List (Word × Word)) : Prop :=
  (∀ p ∈ pairs, PairFresh used p) ∧ pairs.Pairwise PairsApart

/-- The map with the two letters of a pair plugged to each other. -/
def plugPair (plug : Plugboard) (p : Word × Word) : Plugboard :=
  (plug.setIfInBounds p.1.toNat (mod26 p.2.toNat)).setIfInBounds p.2.toNat (mod26 p.1.toNat)

theorem pairFresh_cons_cons_iff (p q : Word × Word) (used : List Nat) :
    PairFresh (p.1.toNat :: p.2.toNat :: used) q ↔ PairFresh used q ∧ PairsApart p q := by
  simp only [PairFresh, PairsApart, List.mem_cons, BitVec.toNat_inj]
  grind

theorem plugsAdmitted_cons_iff (used : List Nat) (p : Word × Word) (pairs : List (Word × Word)) :
    PlugsAdmitted used (p :: pairs) ↔ PairFresh used p ∧ PlugsAdmitted (p.1.toNat :: p.2.toNat :: used) pairs := by
  simp only [PlugsAdmitted, List.forall_mem_cons, List.pairwise_cons, pairFresh_cons_cons_iff]
  grind

theorem plugLoop_cons_of_fresh {used : List Nat} {p : Word × Word} (h : PairFresh used p)
    (pairs : List (Word × Word)) (plug : Plugboard) :
    plugLoop (p :: pairs) used plug = plugLoop pairs (p.1.toNat :: p.2.toNat :: used) (plugPair plug p) := by
  obtain ⟨hA, hB, hNe, hUsedA, hUsedB⟩ := h
  rw [plugLoop, if_neg (by omega), if_neg hNe, if_neg (not_or.mpr ⟨hUsedA, hUsedB⟩), plugPair]

theorem plugLoop_cons_of_not_fresh {used : List Nat} {p : Word × Word} (h : ¬ PairFresh used p)
    (pairs : List (Word × Word)) (plug : Plugboard) :
    plugLoop (p :: pairs) used plug = .error .invalidPlugboard := by
  rw [plugLoop]
  split_ifs with hRange hSelf hUsed
  · rfl
  · rfl
  · rfl
  · exact absurd ⟨by omega, by omega, hSelf, not_or.mp hUsed⟩ h

theorem plugLoop_of_admitted {used : List Nat} {pairs : List (Word × Word)} (h : PlugsAdmitted used pairs)
    (plug : Plugboard) : plugLoop pairs used plug = .ok (pairs.foldl plugPair plug) := by
  induction pairs generalizing used plug with
  | nil => rfl
  | cons p pairs ih =>
    obtain ⟨hFresh, hRest⟩ := (plugsAdmitted_cons_iff used p pairs).mp h
    rw [plugLoop_cons_of_fresh hFresh, ih hRest, List.foldl_cons]

theorem plugLoop_of_not_admitted {used : List Nat} {pairs : List (Word × Word)} (h : ¬ PlugsAdmitted used pairs)
    (plug : Plugboard) : plugLoop pairs used plug = .error .invalidPlugboard := by
  induction pairs generalizing used plug with
  | nil => exact absurd ⟨nofun, List.Pairwise.nil⟩ h
  | cons p pairs ih =>
    by_cases hFresh : PairFresh used p
    · rw [plugLoop_cons_of_fresh hFresh]
      exact ih (fun hRest => h ((plugsAdmitted_cons_iff used p pairs).mpr ⟨hFresh, hRest⟩)) _
    · exact plugLoop_cons_of_not_fresh hFresh pairs plug

/-! ### The map of the admitted pairs -/

/-- A pair as two symbols. -/
def IsPair (p : Word × Word) (a b : Sym) : Prop := p.1.toNat = a.val ∧ p.2.toNat = b.val

/-- A symbol that is no letter of a pair. -/
def NotIn (x : Sym) (p : Word × Word) : Prop := p.1.toNat ≠ x.val ∧ p.2.toNat ≠ x.val

theorem plugPair_of_notIn {x : Sym} {p : Word × Word} (h : NotIn x p) (plug : Plugboard) :
    (plugPair plug p)[x] = plug[x] := by
  obtain ⟨hA, hB⟩ := h
  simp [plugPair, hA, hB]

theorem plugPair_swaps {p : Word × Word} {a b : Sym} (h : IsPair p a b) (plug : Plugboard) :
    (plugPair plug p)[a] = b ∧ (plugPair plug p)[b] = a := by
  obtain ⟨hA, hB⟩ := h
  obtain rfl | hNe := eq_or_ne b a
  · simp [plugPair, hA, hB, mod26_natCast]
  · simp [plugPair, hA, hB, Fin.val_ne_of_ne hNe, mod26_natCast]

theorem foldl_plugPair_of_notIn {x : Sym} {pairs : List (Word × Word)} (h : ∀ p ∈ pairs, NotIn x p)
    (plug : Plugboard) : (pairs.foldl plugPair plug)[x] = plug[x] := by
  induction pairs generalizing plug with
  | nil => rfl
  | cons p pairs ih =>
    obtain ⟨hHead, hRest⟩ := List.forall_mem_cons.mp h
    rw [List.foldl_cons, ih hRest, plugPair_of_notIn hHead]

/-- A pair apart from another has none of its symbols. -/
theorem PairsApart.notIn {p q : Word × Word} (h : PairsApart p q) {a b : Sym} (hp : IsPair p a b) :
    NotIn a q ∧ NotIn b q := by
  obtain ⟨hA, hB⟩ := hp
  simp only [PairsApart, ne_eq, ← BitVec.toNat_inj] at h
  simp only [NotIn]
  omega

/-- The later pairs leave the letters of an earlier one as they are. -/
theorem foldl_plugPair_swaps {pairs : List (Word × Word)} (h : pairs.Pairwise PairsApart) {p : Word × Word}
    (hp : p ∈ pairs) {a b : Sym} (hab : IsPair p a b) (plug : Plugboard) :
    (pairs.foldl plugPair plug)[a] = b ∧ (pairs.foldl plugPair plug)[b] = a := by
  induction pairs generalizing plug with
  | nil => simp at hp
  | cons q pairs ih =>
    obtain ⟨hHead, hRest⟩ := List.pairwise_cons.mp h
    rw [List.foldl_cons]
    obtain rfl | hp := List.mem_cons.mp hp
    · rw [foldl_plugPair_of_notIn fun r hr => ((hHead r hr).notIn hab).1,
        foldl_plugPair_of_notIn fun r hr => ((hHead r hr).notIn hab).2]
      exact plugPair_swaps hab plug
    · exact ih hRest hp _

/-- The map of pairs without a common letter is an involution: it swaps the letters of a pair and fixes the rest. -/
theorem foldl_plugPair_involutive {pairs : List (Word × Word)} (h : PlugsAdmitted [] pairs) (x : Sym) :
    (pairs.foldl plugPair noPlugs)[(pairs.foldl plugPair noPlugs)[x]] = x := by
  obtain ⟨hFresh, hApart⟩ := h
  by_cases hx : ∀ p ∈ pairs, NotIn x p
  · have hFixed : (pairs.foldl plugPair noPlugs)[x] = x := by
      rw [foldl_plugPair_of_notIn hx]
      simp [noPlugs]
    simp only [hFixed]
  · push Not at hx
    obtain ⟨p, hp, hIn⟩ := hx
    obtain ⟨hA, hB, -⟩ := hFresh p hp
    have hPair : IsPair p ⟨p.1.toNat, by omega⟩ ⟨p.2.toNat, by omega⟩ := ⟨rfl, rfl⟩
    obtain ⟨hAB, hBA⟩ := foldl_plugPair_swaps hApart hp hPair noPlugs
    have hLetter : x = ⟨p.1.toNat, by omega⟩ ∨ x = ⟨p.2.toNat, by omega⟩ := by
      simp only [NotIn, Fin.ext_iff] at hIn ⊢
      omega
    obtain rfl | rfl := hLetter
    · simp only [hAB, hBA]
    · simp only [hAB, hBA]

/-! ### The registers -/

theorem State.mem_plugPairs_iff (s : State) (p : Word × Word) :
    p ∈ s.plugPairs ↔ ∃ k : Fin 13, k.val < s.engPlugCnt.toNat ∧ p = (s.engPlugA[k], s.engPlugB[k]) := by
  simp only [State.plugPairs, List.mem_iff_getElem, List.getElem_take, List.getElem_zip, List.length_take,
    List.length_zip, Vector.length_toList, Vector.getElem_toList, Nat.min_self]
  constructor
  · rintro ⟨k, hk, rfl⟩
    exact ⟨⟨k, by omega⟩, by simp; omega, rfl⟩
  · rintro ⟨k, hk, rfl⟩
    exact ⟨k, by omega, rfl⟩

theorem State.pairwise_plugPairs_iff (s : State) :
    s.plugPairs.Pairwise PairsApart ↔ ∀ j k : Fin 13, j < k → k.val < s.engPlugCnt.toNat →
      PairsApart (s.engPlugA[j], s.engPlugB[j]) (s.engPlugA[k], s.engPlugB[k]) := by
  simp only [State.plugPairs, List.pairwise_iff_getElem, List.getElem_take, List.getElem_zip, List.length_take,
    List.length_zip, Vector.length_toList, Vector.getElem_toList, Nat.min_self]
  constructor
  · exact fun h j k hjk hk => h j k (by omega) (by omega) hjk
  · exact fun h j k hj hk hjk => h ⟨j, by omega⟩ ⟨k, by omega⟩ hjk (by simp; omega)

theorem State.plugsOk_iff (s : State) : s.plugsOk ↔ s.engPlugCnt.toNat ≤ 13 ∧ PlugsAdmitted [] s.plugPairs := by
  simp only [State.plugsOk, PlugsAdmitted, s.pairwise_plugPairs_iff]
  refine and_congr_right fun _ => ⟨fun h => ⟨fun p hp => ?_, fun j k hjk hk => ?_⟩, fun h k hk => ?_⟩
  · obtain ⟨k, hk, rfl⟩ := (s.mem_plugPairs_iff p).mp hp
    obtain ⟨hA, hB, hNe, -⟩ := h k hk
    exact ⟨hA, hB, hNe, by simp, by simp⟩
  · obtain ⟨-, -, -, hApart⟩ := h k hk
    exact hApart j (by omega) (by omega)
  · obtain ⟨hFresh, hApart⟩ := h
    obtain ⟨hA, hB, hNe, -⟩ := hFresh _ ((s.mem_plugPairs_iff _).mpr ⟨k, hk, rfl⟩)
    refine ⟨hA, hB, hNe, fun j hj hjk => ?_⟩
    obtain hLt | hGt := lt_or_gt_of_ne hjk
    · exact hApart j k hLt hk
    · obtain ⟨hAA, hAB, hBA, hBB⟩ := hApart k j hGt hj
      exact ⟨hAA.symm, hBA.symm, hAB.symm, hBB.symm⟩

theorem enigPlug_of_plugsOk {s : State} (h : s.plugsOk) : enigPlug s = .ok (s.plugPairs.foldl plugPair noPlugs) := by
  obtain ⟨hCnt, hAdmitted⟩ := s.plugsOk_iff.mp h
  rw [enigPlug, if_neg (by omega), plugLoop_of_admitted hAdmitted]

theorem enigPlug_of_not_plugsOk {s : State} (h : ¬ s.plugsOk) : enigPlug s = .error .invalidPlugboard := by
  rw [enigPlug]
  split_ifs with hCnt
  · rfl
  · exact plugLoop_of_not_admitted (fun hAdmitted => h (s.plugsOk_iff.mpr ⟨by omega, hAdmitted⟩)) _

/-- Every map that the check gives is an involution. -/
theorem enigPlug_involutive {s : State} {plug : Plugboard} (h : enigPlug s = .ok plug) (x : Sym) :
    plug[plug[x]] = x := by
  by_cases hOk : s.plugsOk
  · cases (enigPlug_of_plugsOk hOk).symm.trans h
    exact foldl_plugPair_involutive (s.plugsOk_iff.mp hOk).2 x
  · cases (enigPlug_of_not_plugsOk hOk).symm.trans h

/-- Settles O47, by the pairs that the loop admits and the map they give one after another. -/
theorem plugboardRule : Obligations.PlugboardRule := by
  refine fun s => ⟨enigPlug_of_not_plugsOk, fun h => ⟨_, enigPlug_of_plugsOk h, fun k a b hk hA hB => ?_,
    fun x hx => ?_, enigPlug_involutive (enigPlug_of_plugsOk h)⟩⟩
  · obtain ⟨-, -, hApart⟩ := s.plugsOk_iff.mp h
    exact foldl_plugPair_swaps hApart ((s.mem_plugPairs_iff _).mpr ⟨k, hk, rfl⟩) ⟨hA, hB⟩ noPlugs
  · rw [foldl_plugPair_of_notIn fun p hp => ?_]
    · simp [noPlugs]
    · obtain ⟨k, hk, rfl⟩ := (s.mem_plugPairs_iff p).mp hp
      exact hx k hk

end Sys2Proof.Machine
end

section
/-! PROOFS. The Enigma: the signal path and the letters of a text, the errors of ENIG.RUN in their order, its result,
its self-reciprocity, and that it enciphers no letter to itself (45_enigma_rotor_path.md R224, R225, R231 to R236). -/

namespace Sys2Proof.Machine

/-! ### The signal path -/

/-- What a validated configuration takes from a catalog that meets 45_enigma_rotor_path.md R222 and from the check of
the plugboard. -/
structure EnigmaConfig.Sound (c : EnigmaConfig) : Prop where
  wiringL : wiringIsPermutation c.wiringL
  wiringM : wiringIsPermutation c.wiringM
  wiringR : wiringIsPermutation c.wiringR
  reflector : wiringIsReflector c.reflector
  plug : ∀ x : Sym, c.plug[c.plug[x]] = x

/-- The way from the plugboard to the reflector (45_enigma_rotor_path.md R231). -/
def rotorsForward (c : EnigmaConfig) (p : Positions) (n : Sym) : Sym :=
  enigFwd c.wiringL p.left c.ringL (enigFwd c.wiringM p.middle c.ringM (enigFwd c.wiringR p.right c.ringR n))

/-- The way back from the reflector to the plugboard (45_enigma_rotor_path.md R231). -/
def rotorsBackward (c : EnigmaConfig) (p : Positions) (n : Sym) : Sym :=
  enigBwd c.wiringR p.right c.ringR (enigBwd c.wiringM p.middle c.ringM (enigBwd c.wiringL p.left c.ringL n))

theorem enigPath_eq (c : EnigmaConfig) (p : Positions) (x : Sym) :
    enigPath c p x = c.plug[rotorsBackward c p c.reflector[rotorsForward c p c.plug[x]]] := rfl

section
variable {c : EnigmaConfig} (hc : c.Sound)
include hc

theorem rotorsForward_rotorsBackward (p : Positions) (n : Sym) : rotorsForward c p (rotorsBackward c p n) = n := by
  rw [rotorsForward, rotorsBackward, enigFwd_enigBwd hc.wiringR, enigFwd_enigBwd hc.wiringM,
    enigFwd_enigBwd hc.wiringL]

theorem rotorsBackward_rotorsForward (p : Positions) (n : Sym) : rotorsBackward c p (rotorsForward c p n) = n := by
  rw [rotorsForward, rotorsBackward, enigBwd_enigFwd hc.wiringL, enigBwd_enigFwd hc.wiringM,
    enigBwd_enigFwd hc.wiringR]

/-- The path is the reflector, an involution, taken through the plugboard and the rotors and back
(45_enigma_rotor_path.md R234). -/
theorem enigPath_enigPath (p : Positions) (x : Sym) : enigPath c p (enigPath c p x) = x := by
  simp only [enigPath_eq, hc.plug, rotorsForward_rotorsBackward hc, (hc.reflector _).1,
    rotorsBackward_rotorsForward hc]

/-- A letter that came back as itself would leave the reflector at the contact where it entered
(45_enigma_rotor_path.md R236). -/
theorem enigPath_ne_self (p : Positions) (x : Sym) : enigPath c p x ≠ x := by
  intro h
  have hBack : rotorsBackward c p c.reflector[rotorsForward c p c.plug[x]] = c.plug[x] := calc
    _ = c.plug[enigPath c p x] := by simp only [enigPath_eq, hc.plug]
    _ = c.plug[x] := by simp only [h]
  refine (hc.reflector (rotorsForward c p c.plug[x])).2 ?_
  rw [← rotorsForward_rotorsBackward hc p c.reflector[rotorsForward c p c.plug[x]], hBack]

end

/-! ### The letters of a text -/

/-- Letter `i` goes through the path at the positions stepped to `i + 1` times (45_enigma_rotor_path.md R232). -/
theorem enigLetters_getElem? (c : EnigmaConfig) (p : Positions) {text : List Sym} {i : Nat} {x : Sym}
    (h : text[i]? = some x) : (enigLetters c p text)[i]? =
      some { input := x, positions := (enigStep c)^[i + 1] p, output := enigPath c ((enigStep c)^[i + 1] p) x } := by
  induction text generalizing p i with
  | nil => simp at h
  | cons y text ih =>
    cases i with
    | zero =>
      obtain rfl : y = x := by simpa using h
      rfl
    | succ i => exact ih (enigStep c p) h

/-- The letters that a configuration makes of a text from given positions on. -/
def enigOut (c : EnigmaConfig) (p : Positions) (text : List Sym) : List Sym :=
  (enigLetters c p text).map EnigmaStep.output

@[simp] theorem enigOut_length (c : EnigmaConfig) (p : Positions) (text : List Sym) :
    (enigOut c p text).length = text.length := by simp [enigOut]

theorem enigOut_cons (c : EnigmaConfig) (p : Positions) (x : Sym) (text : List Sym) :
    enigOut c p (x :: text) = enigPath c (enigStep c p) x :: enigOut c (enigStep c p) text := rfl

/-- The stepping does not depend on the letters, so the second run meets each letter at the positions of the first. -/
theorem enigOut_enigOut {c : EnigmaConfig} (hc : c.Sound) (p : Positions) (text : List Sym) :
    enigOut c p (enigOut c p text) = text := by
  induction text generalizing p with
  | nil => rfl
  | cons x text ih => rw [enigOut_cons, enigOut_cons, enigPath_enigPath hc, ih]

/-! ### The check of the scalars -/

theorem any_toList_iff {n : Nat} (v : Vector Word n) (bad : Word → Prop) [DecidablePred bad] :
    v.toList.any (fun w => decide (bad w)) = true ↔ ∃ i : Fin n, bad v[i] := by
  simp [Vector.any_toList, Vector.any_eq_true, Fin.exists_iff]

theorem any_above_25_iff {n : Nat} (v : Vector Word n) :
    v.toList.any (fun w => decide (25 < w.toNat)) = true ↔ ¬ ∀ i : Fin n, v[i].toNat ≤ 25 := by
  rw [any_toList_iff]
  simp

section
variable {s : State}

theorem enigScalarError_of_not_selectionOk (h : ¬ s.selectionOk) : enigScalarError s = some .invalidSelection := by
  by_cases hRotor : ∃ i : Fin 3, ¬ (1 ≤ s.engRotor[i].toNat ∧ s.engRotor[i].toNat ≤ 5)
  · rw [enigScalarError, if_pos ((any_toList_iff _ _).mpr hRotor)]
  · have hRefl : ¬ (1 ≤ s.engRefl.toNat ∧ s.engRefl.toNat ≤ 2) := fun hRefl => h ⟨not_exists_not.mp hRotor, hRefl⟩
    rw [enigScalarError, if_neg (mt (any_toList_iff _ _).mp hRotor), if_pos hRefl]

/-- Past the identifiers, the positions and then the rings are tested (45_enigma_rotor_path.md R225). -/
theorem enigScalarError_of_selectionOk (h : s.selectionOk) : enigScalarError s =
    if s.engPos.toList.any (fun p => 25 < p.toNat) then some .invalidPosition
    else if s.engRing.toList.any (fun g => 25 < g.toNat) then some .invalidRing else none := by
  obtain ⟨hRotor, hRefl⟩ := h
  rw [enigScalarError, if_neg (mt (any_toList_iff _ _).mp (not_exists_not.mpr hRotor)), if_neg (not_not.mpr hRefl)]

theorem enigScalarError_of_not_positionsOk (h : s.selectionOk) (hPos : ¬ s.positionsOk) :
    enigScalarError s = some .invalidPosition := by
  rw [enigScalarError_of_selectionOk h, if_pos ((any_above_25_iff _).mpr hPos)]

theorem enigScalarError_of_not_ringsOk (h : s.selectionOk) (hPos : s.positionsOk) (hRing : ¬ s.ringsOk) :
    enigScalarError s = some .invalidRing := by
  rw [enigScalarError_of_selectionOk h, if_neg fun hAny => (any_above_25_iff _).mp hAny hPos,
    if_pos ((any_above_25_iff _).mpr hRing)]

theorem enigScalarError_eq_none (h : s.selectionOk) (hPos : s.positionsOk) (hRing : s.ringsOk) :
    enigScalarError s = none := by
  rw [enigScalarError_of_selectionOk h, if_neg fun hAny => (any_above_25_iff _).mp hAny hPos,
    if_neg fun hAny => (any_above_25_iff _).mp hAny hRing]

/-! ### What the body gives -/

/-- What ENIG.RUN gives for a valid configuration (45_enigma_rotor_path.md R232, R233). -/
def enigResultOf (plug : Plugboard) (s : State) : Result where
  out := enigOut (enigConfig s plug) (enigConfig s plug).start s.cleanText
  trace := (enigLetters (enigConfig s plug) (enigConfig s plug).start s.cleanText).mapIdx (enigRecord s)
  affAinv := none
  hillInv := none
  pfMat := none

@[simp] theorem enigResultOf_out_length (plug : Plugboard) (s : State) :
    (enigResultOf plug s).out.length = s.cleanText.length := enigOut_length _ _ _

@[simp] theorem enigResultOf_trace_length (plug : Plugboard) (s : State) :
    (enigResultOf plug s).trace.length = s.cleanText.length := by simp [enigResultOf]

/-- The positions at which letter `i` of the text is enciphered (45_enigma_rotor_path.md R232). -/
def enigPositions (c : EnigmaConfig) (i : Nat) : Positions := (enigStep c)^[i + 1] c.start

/-- Letter and record `i` of the result (45_enigma_rotor_path.md R232, R233). -/
theorem enigResultOf_getElem? (plug : Plugboard) {i : Nat} {x : Sym} (hx : s.cleanText[i]? = some x) :
    (enigResultOf plug s).out[i]? =
      some (enigPath (enigConfig s plug) (enigPositions (enigConfig s plug) i) x) ∧
    (enigResultOf plug s).trace[i]? = some (enigRecord s i
      { input := x
        positions := enigPositions (enigConfig s plug) i
        output := enigPath (enigConfig s plug) (enigPositions (enigConfig s plug) i) x }) := by
  have hStep := enigLetters_getElem? (enigConfig s plug) (enigConfig s plug).start hx
  simp [enigResultOf, enigOut, hStep, enigPositions]

theorem enigBody_of_scalarError {e : ErrorCode} (h : enigScalarError s = some e) : enigBody s = .error e := by
  simp only [enigBody, h]

theorem enigBody_of_plugError {e : ErrorCode} (h : enigScalarError s = none) (hPlug : enigPlug s = .error e) :
    enigBody s = .error e := by
  simp only [enigBody, h, hPlug]

theorem enigBody_of_valid {plug : Plugboard} (h : enigScalarError s = none) (hPlug : enigPlug s = .ok plug) :
    enigBody s = if s.emptyTextRaises s.cleanText then .error .emptyInput else .ok (enigResultOf plug s) := by
  simp only [enigBody, h, hPlug]
  rfl

end

/-- Settles O48, by the tests of the scalars in their order, then the plugboard, then the text. -/
theorem enigErrorOrder : Obligations.EnigErrorOrder := by
  refine fun s => ⟨fun h => ?_, fun h hPos => ?_, fun h hPos hRing => ?_, fun h hPos hRing hPlug => ?_,
    fun h hPos hRing hPlug hText hParam => ?_⟩
  · exact exec_of_body_error rfl (enigBody_of_scalarError (enigScalarError_of_not_selectionOk (s := s) h))
  · exact exec_of_body_error rfl (enigBody_of_scalarError (enigScalarError_of_not_positionsOk (s := s) h hPos))
  · exact exec_of_body_error rfl (enigBody_of_scalarError (enigScalarError_of_not_ringsOk (s := s) h hPos hRing))
  · exact exec_of_body_error rfl (enigBody_of_plugError (s := s.freshResult)
      (enigScalarError_eq_none (s := s) h hPos hRing) (enigPlug_of_not_plugsOk (s := s) hPlug))
  · exact exec_of_text_test_of_empty rfl (enigBody_of_valid (s := s.freshResult)
      (enigScalarError_eq_none (s := s) h hPos hRing) (enigPlug_of_plugsOk (s := s) hPlug)) hText hParam

/-! ### ENIG.RUN -/

/-- ENIG.RUN on a valid configuration and an accepted text delivers its result. -/
theorem exec_enigRun_of_valid {s : State} {plug : Plugboard} (hs : s.Inv) (h : enigScalarError s = none)
    (hPlug : enigPlug s = .ok plug) (hText : s.cleanText ≠ [] ∨ s.params.emptyTextIsError = false) :
    ∃ t, exec .enigRun s = .next t ∧ s.Delivers t (enigResultOf plug s) :=
  exec_of_text_test_of_accepted rfl nofun hs (enigBody_of_valid (s := s.freshResult) h hPlug) hText

theorem exec_ne_aborted_of_err {i : Instr} {s t : State} (h : exec i s = .next t) (hErr : t.err = 0) (e : ErrorCode) :
    exec i s ≠ .next (s.aborted (errorWord e)) := fun hAborted => by
  cases hAborted.symm.trans h
  exact errorWord_ne_zero e hErr

/-- ENIG.RUN that ends without an error has passed every check. -/
theorem valid_of_exec_enigRun {s t : State} (hs : s.Inv) (h : exec .enigRun s = .next t) (hErr : t.err = 0) :
    ∃ plug, enigScalarError s = none ∧ enigPlug s = .ok plug ∧
      (s.cleanText ≠ [] ∨ s.params.emptyTextIsError = false) ∧ s.Delivers t (enigResultOf plug s) := by
  have hNotAborted := exec_ne_aborted_of_err h hErr
  have hScalar : enigScalarError s = none := Option.eq_none_iff_forall_ne_some.mpr fun e he =>
    hNotAborted e (exec_of_body_error rfl (enigBody_of_scalarError (s := s.freshResult) he))
  cases hPlug : enigPlug s with
  | error e =>
    exact absurd (exec_of_body_error rfl (enigBody_of_plugError (s := s.freshResult) hScalar hPlug)) (hNotAborted e)
  | ok plug =>
    have hText : s.cleanText ≠ [] ∨ s.params.emptyTextIsError = false := by
      by_contra hEmpty
      obtain ⟨hNil, hParam⟩ := not_or.mp hEmpty
      exact hNotAborted .emptyInput (exec_of_text_test_of_empty rfl
        (enigBody_of_valid (s := s.freshResult) hScalar hPlug) (not_not.mp hNil) (Bool.eq_true_of_not_eq_false hParam))
    obtain ⟨t', hExec, hDel⟩ := exec_enigRun_of_valid hs hScalar hPlug hText
    cases hExec.symm.trans h
    exact ⟨plug, hScalar, rfl, hText, hDel⟩

theorem chr_injective : Function.Injective chr := fun x y h => by
  have hSym := congrArg symOf h
  rwa [symOf_chr, symOf_chr, Option.some_inj] at hSym

theorem enigConfig_sound {s : State} (h : catalogWf s.params.catalog) {plug : Plugboard}
    (hPlug : enigPlug s = .ok plug) : (enigConfig s plug).Sound := by
  obtain ⟨hRotors, hReflectors, -⟩ := h
  exact {
    wiringL := hRotors _
    wiringM := hRotors _
    wiringR := hRotors _
    reflector := hReflectors _
    plug := enigPlug_involutive hPlug }

theorem State.Inv.catalogWf {s : State} (h : s.Inv) : catalogWf s.params.catalog := by
  obtain ⟨-, -, -, -, hCatalog⟩ := h.operandsFit.params
  exact hCatalog

/-- Settles O54, letter by letter from the reflector's lack of fixed points. -/
theorem enigNoSelfEncipherment : Obligations.EnigNoSelfEncipherment := by
  intro s t hs h hErr i x hx hSelf
  obtain ⟨plug, -, hPlug, -, hDel⟩ := valid_of_exec_enigRun hs h hErr
  obtain ⟨hLetter, -⟩ := enigResultOf_getElem? plug hx
  have hOut := hDel.outIs.readLoc hLetter
  exact enigPath_ne_self (enigConfig_sound hs.catalogWf hPlug) _ x (chr_injective (hOut.symm.trans hSelf))

/-- Settles O53: the second run has the configuration of the first, and so undoes it letter by letter. -/
theorem enigSelfReciprocal : Obligations.EnigSelfReciprocal := by
  intro s t u hs hu h hErr hParams hRotor hRefl hPos hRing hCnt hPlugA hPlugB hCopy
  obtain ⟨plug, hScalar, hPlug, hText, hDel⟩ := valid_of_exec_enigRun hs h hErr
  have hCopied : u.cleanText = enigOut (enigConfig s plug) (enigConfig s plug).start s.cleanText := by
    refine State.cleanText_of_copied (t := t) hDel.outIs ?_ hCopy
    rw [enigOut_length]
    exact s.cleanText_length_le.trans_lt s.textLen.isLt
  have hScalarU : enigScalarError u = none := by
    rwa [enigScalarError, hRotor, hRefl, hPos, hRing]
  have hPlugU : enigPlug u = .ok plug := by
    rwa [enigPlug, State.plugPairs, hCnt, hPlugA, hPlugB]
  have hConfigU : enigConfig u plug = enigConfig s plug := by
    simp only [enigConfig, hParams, hRotor, hRefl, hPos, hRing]
  have hTextU : u.cleanText ≠ [] ∨ u.params.emptyTextIsError = false := by
    rwa [hParams, hCopied, ← List.length_pos_iff, enigOut_length, List.length_pos_iff]
  obtain ⟨v, hExecU, hDelU⟩ := exec_enigRun_of_valid hu hScalarU hPlugU hTextU
  have hOut : v.outIs (enigOut (enigConfig u plug) (enigConfig u plug).start u.cleanText) := hDelU.outIs
  rw [hConfigU, hCopied, enigOut_enigOut (enigConfig_sound hs.catalogWf hPlug)] at hOut
  exact ⟨v, hExecU, hDelU.err, hOut⟩

/-! ### The result in terms of the registers -/

theorem rotorIndex_word (l : Fin 5) : rotorIndex (word (l.val + 1)) = l := by revert l; decide

theorem reflIndex_word (u : Fin 2) : reflIndex (word (u.val + 1)) = u := by revert u; decide

theorem mod26_word (x : Sym) : mod26 ((word x.val).toNat : Int) = x := by
  rw [word_sym_toNat, mod26_natCast]

/-- The ENG_ registers hold the identifiers of the rotors `l`, `m`, `r` and the reflector `u`, the positions `p` and the
rings `gL`, `gM`, `gR`. -/
structure State.EnigmaSettings (s : State) (l m r : Fin 5) (u : Fin 2) (p : Positions) (gL gM gR : Sym) : Prop where
  rotor : s.engRotor = #v[word (l.val + 1), word (m.val + 1), word (r.val + 1)]
  refl : s.engRefl = word (u.val + 1)
  pos : s.engPos = #v[word p.left.val, word p.middle.val, word p.right.val]
  ring : s.engRing = #v[word gL.val, word gM.val, word gR.val]

section
variable {s : State} {l m r : Fin 5} {u : Fin 2} {p : Positions} {gL gM gR : Sym}
  (h : s.EnigmaSettings l m r u p gL gM gR)
include h

theorem State.EnigmaSettings.enigScalarError_eq_none : enigScalarError s = none := by
  refine Machine.enigScalarError_eq_none ⟨?_, ?_⟩ ?_ ?_
  · simp [h.rotor, Fin.forall_fin_succ]
    omega
  · simp [h.refl]
    omega
  · simp [State.positionsOk, h.pos, Fin.forall_fin_succ]
    omega
  · simp [State.ringsOk, h.ring, Fin.forall_fin_succ]
    omega

theorem State.EnigmaSettings.enigConfig_eq (plug : Plugboard) : enigConfig s plug =
    { wiringL := s.params.catalog.rotorWiring[l], wiringM := s.params.catalog.rotorWiring[m]
      wiringR := s.params.catalog.rotorWiring[r], notchM := s.params.catalog.rotorNotch[m]
      notchR := s.params.catalog.rotorNotch[r], ringL := gL, ringM := gM, ringR := gR
      reflector := s.params.catalog.reflWiring[u], plug := plug, start := p } := by
  simp [enigConfig, h.rotor, h.refl, h.pos, h.ring, rotorIndex_word, reflIndex_word, mod26_word, -BitVec.toNat_ofNat]

theorem State.EnigmaSettings.enigPath_eq (plug : Plugboard) (q : Positions) (x : Sym) :
    enigPath (enigConfig s plug) q x = signalPath plug s.params.catalog.rotorWiring[l] s.params.catalog.rotorWiring[m]
      s.params.catalog.rotorWiring[r] s.params.catalog.reflWiring[u] gL gM gR q x := by
  rw [h.enigConfig_eq]
  rfl

theorem State.EnigmaSettings.enigRecord_eq (i : Nat) (x y : Sym) (q : Positions) :
    enigRecord s i { input := x, positions := q, output := y } =
      record [word i, word x.val, word q.left.val, word q.middle.val, word q.right.val, word gL.val, word gM.val,
        word gR.val, word (u.val + 1), word y.val, word (l.val + 1), word (m.val + 1), word (r.val + 1)] := by
  simp [enigRecord, h.rotor, h.refl, h.ring]

end

/-- Settles O52: the positions are the iterates of the stepping, which reads no more than the two notches and rings. -/
theorem enigRunResult : Obligations.EnigRunResult := by
  refine ⟨decodeOfEncode .enigRun rfl, ?_⟩
  intro s plug l m r u pL pM pR gL gM gR c hs hRotor hRefl hPos hRing hPlug hText hNotchM hNotchR hRingM hRingR
  have hSet : s.EnigmaSettings l m r u ⟨pL, pM, pR⟩ gL gM gR := ⟨hRotor, hRefl, hPos, hRing⟩
  obtain ⟨t, hExec, hDel⟩ := exec_enigRun_of_valid hs hSet.enigScalarError_eq_none hPlug hText
  have hStep : enigStep (enigConfig s plug) = enigStep c := by
    rw [hSet.enigConfig_eq]
    exact (enigStep_congr hNotchM hNotchR hRingM hRingR).symm
  have hPositions (i : Nat) : enigPositions (enigConfig s plug) i = (enigStep c)^[i + 1] ⟨pL, pM, pR⟩ := by
    rw [enigPositions, hStep, hSet.enigConfig_eq]
  refine ⟨t, fun i => (enigStep c)^[i] ⟨pL, pM, pR⟩, hExec, by simpa using hDel.succeeded,
    ⟨hDel.affAinv, hDel.hillInv, hDel.pfMat⟩, rfl, fun i _ => Function.iterate_succ_apply' _ _ _, ?_⟩
  rintro i x _ hx rfl
  obtain ⟨hOut, hTrace⟩ := enigResultOf_getElem? plug hx
  rw [hSet.enigPath_eq, hPositions] at hOut
  rw [hSet.enigRecord_eq, hSet.enigPath_eq, hPositions] at hTrace
  exact ⟨hDel.outIs.readLoc hOut, hDel.recordIs hTrace⟩

end Sys2Proof.Machine
end

section
/-! PROOFS. The control operations: the step on a write to CMD, for a legal and for an illegal word, and NOP and CLR
(46_control_ops.md R260 to R263). -/

namespace Sys2Proof.Machine

/-! ### The step on a write to CMD -/

section
variable {s : State} {w : Word} {rest : List PortEvent} (h : s.pending = .write cmdAddr w :: rest)
include h

theorem step_of_pending_write_cmd : step s = runCommand w { s with pending := rest } := by
  rw [step_of_pending h, portEvent_write_cmd]

theorem step_of_pending_command {i : Instr} (hOk : decode w = .ok i) :
    step s = exec i (({ s with pending := rest } : State).storeCmd w) := by
  rw [step_of_pending_write_cmd h, runCommand_of_ok hOk]

theorem step_of_pending_nop (hOk : decode w = .ok .nop) :
    step s = .next (({ s with pending := rest } : State).storeCmd w) := by
  rw [step_of_pending_command h hOk, exec_nop]

end

/-- Settles O5: the write reaches `runCommand`, which stores the word and runs what it decodes to. -/
theorem stepRunsCommand : Obligations.StepRunsCommand :=
  fun _ _ _ _ h hOk => step_of_pending_command h hOk

/-- Settles O6: the step is the illegal write itself, which acts on the state without that event. -/
theorem illegalCommandEffect : Obligations.IllegalCommandEffect := by
  intro s w e rest h hError
  rw [step_of_pending h, portEvent_write_cmd_of_error hError]

/-! ### NOP and CLR -/

/-- Settles O19: the word 0 is NOP's own, so the step is the store to CMD. -/
theorem nopWritesOnlyCmd : Obligations.NopWritesOnlyCmd :=
  ⟨exec_nop, fun _ _ h => step_of_pending_nop h (decodeOfEncode .nop rfl)⟩

/-- Settles O20: the state is `clearOutputs`, whose two arrays are 0 throughout. -/
theorem clrClearsOutputs : Obligations.ClrClearsOutputs := fun s =>
  ⟨s.clearOutputs, exec_clr s, rfl, fun k => Vector.getElem_replicate k.isLt,
    fun k => Vector.getElem_replicate k.isLt⟩

end Sys2Proof.Machine
end

section
/-! PROOFS. The errors: which of them each command can raise (60_exceptions.md R270, R278), and that a command that
raises one has aborted as R281 says. -/

namespace Sys2Proof.Machine

/-! ### Which errors a command raises -/

/-- The errors a command raises, in the order of its tests (60_exceptions.md R278). NoInverse is not among those of
AFF.DEC, where it cannot occur (R273). -/
def commandErrors : Instr → List ErrorCode
  | .nop | .clr => []
  | .vigEnc | .vigDec | .vigTab _ | .pfEnc | .pfMat => [.emptyInput]
  | .affEnc | .affDec => [.invalidKey, .emptyInput]
  | .affInv => [.noInverse]
  | .pfDec => [.emptyInput, .oddLength]
  | .hillEnc | .hillDec => [.invalidKey, .singularMatrix, .emptyInput]
  | .hillInv => [.invalidKey, .singularMatrix]
  | .enigRun => [.invalidSelection, .invalidPosition, .invalidRing, .invalidPlugboard, .emptyInput]

section
variable {s : State} {e : ErrorCode}

/-- The test for an empty text or key, where it is a body's last, raises EmptyInput and nothing else
(60_exceptions.md R276). -/
theorem eq_emptyInput_of_empty_test {c : Prop} [Decidable c] {r : Result}
    (h : (if c then .error .emptyInput else .ok r : Except ErrorCode Result) = .error e) : e = .emptyInput := by
  split_ifs at h
  cases h
  rfl

theorem vigBody_error {letter : Sym → Sym → Sym} (h : vigBody letter s = .error e) : e = .emptyInput :=
  eq_emptyInput_of_empty_test h

theorem vigTabBody_error {n : Nat} (h : vigTabBody n s = .error e) : e = .emptyInput :=
  eq_emptyInput_of_empty_test h

theorem affEncBody_error (h : affEncBody s = .error e) : e ∈ commandErrors .affEnc := by
  by_cases hKey : s.affKeyOk
  · obtain rfl := eq_emptyInput_of_empty_test ((affEncBody_of_keyOk hKey).symm.trans h)
    simp [commandErrors]
  · cases (affEncBody_of_not_keyOk hKey).symm.trans h
    simp [commandErrors]

theorem affDecBody_error (h : affDecBody s = .error e) : e ∈ commandErrors .affDec := by
  by_cases hKey : s.affKeyOk
  · obtain ⟨aInv, hInv⟩ := hKey.exists_modInv
    obtain rfl := eq_emptyInput_of_empty_test ((affDecBody_of_keyOk hKey hInv).symm.trans h)
    simp [commandErrors]
  · cases (affDecBody_of_not_keyOk hKey).symm.trans h
    simp [commandErrors]

theorem affInvBody_error (h : affInvBody s = .error e) : e = .noInverse := by
  cases hInv : modInv s.affA.toNat with
  | none =>
    cases (affInvBody_of_modInv_none hInv).symm.trans h
    rfl
  | some v => cases (affInvBody_of_modInv hInv).symm.trans h

theorem pfEncBody_error (h : pfEncBody s = .error e) : e = .emptyInput := by
  by_cases hKey : s.keywordOk
  · exact eq_emptyInput_of_empty_test ((pfEncBody_of_keywordOk hKey).symm.trans h)
  · cases (pfEncBody_of_not_keywordOk hKey).symm.trans h
    rfl

theorem pfDecBody_error (h : pfDecBody s = .error e) : e ∈ commandErrors .pfDec := by
  by_cases hKey : s.keywordOk
  · rw [pfDecBody_of_keywordOk hKey] at h
    split_ifs at h <;> cases h <;> simp [commandErrors]
  · cases (pfDecBody_of_not_keywordOk hKey).symm.trans h
    simp [commandErrors]

theorem pfMatBody_error (h : pfMatBody s = .error e) : e = .emptyInput := eq_emptyInput_of_empty_test h

theorem hillBody_error {used : Word} (h : hillBody used s = .error e) :
    e ∈ [.invalidKey, .singularMatrix, .emptyInput] := by
  by_cases hKey : s.hillKeyOk
  · cases hInv : s.hillKeyInverse with
    | none =>
      cases (hillBody_of_singular used hKey hInv).symm.trans h
      simp
    | some inv =>
      obtain rfl := eq_emptyInput_of_empty_test ((hillBody_of_inverse used hKey hInv).symm.trans h)
      simp
  · cases (hillBody_of_not_keyOk used hKey).symm.trans h
    simp

theorem hillInvBody_error (h : hillInvBody s = .error e) : e ∈ commandErrors .hillInv := by
  by_cases hKey : s.hillKeyOk
  · cases hInv : s.hillKeyInverse with
    | none =>
      cases (hillInvBody_of_singular hKey hInv).symm.trans h
      simp [commandErrors]
    | some inv => cases (hillInvBody_of_inverse hKey hInv).symm.trans h
  · cases (hillInvBody_of_not_keyOk hKey).symm.trans h
    simp [commandErrors]

theorem enigScalarError_mem (h : enigScalarError s = some e) :
    e ∈ [.invalidSelection, .invalidPosition, .invalidRing] := by
  unfold enigScalarError at h
  split_ifs at h <;> cases h <;> simp

theorem enigPlug_error (h : enigPlug s = .error e) : e = .invalidPlugboard := by
  by_cases hPlug : s.plugsOk
  · cases (enigPlug_of_plugsOk hPlug).symm.trans h
  · cases (enigPlug_of_not_plugsOk hPlug).symm.trans h
    rfl

theorem enigBody_error (h : enigBody s = .error e) : e ∈ commandErrors .enigRun := by
  cases hScalar : enigScalarError s with
  | some e' =>
    cases (enigBody_of_scalarError hScalar).symm.trans h
    exact List.mem_append_left [.invalidPlugboard, .emptyInput] (enigScalarError_mem hScalar)
  | none =>
    cases hPlug : enigPlug s with
    | error e' =>
      cases (enigBody_of_plugError hScalar hPlug).symm.trans h
      obtain rfl := enigPlug_error hPlug
      simp [commandErrors]
    | ok plug =>
      obtain rfl := eq_emptyInput_of_empty_test ((enigBody_of_valid hScalar hPlug).symm.trans h)
      simp [commandErrors]

end

/-- Every error that a command's body raises is one of those that 60_exceptions.md R278 lists for it. -/
theorem body_error_mem {i : Instr} {body : State → Except ErrorCode Result} (hb : commandBody i = some body)
    {s : State} {e : ErrorCode} (h : body s = .error e) : e ∈ commandErrors i := by
  cases i <;> cases hb
  case vigEnc | vigDec => exact List.mem_singleton.mpr (vigBody_error h)
  case vigTab => exact List.mem_singleton.mpr (vigTabBody_error h)
  case affEnc => exact affEncBody_error h
  case affDec => exact affDecBody_error h
  case affInv => exact List.mem_singleton.mpr (affInvBody_error h)
  case pfEnc => exact List.mem_singleton.mpr (pfEncBody_error h)
  case pfDec => exact pfDecBody_error h
  case pfMat => exact List.mem_singleton.mpr (pfMatBody_error h)
  case hillEnc | hillDec => exact hillBody_error h
  case hillInv => exact hillInvBody_error h
  case enigRun => exact enigBody_error h

/-! ### The abort -/

/-- A command that ends with an error has aborted with one of its own errors (60_exceptions.md R281). NOP is left out,
for it keeps the ERR of the command before. -/
theorem exec_of_err_ne_zero {i : Instr} {s t : State} (hi : i ≠ .nop) (h : exec i s = .next t) (hErr : t.err ≠ 0) :
    ∃ e ∈ commandErrors i, t = s.aborted (errorWord e) := by
  obtain ⟨hNop, -⟩ | ⟨-, hx⟩ | ⟨body, hb, hx⟩ := exec_cases i s
  · exact absurd hNop hi
  · cases hx.symm.trans h
    exact absurd s.clearOutputs_err hErr
  · cases hx.symm.trans h
    obtain ⟨r, -, -, hZero, -⟩ | ⟨e, he, hRun⟩ := runOperation_cases body s
    · exact absurd hZero hErr
    · exact ⟨e, body_error_mem hb he, hRun⟩

/-- IllegalCommand is raised by the dispatch, by no command (60_exceptions.md R283). -/
theorem illegalCommand_not_mem_commandErrors (i : Instr) : .illegalCommand ∉ commandErrors i := by
  cases i <;> simp [commandErrors]

theorem errorWord_toNat_of_ne_illegalCommand {e : ErrorCode} (h : e ≠ .illegalCommand) :
    1 ≤ (errorWord e).toNat ∧ (errorWord e).toNat ≤ 9 := by
  cases e with
  | illegalCommand => exact absurd rfl h
  | _ => decide

/-- Settles O55: the state is `aborted` with an error of the command's own, of which IllegalCommand is none. -/
theorem abortChangesNothingElse : Obligations.AbortChangesNothingElse := by
  intro i s t hi h hErr
  obtain ⟨e, he, rfl⟩ := exec_of_err_ne_zero hi h hErr
  have hLegal : e ≠ .illegalCommand := ne_of_mem_of_not_mem he (illegalCommand_not_mem_commandErrors i)
  exact ⟨rfl, errorWord_toNat_of_ne_illegalCommand hLegal⟩

end Sys2Proof.Machine
end

section
/-! PROOFS. The operations straight after a reset (70_reset_and_hazards.md R303). -/

namespace Sys2Proof.Machine

/-! ### The operands that a reset leaves -/

@[simp] theorem State.cleanText_resetDevice (s : State) : s.resetDevice.cleanText = [] := rfl

@[simp] theorem State.cleanKey_resetDevice (s : State) : s.resetDevice.cleanKey = [] := rfl

@[simp] theorem State.affA_resetDevice (s : State) : s.resetDevice.affA = 0 := rfl

/-- The multiplier 0 is not a valid one (42_affine.md R141). -/
theorem State.not_affKeyOk_resetDevice (s : State) : ¬ s.resetDevice.affKeyOk := by
  simp [State.affKeyOk]

/-- The multiplier 0 has no inverse (42_affine.md R146). -/
theorem State.gcd_affA_resetDevice (s : State) : Nat.gcd s.resetDevice.affA.toNat 26 ≠ 1 := by
  simp

/-- The dimension 0 is not a valid one (44_hill_matrix_inverse.md R191). -/
theorem State.not_hillKeyOk_resetDevice (s : State) : ¬ s.resetDevice.hillKeyOk := fun h =>
  absurd h.dim_pos (Nat.lt_irrefl 0)

/-- The rotor identifier 0 is unknown (45_enigma_rotor_path.md R225). -/
theorem State.not_selectionOk_resetDevice (s : State) : ¬ s.resetDevice.selectionOk := fun ⟨hRotor, _⟩ =>
  absurd (hRotor 0).1 (Nat.not_succ_le_zero 0)

/-! ### The operations -/

/-- Settles O15, unit by unit: an empty text and keyword, and a key of zeros that fails its test. -/
theorem operationsAfterReset : Obligations.OperationsAfterReset := by
  rintro s _ rfl hParam
  have hText := s.cleanText_resetDevice
  have hKey := s.cleanKey_resetDevice
  have hAff := s.not_affKeyOk_resetDevice
  have hHill := s.not_hillKeyOk_resetDevice
  have hKeyword : ¬ s.resetDevice.keywordOk := State.not_keywordOk hKey hParam
  obtain ⟨-, hAffInv⟩ := affInvResult
  obtain ⟨-, hPfMat⟩ := pfMatResult
  obtain ⟨-, hHillInv⟩ := hillInvResult
  refine ⟨exec_vig_of_empty rfl (.inl hText), exec_vig_of_empty rfl (.inl hText), fun n _ => ?_, ?_, ?_,
    (hAffInv _).1 s.gcd_affA_resetDevice, exec_pfEnc_of_not_keywordOk hKeyword, exec_pfDec_of_not_keywordOk hKeyword,
    (hPfMat _).1 hKey hParam, exec_hill_of_not_keyOk rfl hHill, exec_hill_of_not_keyOk rfl hHill, (hHillInv _).1 hHill,
    (enigErrorOrder _).1 s.not_selectionOk_resetDevice⟩
  · exact exec_of_body_error (i := .vigTab n) rfl (vigTabBody_of_empty (s := s.resetDevice.freshResult) hKey)
  · exact exec_of_body_error (i := .affEnc) rfl (affEncBody_of_not_keyOk (s := s.resetDevice.freshResult) hAff)
  · exact exec_of_body_error (i := .affDec) rfl (affDecBody_of_not_keyOk (s := s.resetDevice.freshResult) hAff)

end Sys2Proof.Machine
end
